-- ==== Sys2Proof/Word.lean ====
section
/-! DEFINITION. Words and bytes. The block comes in two configurations, BEE-32 and BEE-64 (rules R1, R2 and the
parameter `WORD_BYTES` of R6): everything below is written once, for a word size `w`. -/

namespace Sys2Proof

/-- `WORD_BYTES`, rule R6: 4 (BEE-32) or 8 (BEE-64). -/
inductive WordSize where
  | four
  | eight
deriving DecidableEq, Repr

/-- `W`, the number of bytes in a word (rule R6). -/
def WordSize.bytes : WordSize → Nat
  | .four => 4
  | .eight => 8

/-- `XLEN = 8 * W`, the number of bits in a word (rule R8). -/
def WordSize.xlen (w : WordSize) : Nat := 8 * w.bytes

/-- One byte of memory or of the debug stream. -/
abbrev Byte := BitVec 8

/-- A word: a bit vector of `XLEN` bits (rule R8). `toNat` is the rule's `u`, `toInt` its `s`. -/
abbrev Word (w : WordSize) := BitVec w.xlen

/-- `W` as a word. -/
abbrev WordSize.step (w : WordSize) : Word w := BitVec.ofNat w.xlen w.bytes

@[simp] theorem WordSize.bytes_four : WordSize.four.bytes = 4 := rfl
@[simp] theorem WordSize.bytes_eight : WordSize.eight.bytes = 8 := rfl
@[simp] theorem WordSize.xlen_four : WordSize.four.xlen = 32 := rfl
@[simp] theorem WordSize.xlen_eight : WordSize.eight.xlen = 64 := rfl

end Sys2Proof
end

