-- ==== Sys2Proof/Machine/Flags.lean ====
section
/-! DEFINITION. The block has no status flags (rule R19): a comparison's result is a boolean word on the data stack, computed
here (rules R113 to R116). -/

namespace Sys2Proof.Machine

variable {w : WordSize}

/-- A boolean word: 1 for true, 0 for false (rule R116). -/
def boolWord (w : WordSize) (p : Bool) : Word w := if p then 1 else 0

/-- `EQ`'s result (rule R113). -/
def isEq (b a : Word w) : Word w := boolWord w (b == a)

/-- `LT`'s result: signed less-than (rule R114). -/
def isLt (b a : Word w) : Word w := boolWord w (decide (b.toInt < a.toInt))

/-- `ULT`'s result: unsigned less-than (rule R115). -/
def isUlt (b a : Word w) : Word w := boolWord w (decide (b.toNat < a.toNat))

end Sys2Proof.Machine
end

