-- ==== Sys2Proof/Config.lean ====
section
/-! DEFINITION. The implementation parameters of rule R6, as plain data, and the free values.
A configuration is fixed for a machine; it is carried in the state (log 1), so that a statement about every state is a
statement about every value of the parameters. -/

namespace Sys2Proof

/-- `BYTE_ORDER` (rules R6, R42). -/
inductive ByteOrder where
  | little
  | big
deriving DecidableEq, Repr

/-- `ARSHIFT_OVERSHIFT` (rules R6, R107). -/
inductive Overshift where
  | signfill
  | zero
deriving DecidableEq, Repr

/-- `SST_MODE` (rules R6, R183). -/
inductive SstMode where
  | patch
  | direct
deriving DecidableEq, Repr

/-- The widths of a memory access: `n` in {1, 2, 4, W} bytes (rule R40). -/
inductive Width where
  | b1
  | b2
  | b4
  | word
deriving DecidableEq, Repr

/-- A run of `size` byte addresses from `base` up; `MEM_VALID` (rule R6) is a list of them. -/
structure AddrRange where
  base : Nat
  size : Nat
deriving DecidableEq, Repr

/-- A value a trap function works with (rule R161, log 9): a constant of the function, the `i`-th word it has popped or
read so far, a value from outside the block (an open file's content, the host's own state), a sum. -/
inductive HostVal (w : WordSize) where
  | lit (v : Word w)
  | got (i : Nat)
  | outside
  | sum (x y : HostVal w)
deriving DecidableEq, Repr

/-- One thing a host function does to the block (rule R161, log 9); `hang` is not returning (U5). -/
inductive HostAct (w : WordSize) where
  | pop
  | push (v : Word w)
  | read (addr : Word w) (n : Width)
  | write (addr : Word w) (n : Width) (v : Word w)
  | hang
deriving DecidableEq, Repr

/-- What a trap function does (rule R161, log 9): it calls `PopD` and `PushD` any number of times, reads and writes memory
at addresses it takes from the words it has, decides on them, and answers `done`; or it never returns (`hang`, U5); or it
goes on as the host decides (`free`: any acts at all, a free value of the id, the data stack, memory and the host's state). -/
inductive HostProg (w : WordSize) where
  | done
  | hang
  | pop (k : HostProg w)
  | push (v : HostVal w) (k : HostProg w)
  | read (addr : HostVal w) (n : Width) (k : HostProg w)
  | write (addr : HostVal w) (n : Width) (v : HostVal w) (k : HostProg w)
  | ifEq (x y : HostVal w) (yes no : HostProg w)
  | free
deriving DecidableEq, Repr

/-- The parameters of rule R6 that the block reads while it runs. -/
structure Config (w : WordSize) where
  /-- `BYTE_ORDER`. -/
  byteOrder : ByteOrder
  /-- `ARSHIFT_OVERSHIFT`. -/
  overshift : Overshift
  /-- `SST_MODE`. -/
  sstMode : SstMode
  /-- `MEM_VALID`: the byte addresses the embedder has backed. -/
  memValid : List AddrRange
  /-- `TRAP_HOST`: the function ids the host knows, each with what the host does. -/
  trapHost : List (Word w × HostProg w)
  /-- `DBG_BUFMAX`. -/
  bufMax : Nat
  /-- `DBG_SIGMAP`: error code (signed value) to signal number. -/
  sigMap : List (Int × Byte)
  /-- `DBG_SIGDEFAULT`. -/
  sigDefault : Byte
  /-- `DBG_SIG_INIT`. -/
  sigInit : Byte
deriving DecidableEq, Repr

/-- The parameters of `INIT` (rule R260). -/
structure InitParams (w : WordSize) where
  pc : Word w
  d0 : Word w
  dsize : Word w
  s0 : Word w
  ssize : Word w
deriving DecidableEq, Repr

/-- The table of rule R214, keyed by the codes' signed values (rule R230). -/
def Config.defaultSigMap : List (Int × Byte) :=
  [(-256, 5#8), (-1, 4#8), (-2, 11#8), (-3, 11#8), (-4, 10#8), (-16, 12#8), (-17, 12#8)]

/-- The defaults of rule R6. `MEM_VALID` has none in the spec: DESIGN CHOICE, every address (log 3). -/
def Config.default (w : WordSize) : Config w where
  byteOrder := .little
  overshift := .signfill
  sstMode := .patch
  memValid := [⟨0, 2 ^ w.xlen⟩]
  trapHost := []
  bufMax := 1024
  sigMap := Config.defaultSigMap
  sigDefault := 6#8
  sigInit := 5#8

/-- `INIT`'s parameters at reset. `DSIZE_INIT` and `SSIZE_INIT` are the defaults of rule R6; the three addresses are
DESIGN CHOICES (log 2), aligned and with the two arrays and the code disjoint (rule R261). -/
def InitParams.default (w : WordSize) : InitParams w where
  pc := 0x1000
  d0 := 0x2000
  dsize := 4096
  s0 := 0x6000
  ssize := 4096

/-- Whatever the trap host keeps between calls ("process-global, e.g., file descriptors and argv", rules R21, R161, R162), as
bytes whose reading is the host's own (log 9). -/
abbrev HostState := List Byte

/-- What the host's behaviour may depend on: rule R161's "state transformer over (data stack, memory, host state)", chosen by
the function id. The data stack is the region of memory that `d0`, `dsize` and `dp` describe (rule R13). -/
structure HostView (w : WordSize) where
  /-- The function id. -/
  fn : Word w
  /-- The words the function has popped or read so far in this call, oldest first. -/
  got : List (Word w)
  d0 : Word w
  dsize : Word w
  dp : Word w
  mem : List Host.Cell
  host : HostState
  /-- How often the host has been asked before: it may answer the same question differently. -/
  seq : Nat
deriving DecidableEq, Repr

/-- FREE VALUE (log 9): the word that a trap function takes from outside the block. No body: nothing can be proved of what it
is. -/
opaque Config.hostWord {w : WordSize} (v : HostView w) : Word w

/-- FREE VALUE (log 9): what the host does when it goes on as it decides. No body. -/
opaque Config.hostActs {w : WordSize} (v : HostView w) : List (HostAct w)

/-- FREE VALUE (log 9): what the host keeps once it has been asked. No body. -/
opaque Config.hostNext {w : WordSize} (v : HostView w) : HostState

end Sys2Proof
end

