-- ==== Sys2Proof/Syntax.lean ====
section
/-! DEFINITION. The instructions: one constructor per row of spec/opcode_table.json (rule R67), in the table's order.
Immediate operands are the signed numbers of rule R64 (log 16). A trailing underscore sets a constructor apart from a word
of Lean's own. -/

namespace Sys2Proof

inductive Instr where
  /-- `CALLI n`, rule R90. -/
  | calli (n : Int)
  /-- `PUSHI n`, rule R91. -/
  | pushi (n : Int)
  /-- `PUSHRELI n`, rule R92. -/
  | pushreli (n : Int)
  /-- `JUMPI n`, rule R93. -/
  | jumpi (n : Int)
  /-- `JUMPZI n`, rule R94. -/
  | jumpzi (n : Int)
  /-- `TRAP lib`, rule R160. -/
  | trap (lib : Int)
  /-- `NOP`, rule R100. -/
  | nop
  /-- `NOT`, rule R101. -/
  | not
  /-- `AND`, rule R102. -/
  | and
  /-- `OR`, rule R103. -/
  | or
  /-- `XOR`, rule R104. -/
  | xor
  /-- `LSHIFT`, rule R105. -/
  | lshift
  /-- `RSHIFT`, rule R106. -/
  | rshift
  /-- `ARSHIFT`, rule R107. -/
  | arshift
  /-- `POP`, rule R120. -/
  | pop
  /-- `DUP`, rule R121. -/
  | dup
  /-- `SET`, rule R122. -/
  | set
  /-- `SWAP`, rule R123. -/
  | swap
  /-- `JUMP`, rule R130. -/
  | jump
  /-- `JUMPZ`, rule R131. -/
  | jumpz
  /-- `CALL`, rule R132. -/
  | call
  /-- `RET`, rule R133. -/
  | ret
  /-- `LOAD`, rule R140. -/
  | load
  /-- `STORE`, rule R141. -/
  | store
  /-- `LOAD1`, rule R142. -/
  | load1
  /-- `STORE1`, rule R143. -/
  | store1
  /-- `LOAD2`, rule R144. -/
  | load2
  /-- `STORE2`, rule R145. -/
  | store2
  /-- `LOAD4`, rule R146. -/
  | load4
  /-- `STORE4`, rule R147. -/
  | store4
  /-- `NEGATE`, rule R108. -/
  | negate
  /-- `ADD`, rule R109. -/
  | add
  /-- `MUL`, rule R110. -/
  | mul
  /-- `DIVMOD`, rule R111. -/
  | divmod
  /-- `UDIVMOD`, rule R112. -/
  | udivmod
  /-- `EQ`, rule R113. -/
  | eq
  /-- `LT`, rule R114. -/
  | lt
  /-- `ULT`, rule R115. -/
  | ult
  /-- `PUSHS`, rule R124. -/
  | pushs
  /-- `POPS`, rule R125. -/
  | pops
  /-- `DUPS`, rule R126. -/
  | dups
  /-- `CATCH`, rule R134. -/
  | catch_
  /-- `THROW`, rule R135. -/
  | throw_
  /-- `BREAK`, rule R136. -/
  | break_
  /-- `WORD_BYTES`, rule R150. -/
  | wordBytes
  /-- `GET_SSIZE`, rule R151. -/
  | getSsize
  /-- `GET_SP`, rule R152. -/
  | getSp
  /-- `SET_SP`, rule R153. -/
  | setSp
  /-- `GET_DSIZE`, rule R154. -/
  | getDsize
  /-- `GET_DP`, rule R155. -/
  | getDp
  /-- `SET_DP`, rule R156. -/
  | setDp
  /-- `GET_HANDLER_SP`, rule R157. -/
  | getHandlerSp
deriving DecidableEq, Repr

end Sys2Proof
end

