-- ==== Sys2Proof/WellFormed.lean ====
section
/-! DEFINITION. Which instructions can be encoded: an immediate operand is in the range of rule R70. -/

namespace Sys2Proof

/-- `n` is representable in the operand field above a tag of `tag` bits: `-2^(XLEN-tag-1) <= n < 2^(XLEN-tag-1)`
(rule R70). -/
def fitsAbove (w : WordSize) (tag : Nat) (n : Int) : Bool :=
  decide (-(2 : Int) ^ (w.xlen - tag - 1) ≤ n) && decide (n < (2 : Int) ^ (w.xlen - tag - 1))

/-- An instruction the encoder has a word for: the I2 formats have a 2-bit tag, the I4 formats a 4-bit tag (rule R63). -/
def Instr.wf (w : WordSize) : Instr → Bool
  | .calli n | .pushi n | .pushreli n => fitsAbove w 2 n
  | .jumpi n | .jumpzi n | .trap n => fitsAbove w 4 n
  | .nop | .not | .and | .or | .xor | .lshift | .rshift | .arshift
  | .pop | .dup | .set | .swap | .jump | .jumpz | .call | .ret
  | .load | .store | .load1 | .store1 | .load2 | .store2 | .load4 | .store4
  | .negate | .add | .mul | .divmod | .udivmod | .eq | .lt | .ult
  | .pushs | .pops | .dups | .catch_ | .throw_ | .break_
  | .wordBytes | .getSsize | .getSp | .setSp | .getDsize | .getDp | .setDp | .getHandlerSp => true

end Sys2Proof
end

