-- ==== Sys2Proof/Decode.lean ====
section
/-! DEFINITION. The byte order (rule R42), the decoder DEC as a total function (rules R60 to R69), and after it the encoder
(rules R70 to R72). -/

namespace Sys2Proof

/-! ### Byte order (rule R42) -/

/-- The number whose bytes, least significant first, are `bs`. -/
def leToNat : List Byte → Nat
  | [] => 0
  | b :: bs => b.toNat + 256 * leToNat bs

/-- The low `n` bytes of `v`, least significant first. -/
def natToLe : Nat → Nat → List Byte
  | 0, _ => []
  | n + 1, v => BitVec.ofNat 8 v :: natToLe n (v / 256)

/-- The bytes at rising addresses, assembled into an unsigned number (rule R42). -/
def assemble (o : ByteOrder) (bs : List Byte) : Nat :=
  match o with
  | .little => leToNat bs
  | .big => leToNat bs.reverse

/-- The `n` bytes, at rising addresses, that hold the low `8 * n` bits of `v` (rule R42). -/
def scatter (o : ByteOrder) (n v : Nat) : List Byte :=
  match o with
  | .little => natToLe n v
  | .big => (natToLe n v).reverse

/-! ### The decoder -/

/-- Why a word or a run of bytes is no instruction. -/
inductive Reject where
  /-- An `INSN` word whose opcode number is above 0x2D (rule R68 (a)): `INVALID(opcode)` of rule R69. -/
  | invalidOpcode (opcode : Nat)
  /-- Fewer than `W` bytes: not a whole instruction word (rule R60). -/
  | truncated
deriving DecidableEq, Repr

/-- The `INSN` opcode map of rule R67. -/
def insnOf : Nat → Option Instr
  | 0x00 => some .nop
  | 0x01 => some .not
  | 0x02 => some .and
  | 0x03 => some .or
  | 0x04 => some .xor
  | 0x05 => some .lshift
  | 0x06 => some .rshift
  | 0x07 => some .arshift
  | 0x08 => some .pop
  | 0x09 => some .dup
  | 0x0A => some .set
  | 0x0B => some .swap
  | 0x0C => some .jump
  | 0x0D => some .jumpz
  | 0x0E => some .call
  | 0x0F => some .ret
  | 0x10 => some .load
  | 0x11 => some .store
  | 0x12 => some .load1
  | 0x13 => some .store1
  | 0x14 => some .load2
  | 0x15 => some .store2
  | 0x16 => some .load4
  | 0x17 => some .store4
  | 0x18 => some .negate
  | 0x19 => some .add
  | 0x1A => some .mul
  | 0x1B => some .divmod
  | 0x1C => some .udivmod
  | 0x1D => some .eq
  | 0x1E => some .lt
  | 0x1F => some .ult
  | 0x20 => some .pushs
  | 0x21 => some .pops
  | 0x22 => some .dups
  | 0x23 => some .catch_
  | 0x24 => some .throw_
  | 0x25 => some .break_
  | 0x26 => some .wordBytes
  | 0x27 => some .getSsize
  | 0x28 => some .getSp
  | 0x29 => some .setSp
  | 0x2A => some .getDsize
  | 0x2B => some .getDp
  | 0x2C => some .setDp
  | 0x2D => some .getHandlerSp
  | _ => none

/-- An immediate operand: the arithmetic right shift of the word, read signed (rule R64). -/
def operand {w : WordSize} (ir : Word w) (tag : Nat) : Int := (ir.sshiftRight tag).toInt

/-- `Decode(ir)`, rule R69. -/
def decode (w : WordSize) (ir : Word w) : Except Reject Instr :=
  match (ir.extractLsb' 0 2).toNat with
  | 0 => .ok (.calli (operand ir 2))
  | 1 => .ok (.pushi (operand ir 2))
  | 2 => .ok (.pushreli (operand ir 2))
  | _ =>
    match (ir.extractLsb' 2 2).toNat with
    | 0 => .ok (.jumpi (operand ir 4))
    | 1 => .ok (.jumpzi (operand ir 4))
    | 2 => .ok (.trap (operand ir 4))
    | _ =>
      match insnOf (ir >>> 4).toNat with
      | some i => .ok i
      | none => .error (.invalidOpcode (ir >>> 4).toNat)

/-- The decoder on bytes as the memory holds them: the first `W` make the word (rules R42, R60); the rest is left over. -/
def decodeBytes (w : WordSize) (o : ByteOrder) (bs : List Byte) : Except Reject (Instr × List Byte) :=
  if bs.length < w.bytes then .error .truncated
  else
    match decode w (BitVec.ofNat w.xlen (assemble o (bs.take w.bytes))) with
    | .ok i => .ok (i, bs.drop w.bytes)
    | .error r => .error r

/-! ### The encoder -/

/-- The `INSN` opcode number of a short-form instruction (rule R67); none for the six immediate forms. -/
def opcodeOf : Instr → Option Nat
  | .calli _ | .pushi _ | .pushreli _ | .jumpi _ | .jumpzi _ | .trap _ => none
  | .nop => some 0x00
  | .not => some 0x01
  | .and => some 0x02
  | .or => some 0x03
  | .xor => some 0x04
  | .lshift => some 0x05
  | .rshift => some 0x06
  | .arshift => some 0x07
  | .pop => some 0x08
  | .dup => some 0x09
  | .set => some 0x0A
  | .swap => some 0x0B
  | .jump => some 0x0C
  | .jumpz => some 0x0D
  | .call => some 0x0E
  | .ret => some 0x0F
  | .load => some 0x10
  | .store => some 0x11
  | .load1 => some 0x12
  | .store1 => some 0x13
  | .load2 => some 0x14
  | .store2 => some 0x15
  | .load4 => some 0x16
  | .store4 => some 0x17
  | .negate => some 0x18
  | .add => some 0x19
  | .mul => some 0x1A
  | .divmod => some 0x1B
  | .udivmod => some 0x1C
  | .eq => some 0x1D
  | .lt => some 0x1E
  | .ult => some 0x1F
  | .pushs => some 0x20
  | .pops => some 0x21
  | .dups => some 0x22
  | .catch_ => some 0x23
  | .throw_ => some 0x24
  | .break_ => some 0x25
  | .wordBytes => some 0x26
  | .getSsize => some 0x27
  | .getSp => some 0x28
  | .setSp => some 0x29
  | .getDsize => some 0x2A
  | .getDp => some 0x2B
  | .setDp => some 0x2C
  | .getHandlerSp => some 0x2D

/-- `(v << tag) | low`, modulo 2^XLEN (rule R70). -/
def place (w : WordSize) (v : Int) (tag low : Nat) : Word w :=
  (BitVec.ofInt w.xlen v <<< tag) ||| BitVec.ofNat w.xlen low

/-- The formulas of rule R70, for an operand that fits. -/
def encodeFields (w : WordSize) (i : Instr) : Word w :=
  match i with
  | .calli n => place w n 2 0
  | .pushi n => place w n 2 1
  | .pushreli n => place w n 2 2
  | .jumpi n => place w n 4 0x3
  | .jumpzi n => place w n 4 0x7
  | .trap n => place w n 4 0xB
  | short => place w ((opcodeOf short).getD 0) 4 0xF

/-- The encoder: none for an operand that does not fit its field (rule R71, U1), never a truncated word. -/
def encode (w : WordSize) (i : Instr) : Option (Word w) :=
  if i.wf w then some (encodeFields w i) else none

/-- The `BREAK` word, rule R72. -/
def breakWord (w : WordSize) : Word w := 0x25F

/-- An instruction's bytes as memory holds them at rising addresses (rules R42, R60). -/
def encodeBytes (w : WordSize) (o : ByteOrder) (i : Instr) : Option (List Byte) :=
  (encode w i).map fun ir => scatter o w.bytes ir.toNat

/-- The instruction word that the low `nbits` bits of `v` stand for, every higher bit 0. -/
def tableWord (w : WordSize) (nbits v : Nat) : Word w := BitVec.ofNat w.xlen (v % 2 ^ nbits)

/-- The instruction the decoder reads from a row of the opcode table, laid out as BEE-32 stores it (little-endian, the
configuration of `State.reset`). -/
def decodeTableWord (nbits w : Nat) : Option Instr :=
  match decodeBytes .four .little (scatter .little 4 (tableWord .four nbits w).toNat) with
  | .ok (i, _) => some i
  | .error _ => none

end Sys2Proof
end

