-- ==== Sys2Proof/Machine/Operands.lean ====
section
/-! DEFINITION. The operand forms and the arithmetic of rules R8, R65, R105 to R112, R116, as functions of words. -/

namespace Sys2Proof.Machine

variable {w : WordSize}

/-- `RelTarget(opnd) = pc + W * opnd`, with `pc` already advanced by the fetch (rule R65). -/
def relTarget (pc : Word w) (n : Int) : Word w := pc + w.step * BitVec.ofInt w.xlen n

/-- The word whose signed value is `n` (rule R91). -/
def literal (w : WordSize) (n : Int) : Word w := BitVec.ofInt w.xlen n

/-- `u(a) mod n = 0` (rule R44). -/
def aligned (a : Word w) (n : Nat) : Bool := a.toNat % n == 0

/-- `lsl(v, k)`, and 0 for an amount of `XLEN` or more (rules R8, R105). -/
def shiftLeft (v k : Word w) : Word w := if k.toNat < w.xlen then v <<< k.toNat else 0

/-- `lsr(v, k)`, and 0 for an amount of `XLEN` or more (rules R8, R106). -/
def shiftRight (v k : Word w) : Word w := if k.toNat < w.xlen then v >>> k.toNat else 0

/-- `asr(v, k)`; for an amount of `XLEN` or more the parameter `ARSHIFT_OVERSHIFT` decides (rules R8, R107). -/
def shiftArith (o : Overshift) (v k : Word w) : Word w :=
  if k.toNat < w.xlen then v.sshiftRight k.toNat
  else
    match o with
    | .signfill => if v.toInt < 0 then -1 else 0
    | .zero => 0

/-- Quotient and remainder of `DIVMOD` (rule R111): truncation toward zero, the remainder with the dividend's sign, and the
two corner cases. -/
def divS (n d : Word w) : Word w × Word w :=
  if d = 0 then (0, n)
  else if n = BitVec.intMin w.xlen ∧ d.toInt = -1 then (BitVec.intMin w.xlen, 0)
  else (BitVec.ofInt w.xlen (n.toInt.tdiv d.toInt),
        BitVec.ofInt w.xlen (n.toInt - n.toInt.tdiv d.toInt * d.toInt))

/-- Quotient and remainder of `UDIVMOD` (rule R112). -/
def divU (n d : Word w) : Word w × Word w :=
  if d = 0 then (0, n)
  else (BitVec.ofNat w.xlen (n.toNat / d.toNat), BitVec.ofNat w.xlen (n.toNat % d.toNat))

end Sys2Proof.Machine
end

