-- ==== Sys2Proof/Machine/State.lean ====
section
/-! DEFINITION. The state of the block as plain data: the machine state record (rule R10), memory (R40), the hidden
registers of SST (R18) and of DBG (R17), what the block is doing, and the ports to the outside (HOST, DBGIO, TRAPP). -/

namespace Sys2Proof.Machine

/-- Memory: (address, byte) pairs, addresses strictly rising, no byte equal to what an unlisted address reads as
(`Memory.wf`). Keys are the unsigned readings of addresses. -/
abbrev Memory := List Host.Cell

/-- The eight architectural registers, in the order of rule R10 (the order of the register block, R206). -/
inductive Reg where
  | pc
  | d0
  | dsize
  | dp
  | s0
  | ssize
  | sp
  | handlerSp
deriving DecidableEq, Repr

/-- The hidden registers of the single-step machine (rule R18). -/
structure SstRegs (w : WordSize) where
  /-- `sst_target`: the predicted next-instruction address, or none. -/
  target : Option (Word w)
  /-- `sst_saved_word`. -/
  savedWord : Word w
  /-- `sst_saved_h`. -/
  savedH : Word w
  /-- `sst_isret`. -/
  isRet : Bool
deriving DecidableEq, Repr

/-- The receiver state (rules R17, R193). `ck2` keeps the value of the first checksum digit, none when it was invalid. -/
inductive RxState where
  | idle
  | data
  | ck1
  | ck2 (hi : Option Nat)
deriving DecidableEq, Repr

/-- The debug stub's own state (rule R17). -/
structure DbgRegs where
  /-- `dbg_verbose`. -/
  verbose : Bool
  /-- `dbg_last_signal`. -/
  lastSignal : Byte
  /-- `dbg_buf[0 .. dbg_len - 1]`: the payload received so far, or being sent. -/
  buf : List Byte
  /-- `dbg_sum`. -/
  sum : Byte
  /-- The receiver state. -/
  rx : RxState
deriving DecidableEq, Repr

/-- `dbg_len` (rule R17): how many bytes of the buffer are live (log 14). -/
def DbgRegs.len (d : DbgRegs) : Nat := d.buf.length

/-- Who started the run loop: the embedder's `RUN` (R85), SST's run of one instruction (R175), a direct-mode `STEP` (R183),
or the stub's `c` (R211). -/
inductive Caller where
  | host
  | sst
  | direct
  | debug
deriving DecidableEq, Repr

/-- The phases of `STEP` (rule R171). The phase `RUN` itself is `Activity.run .sst`; `launch` is its start, where
`handler_sp` is saved and cleared (R173). The later phases carry the `code` with which the run ended. -/
inductive SstPhase (w : WordSize) where
  | predict
  | arm
  | launch
  | disarm (code : Word w)
  | fixup (code : Word w)
  | replay (code : Word w)
  | done (code : Word w)
deriving DecidableEq, Repr

/-- Where the stub's event loop is (rule R216): receiving a packet (R193), executing a command (R200), transmitting a reply
and waiting for its acknowledgement (R196), or reporting a stop (R211). -/
inductive DbgPhase (w : WordSize) where
  | recv
  | dispatch
  | send
  | ack
  | stopped (code : Word w)
deriving DecidableEq, Repr

/-- What the block is doing between two steps (log 7). -/
inductive Activity (w : WordSize) where
  | idle
  | run (by_ : Caller)
  | sst (p : SstPhase w)
  | dbg (p : DbgPhase w)
deriving DecidableEq, Repr

/-- What the embedder does over HOST (rule R80), and to the memory it owns between operations (R80, R263, R264). -/
inductive HostCmd (w : WordSize) where
  | init (p : InitParams w)
  | run
  | step
  | debug
  | regRead (r : Reg)
  | regWrite (r : Reg) (v : Word w)
  | memRead (a : Word w)
  | memWrite (a : Word w) (v : Byte)
  | load (base : Word w) (object : List Byte)
deriving DecidableEq, Repr

/-- What HOST returns: a result word (R80), `halted` or `killed` (R217), or a byte of memory the embedder read. -/
inductive HostResult (w : WordSize) where
  | word (v : Word w)
  | halted
  | killed
  | byte (v : Byte)
deriving DecidableEq, Repr

/-- The ports, as seen by a model whose inputs are data: HOST (log 7), DBGIO (log 8), and TRAPP with the trap host's own state
and the counter of its free values (log 9). -/
structure Ports (w : WordSize) where
  /-- The HOST operations the embedder has yet to issue. -/
  cmds : List (HostCmd w)
  /-- The results returned on HOST, oldest first. -/
  results : List (HostResult w)
  /-- The bytes still to arrive on DBGIO (rule R21). -/
  rxBytes : List Byte
  /-- The bytes emitted on DBGIO, oldest first. -/
  txBytes : List Byte
  /-- What the trap host keeps (rules R21, R161); only a `TRAP` changes it. -/
  host : HostState
  /-- How often the trap host has been asked for a free value so far. -/
  hostSeq : Nat
deriving DecidableEq, Repr

/-- All of the block, for one word size. -/
structure Block (w : WordSize) where
  /-- The parameters of rule R6; no step changes them (log 1). -/
  cfg : Config w
  pc : Word w
  d0 : Word w
  dsize : Word w
  dp : Word w
  s0 : Word w
  ssize : Word w
  sp : Word w
  handlerSp : Word w
  mem : Memory
  sst : SstRegs w
  dbg : DbgRegs
  act : Activity w
  io : Ports w
deriving DecidableEq, Repr

/-- The state: the word size (`WORD_BYTES`, rule R6) and the block of that size (log 1). -/
structure State where
  w : WordSize
  blk : Block w
deriving DecidableEq, Repr

/-- Why the machine stops for good. The error codes of rule R230 are not among these: raising one is a next state. -/
inductive Fault where
  /-- Raised by `TRAP` when the host function never returns: "A function that never returns makes the instruction *stuck*"
  (U5 of 93_implementation_defined.md). Safe: the model claims nothing after it (log 10). -/
  | trapHostStuck
deriving DecidableEq, Repr

/-- Why a step has no meaning in the model. -/
inductive Refusal where
  /-- An instruction without a meaning yet. Safe. -/
  | notModelled (mnemonic : String)
  /-- Raised by any access with a byte outside `MEM_VALID`: "a model *refuses* it" (rule R47, D10). Safe (log 6).
  `addr` is the address of the access's first byte. -/
  | outsideMemValid (addr : Nat)
  /-- Raised by the object load on a dump the rule does not cover: no line feed after `#!`, or a length that is no multiple
  of `W` (rule R263, N70-1). Safe (log 15). -/
  | loadFormat
deriving DecidableEq, Repr

/-- What a step, and the meaning of an instruction, answers. -/
abbrev Out := Host.Outcome State Fault Refusal

/-- The block right after `INIT` with parameters `p` (rules R20, R260) on a machine configured as `cfg`, memory zero, nothing
pending on the ports. -/
def Block.fresh {w : WordSize} (cfg : Config w) (p : InitParams w) : Block w where
  cfg := cfg
  pc := p.pc
  d0 := p.d0
  dsize := p.dsize
  dp := 0
  s0 := p.s0
  ssize := p.ssize
  sp := 0
  handlerSp := 0
  mem := []
  sst := { target := none, savedWord := 0, savedH := 0, isRet := false }
  dbg := { verbose := false, lastSignal := cfg.sigInit, buf := [], sum := 0, rx := .idle }
  act := .idle
  io := { cmds := [], results := [], rxBytes := [], txBytes := [], host := [], hostSeq := 0 }

/-- The machine right after reset (rules R20, R260): BEE-32 with the defaults of rule R6; the values the spec leaves to the
embedder are those of logs 2 to 5. `INIT` does not start execution. -/
def State.reset : State where
  w := .four
  blk := Block.fresh (Config.default .four) (InitParams.default .four)

end Sys2Proof.Machine
end

