-- ==== Sys2Proof/Machine/Ops.lean ====
section
/-! DEFINITION. The named operations that every meaning is built from: memory (rules R40 to R47), the stack controller STK
(R30 to R36), raising, unwinding and stopping (R82, R88, R232 to R236), and leaving a protected region (R133). -/

namespace Sys2Proof.Machine

variable {w : WordSize}

/-! ### Memory as data -/

/-- What an address that memory does not list reads as. Code and data memory is zero-initialised (rule R20); for the stack
arrays the spec gives no content (U3): DESIGN CHOICE, zero too (log 4). -/
def Memory.unlisted : Byte := 0

/-- The byte at an address. -/
def Memory.get : Memory → Nat → Byte
  | [], _ => Memory.unlisted
  | (k, x) :: m, a => if k = a then x else Memory.get m a

/-- Writing one byte; the canonical form is kept. -/
def Memory.set : Memory → Nat → Byte → Memory
  | [], a, v => if v = Memory.unlisted then [] else [(a, v)]
  | (k, x) :: m, a, v =>
    if a < k then (if v = Memory.unlisted then (k, x) :: m else (a, v) :: (k, x) :: m)
    else if a = k then (if v = Memory.unlisted then m else (a, v) :: m)
    else (k, x) :: Memory.set m a v

/-- The canonical form: addresses strictly rising, no entry equal to what an unlisted address reads as. -/
def Memory.wf : Memory → Bool
  | [] => true
  | [(_, x)] => x != Memory.unlisted
  | (k, x) :: (l, y) :: m => decide (k < l) && x != Memory.unlisted && Memory.wf ((l, y) :: m)

/-! ### Access to the block -/

def Block.setPc (b : Block w) (v : Word w) : Block w := { b with pc := v }
def Block.setDp (b : Block w) (v : Word w) : Block w := { b with dp := v }
def Block.setSp (b : Block w) (v : Word w) : Block w := { b with sp := v }
def Block.setHandlerSp (b : Block w) (v : Word w) : Block w := { b with handlerSp := v }
def Block.setMem (b : Block w) (m : Memory) : Block w := { b with mem := m }
def Block.setSst (b : Block w) (r : SstRegs w) : Block w := { b with sst := r }
def Block.setDbg (b : Block w) (r : DbgRegs) : Block w := { b with dbg := r }
def Block.setAct (b : Block w) (a : Activity w) : Block w := { b with act := a }
def Block.setIo (b : Block w) (p : Ports w) : Block w := { b with io := p }

/-- HOST returns a result (rule R80). -/
def Block.answer (b : Block w) (r : HostResult w) : Block w :=
  b.setIo { b.io with results := b.io.results ++ [r] }

/-- The number of bytes of an access (rule R40). -/
def widthBytes (w : WordSize) : Width → Nat
  | .b1 => 1
  | .b2 => 2
  | .b4 => 4
  | .word => w.bytes

/-- The `i`-th byte address of an access at `a`: `a + i` modulo 2^XLEN (rule R40). -/
def byteAddr (a : Word w) (i : Nat) : Nat := (a + BitVec.ofNat w.xlen i).toNat

/-- The byte address is in `MEM_VALID` (rule R6). -/
def backed (rs : List AddrRange) (a : Nat) : Bool :=
  rs.any fun r => decide (r.base ≤ a) && decide (a < r.base + r.size)

/-- Every byte of the `n`-byte access at `a` is in `MEM_VALID` (rule R47). -/
def Block.valid (b : Block w) (a : Word w) (n : Nat) : Bool :=
  (List.range n).all fun i => backed b.cfg.memValid (byteAddr a i)

/-- The `n` bytes at `a`, `a + 1`, … -/
def Block.bytesAt (b : Block w) (a : Word w) (n : Nat) : List Byte :=
  (List.range n).map fun i => b.mem.get (byteAddr a i)

/-- Memory with the bytes `bs` at `a + i`, `a + i + 1`, … -/
def putBytes (a : Word w) : Nat → List Byte → Memory → Memory
  | _, [], m => m
  | i, x :: bs, m => putBytes a (i + 1) bs (m.set (byteAddr a i) x)

/-- The bytes `bs` written at `a`, `a + 1`, … -/
def Block.putAt (b : Block w) (a : Word w) (bs : List Byte) : Block w :=
  b.setMem (putBytes a 0 bs b.mem)

/-- The unsigned number that the `n` bytes at `a` hold (rule R42). -/
def Block.peek (b : Block w) (a : Word w) (n : Nat) : Nat := assemble b.cfg.byteOrder (b.bytesAt a n)

/-- The low `8 * n` bits of `v` stored in the `n` bytes at `a` (rule R42). -/
def Block.poke (b : Block w) (a : Word w) (n v : Nat) : Block w :=
  b.putAt a (scatter b.cfg.byteOrder n v)

/-- The word at `a`. -/
def Block.word (b : Block w) (a : Word w) : Word w := BitVec.ofNat w.xlen (b.peek a w.bytes)

/-- The word `v` stored at `a`. -/
def Block.storeWord (b : Block w) (a v : Word w) : Block w := b.poke a w.bytes v.toNat

/-- The address of `D[i]`: `d0 + i * W` (rule R13). -/
def Block.dSlot (b : Block w) (i : Word w) : Word w := b.d0 + i * w.step

/-- The address of `S[i]`: `s0 + i * W` (rule R13). -/
def Block.sSlot (b : Block w) (i : Word w) : Word w := b.s0 + i * w.step

/-! ### Operations that may raise -/

/-- How an operation ends before its end: with a raised code (rule R9), with the run loop stopped (R82), or without a
meaning. -/
inductive Exit (w : WordSize) where
  | raise (c : Word w)
  | stop (c : Word w)
  | refuse (r : Refusal)
  | stuck (f : Fault)
deriving DecidableEq, Repr

/-- An operation on the block. What it changed before it ends early stays changed (rule R236). -/
abbrev Op (w : WordSize) (α : Type) := EStateM (Exit w) (Block w) α

/-- The error codes, rule R230. -/
inductive ErrCode where
  | ok
  | invalidOpcode
  | stackUnderflow
  | stackOverflow
  | unalignedAddress
  | invalidLibrary
  | invalidFunction
  | break_
deriving DecidableEq, Repr

/-- The signed values of rule R230. -/
def ErrCode.value : ErrCode → Int
  | .ok => 0
  | .invalidOpcode => -1
  | .stackUnderflow => -2
  | .stackOverflow => -3
  | .unalignedAddress => -4
  | .invalidLibrary => -16
  | .invalidFunction => -17
  | .break_ => -256

/-- A code as a word (rule R230). -/
def ErrCode.word (w : WordSize) (e : ErrCode) : Word w := BitVec.ofInt w.xlen e.value

/-- `raise E` (rule R9). -/
def raise {α : Type} (e : ErrCode) : Op w α := fun b => .error (.raise (e.word w)) b

/-- `Raise(c)` of a word that a program threw (rule R135). -/
def throwCode (c : Word w) : Op w Unit := fun b => .error (.raise c) b

/-- `stop(c)` (rule R82). -/
def stopLoop (c : Word w) : Op w Unit := fun b => .error (.stop c) b

/-- Change the block. -/
def update (f : Block w → Block w) : Op w Unit := fun b => .ok () (f b)

/-- `MemRead(addr, n)` (rule R40); refused when a byte is outside `MEM_VALID` (R47). -/
def memRead (a : Word w) (n : Nat) : Op w Nat := fun b =>
  if b.valid a n then .ok (b.peek a n) b else .error (.refuse (.outsideMemValid a.toNat)) b

/-- `MemWrite(addr, n, v)` (rule R40); refused when a byte is outside `MEM_VALID` (R47). -/
def memWrite (a : Word w) (n v : Nat) : Op w Unit := fun b =>
  if b.valid a n then .ok () (b.poke a n v) else .error (.refuse (.outsideMemValid a.toNat)) b

/-- A word read: `MemRead(addr, W)`. -/
def readWord (a : Word w) : Op w (Word w) := fun b =>
  if b.valid a w.bytes then .ok (b.word a) b else .error (.refuse (.outsideMemValid a.toNat)) b

/-- A word write: `MemWrite(addr, W, v)`. -/
def writeWord (a v : Word w) : Op w Unit := fun b =>
  if b.valid a w.bytes then .ok () (b.storeWord a v) else .error (.refuse (.outsideMemValid a.toNat)) b

/-- `CheckAligned(a, n)` (rule R44). -/
def checkAligned (a : Word w) (n : Nat) : Op w Unit := fun b =>
  if aligned a n then .ok () b else .error (.raise (ErrCode.unalignedAddress.word w)) b

/-! ### The stack controller (rules R30 to R36) -/

/-- `PushD(v)`, rule R30. -/
def pushD (v : Word w) : Op w Unit := fun b =>
  if b.dsize.toNat ≤ b.dp.toNat then .error (.raise (ErrCode.stackOverflow.word w)) b
  else
    match writeWord (b.dSlot b.dp) v b with
    | .ok _ b' => .ok () (b'.setDp (b.dp + 1))
    | .error e b' => .error e b'

/-- `PopD()`, rule R31. -/
def popD : Op w (Word w) := fun b =>
  if b.dp.toNat = 0 then .error (.raise (ErrCode.stackUnderflow.word w)) b
  else if b.dsize.toNat < b.dp.toNat then .error (.raise (ErrCode.stackOverflow.word w)) b
  else readWord (b.dSlot (b.dp - 1)) (b.setDp (b.dp - 1))

/-- `PushS(v)`, rule R32. -/
def pushS (v : Word w) : Op w Unit := fun b =>
  if b.ssize.toNat ≤ b.sp.toNat then .error (.raise (ErrCode.stackOverflow.word w)) b
  else
    match writeWord (b.sSlot b.sp) v b with
    | .ok _ b' => .ok () (b'.setSp (b.sp + 1))
    | .error e b' => .error e b'

/-- `PopS()`, rule R33. -/
def popS : Op w (Word w) := fun b =>
  if b.sp.toNat = 0 then .error (.raise (ErrCode.stackUnderflow.word w)) b
  else if b.ssize.toNat < b.sp.toNat then .error (.raise (ErrCode.stackOverflow.word w)) b
  else readWord (b.sSlot (b.sp - 1)) (b.setSp (b.sp - 1))

/-- `D[i]` read without a pop (rule R36). -/
def readD (i : Word w) : Op w (Word w) := fun b => readWord (b.dSlot i) b

/-- `D[i] <- v` without a push (rule R36). -/
def writeD (i v : Word w) : Op w Unit := fun b => writeWord (b.dSlot i) v b

/-- `S[i]` read without a pop (rule R36). -/
def readS (i : Word w) : Op w (Word w) := fun b => readWord (b.sSlot i) b

/-- `S[i] <- v` without a push (rule R176). -/
def writeS (i v : Word w) : Op w Unit := fun b => writeWord (b.sSlot i) v b

/-! ### Fetch (rule R81) -/

/-- `Fetch()`: the word at `pc`, with `pc` advanced past it; a misaligned `pc` raises before it moves. -/
def fetch : Op w (Word w) := do
  let pc := (← get).pc
  checkAligned pc w.bytes
  let ir ← readWord pc
  update fun b => b.setPc (pc + w.step)
  return ir

/-! ### Raising and unwinding (rules R232 to R236) -/

/-- How one iteration of the run loop ends (rule R82). -/
inductive Verdict (w : WordSize) where
  | continue_
  | stop (c : Word w)
deriving DecidableEq, Repr

/-- The result of a piece of the run loop: a verdict and the block, or no meaning. -/
abbrev LoopOut (w : WordSize) := Host.Outcome (Verdict w × Block w) Fault Refusal

/-- Step 1 of `Unwind(c)`, rule R233: the code put on the data stack, or dropped when there is no room. -/
def deliver (c : Word w) : Op w Unit := fun b =>
  if b.dp.toNat < b.dsize.toNat then
    match writeD b.dp c b with
    | .ok _ b' => .ok () (b'.setDp (b.dp + 1))
    | .error e b' => .error e b'
  else .ok () b

/-- Steps 1 to 6 of `Unwind(c)`, rule R233. -/
def unwindSteps (c : Word w) : Op w Unit := do
  deliver c
  update fun b => b.setSp b.handlerSp
  let a ← popS
  let h ← popS
  update fun b => (b.setPc a).setHandlerSp h

/-- `Unwind(c)`: taking an exception with a handler active (rule R233). A pop of its own that fails stops the loop with that
pop's code (R234). -/
def unwind (c : Word w) (b : Block w) : LoopOut w :=
  match unwindSteps c b with
  | .ok _ b' => .next (.continue_, b')
  | .error (.raise e) b' => .next (.stop e, b')
  | .error (.stop e) b' => .next (.stop e, b')
  | .error (.refuse r) _ => .refused r
  | .error (.stuck f) _ => .fault f

/-- `Raise(c)`: taking an exception (rule R232). -/
def raiseCode (c : Word w) (b : Block w) : LoopOut w :=
  if b.handlerSp = 0 then .next (.stop c, b) else unwind c b

/-- The tail of `RET`: the return that leaves a protected region (rule R133), also replayed by SST (R178). -/
def leaveRegion : Op w Unit := do
  let h ← popS
  update fun b => b.setHandlerSp h
  pushD 0

/-- `ExecOne`'s `on raise` clause: what an operation's end means to the run loop (rule R84). -/
def settle {α : Type} (r : EStateM.Result (Exit w) (Block w) α) : LoopOut w :=
  match r with
  | .ok _ b => .next (.continue_, b)
  | .error (.raise c) b => raiseCode c b
  | .error (.stop c) b => .next (.stop c, b)
  | .error (.refuse r) _ => .refused r
  | .error (.stuck f) _ => .fault f

/-- The run loop has stopped with code `c` (rules R82, R88): control goes back to whoever started it (log 11). SST takes the
code in its phase `DISARM` (R175), the stub reports it (R211), the embedder gets it as the result of `RUN` or of a direct
`STEP` (R85, R183). -/
def Block.stopRun (b : Block w) (c : Word w) : Block w :=
  match b.act with
  | .run .sst => b.setAct (.sst (.disarm c))
  | .run .debug => b.setAct (.dbg (.stopped c))
  | _ => (b.setAct .idle).answer (.word c)

/-- The state after a piece of the run loop. -/
def LoopOut.toOut (r : LoopOut w) : Out :=
  match r with
  | .next (.continue_, b) => .next ⟨w, b⟩
  | .next (.stop c, b) => .next ⟨w, b.stopRun c⟩
  | .fault f => .fault f
  | .refused r => .refused r

/-- An instruction's pseudocode run on a state (rule R84): its effect, and whatever its faults cause. -/
def perform (s : State) (op : Op s.w Unit) : Out := (settle (op s.blk)).toOut

/-- One phase of SST, of the stub or of HOST run on a state. Such a phase raises nothing. -/
def phase (s : State) (op : Op s.w Unit) : Out :=
  match op s.blk with
  | .ok _ b => .next ⟨s.w, b⟩
  | .error (.raise _) b => .next ⟨s.w, b⟩
  | .error (.stop _) b => .next ⟨s.w, b⟩
  | .error (.refuse r) _ => .refused r
  | .error (.stuck f) _ => .fault f

end Sys2Proof.Machine
end

