-- ==== Sys2Proof/Machine/DebugStub.lean ====
section
/-! DEFINITION. The debug stub DBG, rules R190 to R219: the receiver takes one byte a step, the sender emits one frame a
step, a command is executed in one step (log 13). -/

namespace Sys2Proof.Machine

variable {w : WordSize}

/-! ### Bytes, digits, frames -/

/-- An ASCII character as a byte. -/
def ascii (c : Char) : Byte := BitVec.ofNat 8 c.toNat

/-- `HexDigit(n)`, rule R197: lower case. -/
def hexDigit (n : Nat) : Byte := if n < 10 then BitVec.ofNat 8 (0x30 + n) else BitVec.ofNat 8 (0x57 + n)

/-- `HexVal(b)`, rule R197: either case; none where the rule says *invalid*. -/
def hexVal (b : Byte) : Option Nat :=
  if 0x30 ≤ b.toNat ∧ b.toNat ≤ 0x39 then some (b.toNat - 0x30)
  else if 0x61 ≤ b.toNat ∧ b.toNat ≤ 0x66 then some (b.toNat - 0x57)
  else if 0x41 ≤ b.toNat ∧ b.toNat ≤ 0x46 then some (b.toNat - 0x37)
  else none

/-- `Hex2(n)`, rule R197. -/
def hex2 (n : Nat) : List Byte := [hexDigit (n / 16 % 16), hexDigit (n % 16)]

/-- Bytes as hex text, two digits each. -/
def hexText (bs : List Byte) : List Byte := bs.flatMap fun b => hex2 b.toNat

/-- Hex text as bytes: none when a digit is invalid or the length is odd. -/
def unhex : List Byte → Option (List Byte)
  | [] => some []
  | [_] => none
  | h :: l :: t =>
    match hexVal h, hexVal l, unhex t with
    | some x, some y, some bs => some (BitVec.ofNat 8 (16 * x + y) :: bs)
    | _, _, _ => none

/-- The sum of the payload bytes modulo 256 (rule R192). -/
def checksum (p : List Byte) : Byte := p.foldl (· + ·) 0

/-- `$<payload>#<cc>` (rules R191, R196), with `cc` the checksum `sum`. -/
def frame (p : List Byte) (sum : Byte) : List Byte := [ascii '$'] ++ p ++ [ascii '#'] ++ hex2 sum.toNat

/-- The digits read by `ParseNum`, folded onto the value so far, and what follows them. -/
def parseDigits (acc : Nat) : List Byte → Nat × List Byte
  | [] => (acc, [])
  | b :: t =>
    match hexVal b with
    | some d => parseDigits (16 * acc + d) t
    | none => (acc, b :: t)

/-- `ParseNum`, rule R198: the longest run of digits as a number modulo 2^XLEN, and the text after it; none when the run is
empty. -/
def parseNum (w : WordSize) (t : List Byte) : Option (Word w × List Byte) :=
  match t with
  | [] => none
  | b :: _ =>
    if (hexVal b).isSome then some (BitVec.ofNat w.xlen (parseDigits 0 t).1, (parseDigits 0 t).2) else none

/-- A literal byte that a command's text must have next. -/
def expectByte (c : Byte) (t : List Byte) : Option (List Byte) :=
  match t with
  | [] => none
  | b :: r => if b = c then some r else none

/-! ### Registers as text (rule R206) -/

/-- The registers in the order of the block. -/
def regOrder : List Reg := [.pc, .d0, .dsize, .dp, .s0, .ssize, .sp, .handlerSp]

/-- A register, by name. -/
def Block.reg (b : Block w) : Reg → Word w
  | .pc => b.pc
  | .d0 => b.d0
  | .dsize => b.dsize
  | .dp => b.dp
  | .s0 => b.s0
  | .ssize => b.ssize
  | .sp => b.sp
  | .handlerSp => b.handlerSp

/-- Writing a register, unchecked (rules R34, R80, R207). -/
def Block.setReg (b : Block w) (r : Reg) (v : Word w) : Block w :=
  match r with
  | .pc => { b with pc := v }
  | .d0 => { b with d0 := v }
  | .dsize => { b with dsize := v }
  | .dp => { b with dp := v }
  | .s0 => { b with s0 := v }
  | .ssize => { b with ssize := v }
  | .sp => { b with sp := v }
  | .handlerSp => { b with handlerSp := v }

/-- `RegBlock()`: each register's `W` bytes in memory order, as hex text. -/
def Block.regBlock (b : Block w) : List Byte :=
  regOrder.flatMap fun r => hexText (scatter b.cfg.byteOrder w.bytes (b.reg r).toNat)

/-- The registers `rs` written from the bytes `bs`, `W` bytes each in memory order. -/
def Block.setRegs (b : Block w) : List Reg → List Byte → Block w
  | [], _ => b
  | r :: rs, bs =>
    (b.setReg r (BitVec.ofNat w.xlen (assemble b.cfg.byteOrder (bs.take w.bytes)))).setRegs rs (bs.drop w.bytes)

/-! ### The stub's own transitions -/

/-- `DbgPut` of some bytes (rule R190). -/
def Block.emit (b : Block w) (bs : List Byte) : Block w :=
  b.setIo { b.io with txBytes := b.io.txBytes ++ bs }

/-- `RecvPacket()` from its start (rule R193). -/
def Block.listen (b : Block w) : Block w :=
  (b.setDbg { b.dbg with buf := [], sum := 0, rx := .idle }).setAct (.dbg .recv)

/-- `SendPacket(payload)` from its start (rule R196). -/
def Block.reply (b : Block w) (p : List Byte) : Block w :=
  (b.setDbg { b.dbg with buf := p, sum := checksum p }).setAct (.dbg .send)

/-- `DEBUG` returns (rule R217). -/
def Block.leave (b : Block w) (r : HostResult w) : Block w := (b.setAct .idle).answer r

/-- One byte through the receiver (rules R193 to R195). -/
def receive (x : Byte) (b : Block w) : Block w :=
  match b.dbg.rx with
  | .idle =>
    if x = ascii '$' then b.setDbg { b.dbg with buf := [], sum := 0, rx := .data } else b
  | .data =>
    if x = ascii '$' then b.setDbg { b.dbg with buf := [], sum := 0 }
    else if x = ascii '#' then b.setDbg { b.dbg with rx := .ck1 }
    else if b.dbg.len = b.cfg.bufMax then b.setDbg { b.dbg with rx := .idle }
    else b.setDbg { b.dbg with buf := b.dbg.buf ++ [x], sum := b.dbg.sum + x }
  | .ck1 => b.setDbg { b.dbg with rx := .ck2 (hexVal x) }
  | .ck2 hi =>
    match hi, hexVal x with
    | some h, some l =>
      if 16 * h + l = b.dbg.sum.toNat then (b.emit [ascii '+']).setAct (.dbg .dispatch)
      else (b.setDbg { b.dbg with rx := .idle }).emit [ascii '-']
    | _, _ => (b.setDbg { b.dbg with rx := .idle }).emit [ascii '-']

/-- `DbgGet()` (rule R190): the next input byte, and the block without it; none while there is no byte to get. -/
def Block.getByte (b : Block w) : Option (Byte × Block w) :=
  match b.io.rxBytes with
  | [] => none
  | x :: xs => some (x, b.setIo { b.io with rxBytes := xs })

/-- `Signal(code)`, rule R214. -/
def signalOf (cfg : Config w) (code : Word w) : Byte := (cfg.sigMap.lookup code.toInt).getD cfg.sigDefault

def msgOk : List Byte := [ascii 'O', ascii 'K']
def msgE01 : List Byte := [ascii 'E', ascii '0', ascii '1']
def msgE02 : List Byte := [ascii 'E', ascii '0', ascii '2']

/-- `S<nn>` (rules R201, R215). -/
def msgStop (sig : Byte) : List Byte := ascii 'S' :: hex2 sig.toNat

/-! ### Commands (rules R200 to R213) -/

/-- `G`, rule R207. -/
def cmdWriteRegs (args : List Byte) : Op w Unit :=
  match unhex args with
  | some bs =>
    if args.length = 16 * w.bytes then update fun b => (b.setRegs regOrder bs).reply msgOk
    else update fun b => b.reply msgE01
  | none => update fun b => b.reply msgE01

/-- `<addr>,<len>` at the start of a text, and what follows (rules R208, R209). -/
def parseSpan (w : WordSize) (t : List Byte) : Option (Word w × Word w × List Byte) :=
  match parseNum w t with
  | none => none
  | some (addr, t1) =>
    match expectByte (ascii ',') t1 with
    | none => none
    | some t2 =>
      match parseNum w t2 with
      | none => none
      | some (len, t3) => some (addr, len, t3)

/-- `len` bytes read one at a time from `addr` up (rule R208). -/
def readBytes (addr : Word w) : Nat → Nat → Op w (List Byte)
  | 0, _ => pure []
  | n + 1, k => do
    let v ← memRead (addr + BitVec.ofNat w.xlen k) 1
    let rest ← readBytes addr n (k + 1)
    return BitVec.ofNat 8 v :: rest

/-- Bytes written one at a time from `addr + k` up (rule R209). -/
def writeBytes (addr : Word w) : List Byte → Nat → Op w Unit
  | [], _ => pure ()
  | x :: xs, k => do
    memWrite (addr + BitVec.ofNat w.xlen k) 1 x.toNat
    writeBytes addr xs (k + 1)

/-- `m`, rule R208. -/
def cmdReadMem (args : List Byte) : Op w Unit := do
  let b ← get
  match parseSpan w args with
  | some (addr, len, []) =>
    if b.cfg.bufMax < 2 * len.toNat then update fun b' => b'.reply msgE01
    else
      let bs ← readBytes addr len.toNat 0
      update fun b' => b'.reply (hexText bs)
  | _ => update fun b' => b'.reply msgE01

/-- `M`, rule R209: validated whole before the first byte is written. -/
def cmdWriteMem (args : List Byte) : Op w Unit :=
  match parseSpan w args with
  | none => update fun b => b.reply msgE02
  | some (addr, len, t) =>
    match expectByte (ascii ':') t with
    | none => update fun b => b.reply msgE02
    | some text =>
      match unhex text with
      | none => update fun b => b.reply msgE02
      | some bs =>
        if text.length = 2 * len.toNat then do
          writeBytes addr bs 0
          update fun b => b.reply msgOk
        else update fun b => b.reply msgE02

/-- `c`, rule R211, up to the start of the run. -/
def cmdContinue (args : List Byte) : Op w Unit :=
  match args with
  | [] => update fun b => b.setAct (.run .debug)
  | _ =>
    match parseNum w args with
    | some (addr, []) => update fun b => (b.setPc addr).setAct (.run .debug)
    | _ => update fun b => b.reply msgE01

/-- Dispatch on the command letter (rules R200, R213). -/
def command (payload : List Byte) : Op w Unit :=
  match payload with
  | [] => update fun b => b.reply []
  | c :: args =>
    if c = ascii '?' then update fun b => b.reply (msgStop b.dbg.lastSignal)
    else if c = ascii 'd' then
      update fun b => (b.setDbg { b.dbg with verbose := !b.dbg.verbose }).reply []
    else if c = ascii 'g' then update fun b => b.reply b.regBlock
    else if c = ascii 'G' then cmdWriteRegs args
    else if c = ascii 'm' then cmdReadMem args
    else if c = ascii 'M' then cmdWriteMem args
    else if c = ascii 'c' then cmdContinue args
    else if c = ascii 'k' then update fun b => b.leave .killed
    else update fun b => b.reply []

/-- One input byte received, if one is there (rule R193). With no byte the stub waits (R219, log 8). -/
def dbgRecv (b : Block w) : Block w :=
  match b.getByte with
  | some (x, b') => receive x b'
  | none => b

/-- One transmission of the frame (rule R196). -/
def dbgSend (b : Block w) : Block w :=
  (b.emit (frame b.dbg.buf b.dbg.sum)).setAct (.dbg .ack)

/-- The acknowledgement wait (rule R196): any byte but `+` causes one more transmission. -/
def dbgAck (b : Block w) : Block w :=
  match b.getByte with
  | some (x, b') => if x = ascii '+' then b'.listen else b'.setAct (.dbg .send)
  | none => b

/-- The run that `c` started has stopped (rules R211, R215). -/
def dbgStopped (code : Word w) (b : Block w) : Block w :=
  if code = 0 then b.leave .halted
  else
    (b.setDbg { b.dbg with lastSignal := signalOf b.cfg code }).reply (msgStop (signalOf b.cfg code))

/-- One step of the stub's event loop (rule R216). -/
def dbgStep (p : DbgPhase w) (b : Block w) : Out :=
  match p with
  | .recv => .next ⟨w, dbgRecv b⟩
  | .dispatch => phase ⟨w, b⟩ (command b.dbg.buf)
  | .send => .next ⟨w, dbgSend b⟩
  | .ack => .next ⟨w, dbgAck b⟩
  | .stopped code => .next ⟨w, dbgStopped code b⟩

end Sys2Proof.Machine
end

