-- ==== Sys2Proof/Machine/HostPort.lean ====
section
/-! DEFINITION. The HOST interface, rules R80, R260, R263 to R265: the embedder's operations, taken one at a time while the
block is idle (log 7). -/

namespace Sys2Proof.Machine

variable {w : WordSize}

/-- `INIT`, rules R20 and R260: every register and hidden register; no access to memory. The two saved words of SST, which
the rule leaves unspecified, take the values of `State.reset` (log 5). -/
def Block.init (b : Block w) (p : InitParams w) : Block w :=
  { b with
    pc := p.pc
    d0 := p.d0
    dsize := p.dsize
    dp := 0
    s0 := p.s0
    ssize := p.ssize
    sp := 0
    handlerSp := 0
    sst := { target := none, savedWord := 0, savedH := 0, isRet := false }
    dbg := { verbose := false, lastSignal := b.cfg.sigInit, buf := [], sum := 0, rx := .idle } }

/-- What follows the first line feed, if there is one. -/
def afterLineFeed : List Byte → Option (List Byte)
  | [] => none
  | x :: xs => if x = 0x0A then some xs else afterLineFeed xs

/-- The dump inside an object: a first line that begins with `#!` is skipped (rule R263). None for the two cases the rule
does not cover (log 15). -/
def dumpOf (w : WordSize) (object : List Byte) : Option (List Byte) :=
  let dump :=
    match object with
    | x :: y :: _ => if x = ascii '#' ∧ y = ascii '!' then afterLineFeed object else some object
    | _ => some object
  match dump with
  | some bs => if bs.length % w.bytes = 0 then some bs else none
  | none => none

/-- The object load (rule R263): the dump's bytes at `base`, `base + 1`, … -/
def loadObject (base : Word w) (object : List Byte) : Op w Unit :=
  match dumpOf w object with
  | some bs => writeBytes base bs 0
  | none => fun b => .error (.refuse .loadFormat) b

/-- One operation of the embedder (rule R80). -/
def hostCmd (c : HostCmd w) : Op w Unit :=
  match c with
  | .init p => update fun b => b.init p
  | .run => update fun b => b.setAct (.run .host)
  | .step => update fun b =>
    match b.cfg.sstMode with
    | .patch => b.setAct (.sst .predict)
    | .direct => b.setAct (.run .direct)
  | .debug => update fun b => b.listen
  | .regRead r => update fun b => b.answer (.word (b.reg r))
  | .regWrite r v => update fun b => b.setReg r v
  | .memRead a => do
    let v ← memRead a 1
    update fun b => b.answer (.byte (BitVec.ofNat 8 v))
  | .memWrite a v => memWrite a 1 v.toNat
  | .load base object => loadObject base object

/-- One step while no operation is in progress: the next operation is issued; with none pending the block waits (log 7). -/
def hostStep (b : Block w) : Out :=
  match b.io.cmds with
  | [] => .next ⟨w, b⟩
  | c :: cs => phase ⟨w, b.setIo { b.io with cmds := cs }⟩ (hostCmd c)

end Sys2Proof.Machine
end

