-- ==== Sys2Proof/Machine/ArithLogic.lean ====
section
/-! DEFINITION. The arithmetic, bitwise, shift and comparison instructions, rules R100 to R117. The first pop yields the
operand on top (`a`), the second the one beneath it (`b`); the result is `b OP a` (R117). -/

namespace Sys2Proof.Machine

variable {w : WordSize}

/-- The shape of a one-operand instruction: pop, compute, push. -/
def unary (f : Word w → Word w) : Op w Unit := do
  let a ← popD
  pushD (f a)

/-- The shape of a two-operand instruction (rule R117): `f` takes the operand beneath, then the one on top. -/
def binary (f : Word w → Word w → Word w) : Op w Unit := do
  let a ← popD
  let b ← popD
  pushD (f b a)

/-- The shape of a division: quotient pushed first, remainder second (rule R111). -/
def division (f : Word w → Word w → Word w × Word w) : Op w Unit := do
  let d ← popD
  let n ← popD
  pushD (f n d).1
  pushD (f n d).2

/-- `NOP`, rule R100. -/
def execNop (s : State) : Out := perform s (pure ())

/-- `NOT`, rule R101. -/
def execNot (s : State) : Out := perform s (unary fun a => ~~~a)

/-- `AND`, rule R102. -/
def execAnd (s : State) : Out := perform s (binary fun b a => b &&& a)

/-- `OR`, rule R103. -/
def execOr (s : State) : Out := perform s (binary fun b a => b ||| a)

/-- `XOR`, rule R104. -/
def execXor (s : State) : Out := perform s (binary fun b a => b ^^^ a)

/-- `LSHIFT`, rule R105: the amount is on top. -/
def execLshift (s : State) : Out := perform s (binary shiftLeft)

/-- `RSHIFT`, rule R106. -/
def execRshift (s : State) : Out := perform s (binary shiftRight)

/-- `ARSHIFT`, rule R107. -/
def execArshift (s : State) : Out := perform s (binary (shiftArith s.blk.cfg.overshift))

/-- `NEGATE`, rule R108. -/
def execNegate (s : State) : Out := perform s (unary fun a => 0 - a)

/-- `ADD`, rule R109. -/
def execAdd (s : State) : Out := perform s (binary fun b a => b + a)

/-- `MUL`, rule R110. -/
def execMul (s : State) : Out := perform s (binary fun b a => b * a)

/-- `DIVMOD`, rule R111. -/
def execDivmod (s : State) : Out := perform s (division divS)

/-- `UDIVMOD`, rule R112. -/
def execUdivmod (s : State) : Out := perform s (division divU)

/-- `EQ`, rule R113. -/
def execEq (s : State) : Out := perform s (binary isEq)

/-- `LT`, rule R114. -/
def execLt (s : State) : Out := perform s (binary isLt)

/-- `ULT`, rule R115. -/
def execUlt (s : State) : Out := perform s (binary isUlt)

end Sys2Proof.Machine
end

