-- ==== Sys2Proof/Machine/Control.lean ====
section
/-! DEFINITION. The control transfer instructions, rules R130 to R136. `pc` holds the address of the following word; a target
is checked for alignment to `W` (R43). -/

namespace Sys2Proof.Machine

variable {w : WordSize}

/-- `THROW`'s pop: a failed pop yields its own code (rule R135). -/
def popCode : Op w (Word w) := fun b =>
  match popD b with
  | .error (.raise e) b' => .ok e b'
  | r => r

/-- `JUMP`, rule R130. -/
def execJump (s : State) : Out := perform s do
  let a ← popD
  checkAligned a s.w.bytes
  update fun b => b.setPc a

/-- `JUMPZ`, rule R131: the alignment is checked only when the branch is taken. -/
def execJumpz (s : State) : Out := perform s do
  let a ← popD
  let f ← popD
  if f = 0 then
    checkAligned a s.w.bytes
    update fun b => b.setPc a

/-- `CALL`, rule R132. -/
def execCall (s : State) : Out := perform s do
  let a ← popD
  checkAligned a s.w.bytes
  let pc := (← get).pc
  pushS pc
  update fun b => b.setPc a

/-- `RET`, rule R133. -/
def execRet (s : State) : Out := perform s do
  let a ← popS
  checkAligned a s.w.bytes
  update fun b => b.setPc a
  let b ← get
  if b.sp.toNat < b.handlerSp.toNat then leaveRegion

/-- `CATCH`, rule R134: room for both words of the frame, or neither is pushed. -/
def execCatch (s : State) : Out := perform s do
  let a ← popD
  checkAligned a s.w.bytes
  let b ← get
  if b.ssize.toNat < b.sp.toNat ∨ b.ssize.toNat - b.sp.toNat < 2 then raise .stackOverflow
  else
    pushS b.handlerSp
    pushS b.pc
    update fun b' => (b'.setHandlerSp b'.sp).setPc a

/-- `THROW`, rule R135. -/
def execThrow (s : State) : Out := perform s do
  let c ← popCode
  throwCode c

/-- `BREAK`, rule R136: it never goes through `Raise`. -/
def execBreak (s : State) : Out := perform s do
  update fun b => b.setPc (b.pc - s.w.step)
  stopLoop (ErrCode.break_.word s.w)

end Sys2Proof.Machine
end

