-- ==== Sys2Proof/Machine/Immediate.lean ====
section
/-! DEFINITION. The immediate-class instructions, rules R90 to R94. `pc` holds the address of the following word. -/

namespace Sys2Proof.Machine

/-- `CALLI n`, rule R90. -/
def execCalli (n : Int) (s : State) : Out := perform s do
  let pc := (← get).pc
  pushS pc
  update fun b => b.setPc (relTarget pc n)

/-- `PUSHI n`, rule R91. -/
def execPushi (n : Int) (s : State) : Out := perform s do
  pushD (literal s.w n)

/-- `PUSHRELI n`, rule R92. -/
def execPushreli (n : Int) (s : State) : Out := perform s do
  let pc := (← get).pc
  pushD (relTarget pc n)

/-- `JUMPI n`, rule R93. -/
def execJumpi (n : Int) (s : State) : Out := perform s do
  let pc := (← get).pc
  update fun b => b.setPc (relTarget pc n)

/-- `JUMPZI n`, rule R94. -/
def execJumpzi (n : Int) (s : State) : Out := perform s do
  let flag ← popD
  let pc := (← get).pc
  update fun b => if flag = 0 then b.setPc (relTarget pc n) else b

end Sys2Proof.Machine
end

