-- ==== Sys2Proof/Machine/MemoryAccess.lean ====
section
/-! DEFINITION. The memory access instructions, rules R140 to R147. The address is on top and popped first, a store's value is
beneath it; the alignment is checked after the pops and before memory is touched; narrow loads zero-extend and narrow stores
write the low bits. -/

namespace Sys2Proof.Machine

variable {w : WordSize}

/-- The shape of a load of `n` bytes. -/
def loadN (n : Nat) : Op w Unit := do
  let a ← popD
  checkAligned a n
  let v ← memRead a n
  pushD (BitVec.ofNat w.xlen v)

/-- The shape of a store of `n` bytes. -/
def storeN (n : Nat) : Op w Unit := do
  let a ← popD
  let v ← popD
  checkAligned a n
  memWrite a n v.toNat

/-- `LOAD`, rule R140. -/
def execLoad (s : State) : Out := perform s (loadN s.w.bytes)

/-- `STORE`, rule R141. -/
def execStore (s : State) : Out := perform s (storeN s.w.bytes)

/-- `LOAD1`, rule R142: every address is a multiple of 1. -/
def execLoad1 (s : State) : Out := perform s (loadN 1)

/-- `STORE1`, rule R143. -/
def execStore1 (s : State) : Out := perform s (storeN 1)

/-- `LOAD2`, rule R144. -/
def execLoad2 (s : State) : Out := perform s (loadN 2)

/-- `STORE2`, rule R145. -/
def execStore2 (s : State) : Out := perform s (storeN 2)

/-- `LOAD4`, rule R146. -/
def execLoad4 (s : State) : Out := perform s (loadN 4)

/-- `STORE4`, rule R147. -/
def execStore4 (s : State) : Out := perform s (storeN 4)

end Sys2Proof.Machine
end

