-- ==== Sys2Proof/Machine/Registers.lean ====
section
/-! DEFINITION. The register introspection instructions, rules R150 to R157. The setters make no test of the value they
write (R34). -/

namespace Sys2Proof.Machine

/-- `WORD_BYTES`, rule R150. -/
def execWordBytes (s : State) : Out := perform s do
  pushD s.w.step

/-- `GET_SSIZE`, rule R151. -/
def execGetSsize (s : State) : Out := perform s do
  pushD (← get).ssize

/-- `GET_SP`, rule R152. -/
def execGetSp (s : State) : Out := perform s do
  pushD (← get).sp

/-- `SET_SP`, rule R153. -/
def execSetSp (s : State) : Out := perform s do
  let v ← popD
  update fun b => b.setSp v

/-- `GET_DSIZE`, rule R154. -/
def execGetDsize (s : State) : Out := perform s do
  pushD (← get).dsize

/-- `GET_DP`, rule R155: the depth before this push. -/
def execGetDp (s : State) : Out := perform s do
  pushD (← get).dp

/-- `SET_DP`, rule R156: the written depth replaces the one the pop left. -/
def execSetDp (s : State) : Out := perform s do
  let v ← popD
  update fun b => b.setDp v

/-- `GET_HANDLER_SP`, rule R157. -/
def execGetHandlerSp (s : State) : Out := perform s do
  pushD (← get).handlerSp

end Sys2Proof.Machine
end

