-- ==== Sys2Proof/Machine/StackManip.lean ====
section
/-! DEFINITION. The stack manipulation instructions, rules R120 to R126. Depths are read unsigned against the depth of the
stack after the pops. -/

namespace Sys2Proof.Machine

/-- `POP`, rule R120. -/
def execPop (s : State) : Out := perform s do
  let _ ← popD

/-- `DUP`, rule R121. -/
def execDup (s : State) : Out := perform s do
  let k ← popD
  let dp := (← get).dp
  if dp.toNat ≤ k.toNat then raise .stackUnderflow
  else
    let v ← readD (dp - (k + 1))
    pushD v

/-- `SET`, rule R122. -/
def execSet (s : State) : Out := perform s do
  let k ← popD
  let v ← popD
  let dp := (← get).dp
  if dp.toNat ≤ k.toNat then raise .stackUnderflow
  else writeD (dp - (k + 1)) v

/-- `SWAP`, rule R123. -/
def execSwap (s : State) : Out := perform s do
  let k ← popD
  let dp := (← get).dp
  if dp.toNat = 0 ∨ dp.toNat - 1 ≤ k.toNat then raise .stackUnderflow
  else
    let i := dp - 1
    let j := dp - (k + 2)
    let t ← readD i
    let u ← readD j
    writeD i u
    writeD j t

/-- `PUSHS`, rule R124. -/
def execPushs (s : State) : Out := perform s do
  let v ← popD
  pushS v

/-- `POPS`, rule R125. -/
def execPops (s : State) : Out := perform s do
  let v ← popS
  pushD v

/-- `DUPS`, rule R126: the two tests a pop makes, then a read in place. -/
def execDups (s : State) : Out := perform s do
  let b ← get
  if b.sp.toNat = 0 then raise .stackUnderflow
  else if b.ssize.toNat < b.sp.toNat then raise .stackOverflow
  else
    let v ← readS (b.sp - 1)
    pushD v

end Sys2Proof.Machine
end

