-- ==== Sys2Proof/Machine/Trap.lean ====
section
/-! DEFINITION. `TRAP` and the trap host port, rules R160 to R164. The host's functions are the parameter `TRAP_HOST`
(log 9). -/

namespace Sys2Proof.Machine

variable {w : WordSize}

/-- What the host sees when it decides, in a call of `f` that has popped or read `got` (rule R161). -/
def Block.hostView (b : Block w) (f : Word w) (got : List (Word w)) : HostView w where
  fn := f
  got := got
  d0 := b.d0
  dsize := b.dsize
  dp := b.dp
  mem := b.mem
  host := b.io.host
  seq := b.io.hostSeq

/-- The host has decided: its own state moves on, and nothing else does. -/
def Block.hostAsked (b : Block w) (f : Word w) (got : List (Word w)) : Block w :=
  b.setIo { b.io with host := Config.hostNext (b.hostView f got), hostSeq := b.io.hostSeq + 1 }

/-- The value of a trap function's expression, in a call of `f` that has popped or read `got` (oldest first). A word from
outside the block is a FREE VALUE (`Config.hostWord`); a word the function never got reads as 0 in its own text. -/
def hostVal (f : Word w) (got : List (Word w)) : HostVal w → Op w (Word w)
  | .lit v => pure v
  | .got i => pure (got.getD i 0)
  | .outside => fun b => .ok (Config.hostWord (b.hostView f got)) (b.hostAsked f got)
  | .sum x y => do
    let u ← hostVal f got x
    let v ← hostVal f got y
    return u + v

/-- A list of the host's acts, one after another (rule R161). -/
def runActs : List (HostAct w) → Op w Unit
  | [] => pure ()
  | .pop :: k => do
    let _ ← popD
    runActs k
  | .push v :: k => do
    pushD v
    runActs k
  | .read a n :: k => do
    let _ ← memRead a (widthBytes w n)
    runActs k
  | .write a n v :: k => do
    memWrite a (widthBytes w n) v.toNat
    runActs k
  | .hang :: _ => fun b => .error (.stuck .trapHostStuck) b

/-- The function `f` running as part of the instruction (rule R161): its pops and pushes are the stack controller's and raise as
the instruction's own would; its accesses go through MEM. -/
def runHost (f : Word w) : List (Word w) → HostProg w → Op w Unit
  | _, .done => pure ()
  | _, .hang => fun b => .error (.stuck .trapHostStuck) b
  | got, .pop k => do
    let v ← popD
    runHost f (got ++ [v]) k
  | got, .push x k => do
    let v ← hostVal f got x
    pushD v
    runHost f got k
  | got, .read x n k => do
    let a ← hostVal f got x
    let v ← memRead a (widthBytes w n)
    runHost f (got ++ [BitVec.ofNat w.xlen v]) k
  | got, .write x n y k => do
    let a ← hostVal f got x
    let v ← hostVal f got y
    memWrite a (widthBytes w n) v.toNat
    runHost f got k
  | got, .ifEq x y p q => do
    let u ← hostVal f got x
    let v ← hostVal f got y
    if u = v then runHost f got p else runHost f got q
  | got, .free => fun b => runActs (Config.hostActs (b.hostView f got)) (b.hostAsked f got)

/-- `TrapCall(f)`, rule R161; an id the host does not know raises `INVALID_FUNCTION` (R160). -/
def trapCall (f : Word w) : Op w Unit := fun b =>
  match b.cfg.trapHost.lookup f with
  | some p => runHost f [] p b
  | none => raise .invalidFunction b

/-- `TRAP lib`, rule R160: the library is tested before the pop of the function id. -/
def execTrap (lib : Int) (s : State) : Out := perform s do
  if lib = 0 then
    let f ← popD
    trapCall f
  else raise .invalidLibrary

end Sys2Proof.Machine
end

