-- ==== Sys2Proof/Machine/Dispatch.lean ====
section
/-! DEFINITION. From an instruction to its meaning: one arm per constructor (rule R83). -/

namespace Sys2Proof.Machine

def exec (i : Instr) (s : State) : Host.Outcome State Fault Refusal :=
  match i with
  | .calli n => Sys2Proof.Machine.execCalli n s
  | .pushi n => Sys2Proof.Machine.execPushi n s
  | .pushreli n => Sys2Proof.Machine.execPushreli n s
  | .jumpi n => Sys2Proof.Machine.execJumpi n s
  | .jumpzi n => Sys2Proof.Machine.execJumpzi n s
  | .trap lib => Sys2Proof.Machine.execTrap lib s
  | .nop => Sys2Proof.Machine.execNop s
  | .not => Sys2Proof.Machine.execNot s
  | .and => Sys2Proof.Machine.execAnd s
  | .or => Sys2Proof.Machine.execOr s
  | .xor => Sys2Proof.Machine.execXor s
  | .lshift => Sys2Proof.Machine.execLshift s
  | .rshift => Sys2Proof.Machine.execRshift s
  | .arshift => Sys2Proof.Machine.execArshift s
  | .pop => Sys2Proof.Machine.execPop s
  | .dup => Sys2Proof.Machine.execDup s
  | .set => Sys2Proof.Machine.execSet s
  | .swap => Sys2Proof.Machine.execSwap s
  | .jump => Sys2Proof.Machine.execJump s
  | .jumpz => Sys2Proof.Machine.execJumpz s
  | .call => Sys2Proof.Machine.execCall s
  | .ret => Sys2Proof.Machine.execRet s
  | .load => Sys2Proof.Machine.execLoad s
  | .store => Sys2Proof.Machine.execStore s
  | .load1 => Sys2Proof.Machine.execLoad1 s
  | .store1 => Sys2Proof.Machine.execStore1 s
  | .load2 => Sys2Proof.Machine.execLoad2 s
  | .store2 => Sys2Proof.Machine.execStore2 s
  | .load4 => Sys2Proof.Machine.execLoad4 s
  | .store4 => Sys2Proof.Machine.execStore4 s
  | .negate => Sys2Proof.Machine.execNegate s
  | .add => Sys2Proof.Machine.execAdd s
  | .mul => Sys2Proof.Machine.execMul s
  | .divmod => Sys2Proof.Machine.execDivmod s
  | .udivmod => Sys2Proof.Machine.execUdivmod s
  | .eq => Sys2Proof.Machine.execEq s
  | .lt => Sys2Proof.Machine.execLt s
  | .ult => Sys2Proof.Machine.execUlt s
  | .pushs => Sys2Proof.Machine.execPushs s
  | .pops => Sys2Proof.Machine.execPops s
  | .dups => Sys2Proof.Machine.execDups s
  | .catch_ => Sys2Proof.Machine.execCatch s
  | .throw_ => Sys2Proof.Machine.execThrow s
  | .break_ => Sys2Proof.Machine.execBreak s
  | .wordBytes => Sys2Proof.Machine.execWordBytes s
  | .getSsize => Sys2Proof.Machine.execGetSsize s
  | .getSp => Sys2Proof.Machine.execGetSp s
  | .setSp => Sys2Proof.Machine.execSetSp s
  | .getDsize => Sys2Proof.Machine.execGetDsize s
  | .getDp => Sys2Proof.Machine.execGetDp s
  | .setDp => Sys2Proof.Machine.execSetDp s
  | .getHandlerSp => Sys2Proof.Machine.execGetHandlerSp s

end Sys2Proof.Machine
end

