-- ==== Sys2Proof/Machine/RunLoop.lean ====
section
/-! DEFINITION. One iteration of the run loop: fetch, decode, dispatch (rules R81 to R85). -/

namespace Sys2Proof.Machine

variable {w : WordSize}

/-- `Dispatch(ir)`, rule R83: an `INVALID` word raises `INVALID_OPCODE`. -/
def dispatch (ir : Word w) (b : Block w) : Out :=
  match decode w ir with
  | .ok i => exec i ⟨w, b⟩
  | .error _ => perform ⟨w, b⟩ (raise .invalidOpcode)

/-- `ExecOne()`, rule R84. -/
def execOne (b : Block w) : Out :=
  match fetch b with
  | .ok ir b' => dispatch ir b'
  | .error e b' => (settle (α := Unit) (.error e b')).toOut

/-- After one iteration, a direct-mode `STEP` that is still running has done its one instruction: it returns `BREAK`
(rules R180, R183). -/
def endIteration (s : State) : State :=
  match s.blk.act with
  | .run .direct => ⟨s.w, s.blk.stopRun (ErrCode.break_.word s.w)⟩
  | _ => s

/-- One step while the run loop is in progress. -/
def runStep (s : State) : Out :=
  match execOne s.blk with
  | .next t => .next (endIteration t)
  | .fault f => .fault f
  | .refused r => .refused r

end Sys2Proof.Machine
end

