-- ==== Sys2Proof/Machine/SingleStep.lean ====
section
/-! DEFINITION. The single-step state machine SST in patch mode, rules R170 to R182: one step of the model per phase
(log 12). The phase `RUN` is the run loop itself, with caller `.sst`. -/

namespace Sys2Proof.Machine

variable {w : WordSize}

/-- `dok(k)`: `k` data-stack words can be popped (rule R172). -/
def Block.dok (b : Block w) (k : Nat) : Bool :=
  decide (k ≤ b.dp.toNat) && decide (b.dp.toNat ≤ b.dsize.toNat)

/-- The case analysis of `Predict()` (rule R172): where the instruction after `i` will be fetched, `next` being the address
of the following word. -/
def predictTarget (i : Instr) (next : Word w) : Op w (Option (Word w)) := do
  let b ← get
  match i with
  | .calli n | .jumpi n => return some (relTarget next n)
  | .jumpzi n =>
    if b.dok 1 then
      let f ← readD (b.dp - 1)
      return some (if f = 0 then relTarget next n else next)
    else return none
  | .jump | .call | .catch_ =>
    if b.dok 1 then
      let a ← readD (b.dp - 1)
      return some a
    else return none
  | .jumpz =>
    if b.dok 2 then
      let f ← readD (b.dp - 2)
      if f = 0 then
        let a ← readD (b.dp - 1)
        return some a
      else return some next
    else return none
  | .ret =>
    if 1 ≤ b.sp.toNat ∧ b.sp.toNat ≤ b.ssize.toNat then
      let a ← readS (b.sp - 1)
      return some a
    else return none
  | .throw_ | .break_ => return none
  | .pushi _ | .pushreli _ | .trap _
  | .nop | .not | .and | .or | .xor | .lshift | .rshift | .arshift
  | .pop | .dup | .set | .swap
  | .load | .store | .load1 | .store1 | .load2 | .store2 | .load4 | .store4
  | .negate | .add | .mul | .divmod | .udivmod | .eq | .lt | .ult
  | .pushs | .pops | .dups
  | .wordBytes | .getSsize | .getSp | .setSp | .getDsize | .getDp | .setDp | .getHandlerSp => return some next

/-- A misaligned target is not predicted (rule R172). -/
def keepAligned (t : Option (Word w)) : Option (Word w) :=
  match t with
  | some a => if aligned a w.bytes then some a else none
  | none => none

/-- `Predict()`, rule R172: the predicted target, and whether the word is `RET`. -/
def predict : Op w (Option (Word w) × Bool) := do
  let b ← get
  if aligned b.pc w.bytes then
    let ir ← readWord b.pc
    match decode w ir with
    | .ok i =>
      let t ← predictTarget i (b.pc + w.step)
      return (keepAligned t, decide (i = .ret))
    | .error _ => return (none, false)
  else return (none, false)

/-- `PREDICT`. -/
def sstPredict : Op w Unit := do
  let (t, r) ← predict
  update fun b => (b.setSst { b.sst with target := t, isRet := r }).setAct (.sst .arm)

/-- The patch of rule R174: the target's word saved, the `BREAK` word written over it. -/
def armPatch : Op w Unit := do
  let b ← get
  match b.sst.target with
  | some t =>
    let v ← readWord t
    update fun b' => b'.setSst { b'.sst with savedWord := v }
    writeWord t (breakWord w)
  | none => pure ()

/-- `ARM`, rule R174. -/
def sstArm : Op w Unit := do
  armPatch
  update fun b => b.setAct (.sst .launch)

/-- The start of `RUN`: save and clear `handler_sp` (rule R173). -/
def sstLaunch : Op w Unit :=
  update fun b => ((b.setSst { b.sst with savedH := b.handlerSp }).setHandlerSp 0).setAct (.run .sst)

/-- The restoring half of rule R175: the saved word put back, and `pc` set to the target after a `BREAK`. -/
def disarmPatch (code : Word w) : Op w Unit := do
  let b ← get
  match b.sst.target with
  | some t =>
    writeWord t b.sst.savedWord
    update fun b' => if code = ErrCode.break_.word w then b'.setPc t else b'
  | none => pure ()

/-- `DISARM`, rule R175. -/
def sstDisarm (code : Word w) : Op w Unit := do
  disarmPatch code
  update fun b => b.setAct (.sst (.fixup code))

/-- Rule R176: the saved `handler_sp` put back, or written into the frame that the step installed. -/
def fixFrame : Op w Unit := do
  let b ← get
  if b.handlerSp = 0 then update fun b' => b'.setHandlerSp b.sst.savedH
  else writeS (b.handlerSp - 2) b.sst.savedH

/-- `FIXUP`, rule R176. -/
def sstFixup (code : Word w) : Op w Unit := do
  fixFrame
  update fun b => b.setAct (.sst (.replay code))

/-- What `STEP` returns after a replayed piece of the run loop (rules R177, R178): `BREAK` when it went on, else its stop
code. -/
def sstVerdict (r : LoopOut w) : Out :=
  match r with
  | .next (.continue_, b) => .next ⟨w, b.setAct (.sst (.done (ErrCode.break_.word w)))⟩
  | .next (.stop c, b) => .next ⟨w, b.setAct (.sst (.done c))⟩
  | .fault f => .fault f
  | .refused r => .refused r

/-- `REPLAY`: the tail of a `RET` that crossed a handler (rule R178), or the unwind (rule R177). -/
def sstReplay (code : Word w) (b : Block w) : Out :=
  if code = ErrCode.break_.word w then
    if b.sst.isRet = true ∧ b.sp.toNat < b.handlerSp.toNat then sstVerdict (settle (leaveRegion b))
    else .next ⟨w, b.setAct (.sst (.done code))⟩
  else if b.handlerSp = 0 then .next ⟨w, b.setAct (.sst (.done code))⟩
  else sstVerdict (unwind code b)

/-- `DONE`, rule R179: `STEP` returns. -/
def sstDone (code : Word w) : Op w Unit :=
  update fun b => (b.setAct .idle).answer (.word code)

/-- One phase of `STEP`. -/
def sstStep (p : SstPhase w) (b : Block w) : Out :=
  match p with
  | .predict => phase ⟨w, b⟩ sstPredict
  | .arm => phase ⟨w, b⟩ sstArm
  | .launch => phase ⟨w, b⟩ sstLaunch
  | .disarm code => phase ⟨w, b⟩ (sstDisarm code)
  | .fixup code => phase ⟨w, b⟩ (sstFixup code)
  | .replay code => sstReplay code b
  | .done code => phase ⟨w, b⟩ (sstDone code)

end Sys2Proof.Machine
end

