-- ==== Sys2Proof/Machine/Step.lean ====
section
/-! DEFINITION. One step of the machine: an iteration of the run loop, a phase of SST, a step of the stub, or an operation of
the embedder, as `act` says (log 7). -/

namespace Sys2Proof.Machine

def step (s : State) : Host.Outcome State Fault Refusal :=
  match s.blk.act with
  | .idle => hostStep s.blk
  | .run _ => runStep s
  | .sst p => sstStep p s.blk
  | .dbg p => dbgStep p s.blk

/-- The state with the instruction whose low `nbits` bits are `v` stored at `pc`, where the run loop fetches, and with the
embedder's `RUN` in progress (the block does not run by itself after reset, rule R260; log 7). -/
def State.withFetchWord (s : State) (nbits v : Nat) : State :=
  ⟨s.w, (s.blk.storeWord s.blk.pc (tableWord s.w nbits v)).setAct (.run .host)⟩

end Sys2Proof.Machine
end

