-- ==== Sys2Proof/Safety.lean ====
section
/-! DEFINITION. The words the claims are stated in: the items of the two stacks, when they can be popped or pushed, what an
instruction leaves unchanged, and the invariant that every step keeps. -/

namespace Sys2Proof.Machine

variable {w : WordSize}

/-! ### Stack items, counted from the top (rule R13) -/

/-- The address of the word `i` places below the top of the data stack: `D[dp - 1 - i]`. -/
abbrev Block.dAddr (b : Block w) (i : Nat) : Word w := b.dSlot (b.dp - BitVec.ofNat w.xlen (i + 1))

/-- The word `i` places below the top of the data stack. -/
abbrev Block.dItem (b : Block w) (i : Nat) : Word w := b.word (b.dAddr i)

/-- The address a push on the data stack stores at: `D[dp]`. -/
abbrev Block.dFree (b : Block w) : Word w := b.dSlot b.dp

/-- The address of the word `i` places below the top of the return stack: `S[sp - 1 - i]`. -/
abbrev Block.sAddr (b : Block w) (i : Nat) : Word w := b.sSlot (b.sp - BitVec.ofNat w.xlen (i + 1))

/-- The word `i` places below the top of the return stack. -/
abbrev Block.sItem (b : Block w) (i : Nat) : Word w := b.word (b.sAddr i)

/-- The address a push on the return stack stores at: `S[sp]`. -/
abbrev Block.sFree (b : Block w) : Word w := b.sSlot b.sp

/-- The `k` top words of the data stack can be popped: the tests of rule R31 pass for each, and each lies in `MEM_VALID`
(R47). -/
abbrev Block.dHas (b : Block w) (k : Nat) : Prop :=
  k ≤ b.dp.toNat ∧ b.dp.toNat ≤ b.dsize.toNat ∧ ∀ i < k, b.valid (b.dAddr i) w.bytes = true

/-- One word can be pushed on the data stack (rules R30, R47). -/
abbrev Block.dRoom (b : Block w) : Prop :=
  b.dp.toNat < b.dsize.toNat ∧ b.valid b.dFree w.bytes = true

/-- The `k` top words of the return stack can be popped (rules R33, R47). -/
abbrev Block.sHas (b : Block w) (k : Nat) : Prop :=
  k ≤ b.sp.toNat ∧ b.sp.toNat ≤ b.ssize.toNat ∧ ∀ i < k, b.valid (b.sAddr i) w.bytes = true

/-- `k` words can be pushed on the return stack (rules R32, R47). -/
abbrev Block.sRoom (b : Block w) (k : Nat) : Prop :=
  b.sp.toNat + k ≤ b.ssize.toNat ∧
    ∀ i < k, b.valid (b.sSlot (b.sp + BitVec.ofNat w.xlen i)) w.bytes = true

/-- The word of value `n` decodes to `i`: the encoding line of an instruction's rule. -/
abbrev HasWord (w : WordSize) (n : Nat) (i : Instr) : Prop := decode w (BitVec.ofNat w.xlen n) = .ok i

/-! ### Frames -/

/-- Every register but those listed, and everything else but memory, is the same in `r` as in `b`: the configuration, the
hidden registers of SST and of DBG, what the block is doing, the ports. -/
abbrev KeptBut (regs : List Reg) (b r : Block w) : Prop :=
  (∀ x : Reg, x ∉ regs → r.reg x = b.reg x) ∧
    r.cfg = b.cfg ∧ r.sst = b.sst ∧ r.dbg = b.dbg ∧ r.act = b.act ∧ r.io = b.io

/-- Every byte of memory reads the same in `r` as in `b`. -/
abbrev MemKept (b r : Block w) : Prop := ∀ c : Nat, r.mem.get c = b.mem.get c

/-- Every byte of memory outside the `n` bytes at `a` reads the same in `r` as in `b`. -/
abbrev MemKeptBut (a : Word w) (n : Nat) (b r : Block w) : Prop :=
  ∀ c : Nat, (∀ i < n, c ≠ byteAddr a i) → r.mem.get c = b.mem.get c

/-- `i`, run on `b`, completes with `v` pushed on the data stack: what it changes, and that it changes nothing else. -/
def Pushes (i : Instr) (b : Block w) (v : Word w) : Prop :=
  ∃ r : Block w, exec i ⟨w, b⟩ = .next ⟨w, r⟩ ∧ r.dp = b.dp + 1 ∧ r.dItem 0 = v ∧
    KeptBut [.dp] b r ∧ MemKeptBut b.dFree w.bytes b r

/-- `i`, run on `b`, completes with the top word of the data stack replaced by `v`. -/
def ReplacesTop (i : Instr) (b : Block w) (v : Word w) : Prop :=
  ∃ r : Block w, exec i ⟨w, b⟩ = .next ⟨w, r⟩ ∧ r.dItem 0 = v ∧
    KeptBut [] b r ∧ MemKeptBut (b.dAddr 0) w.bytes b r

/-- `i`, run on `b`, completes with the two top words of the data stack replaced by the one word `v`. -/
def ReplacesTwo (i : Instr) (b : Block w) (v : Word w) : Prop :=
  ∃ r : Block w, exec i ⟨w, b⟩ = .next ⟨w, r⟩ ∧ r.dp = b.dp - 1 ∧ r.dItem 0 = v ∧
    KeptBut [.dp] b r ∧ MemKeptBut (b.dAddr 1) w.bytes b r

/-- `i`, run on `b`, raises the code `e` with the block then being `r` (rules R9, R232, R236). -/
def RaisesAt (i : Instr) (b : Block w) (e : ErrCode) (r : Block w) : Prop :=
  exec i ⟨w, b⟩ = (raiseCode (e.word w) r).toOut

/-- The iteration of the run loop that begins at `b`, for the caller `c`, raises `e` at the block `q` (rules R84, R232). A
direct-mode `STEP` (rules R180, R183) then returns the code with which the loop has stopped, or `BREAK` when a handler has taken
the exception. -/
def IterationRaises (b : Block w) (c : Caller) (e : ErrCode) (q : Block w) : Prop :=
  (c ≠ .direct → step ⟨w, b⟩ = (raiseCode (e.word w) q).toOut) ∧
  (c = .direct → q.handlerSp = 0 → step ⟨w, b⟩ = .next ⟨w, (q.setAct .idle).answer (.word (e.word w))⟩) ∧
  (c = .direct → q.handlerSp ≠ 0 →
    (∀ r, unwind (e.word w) q = .next (.continue_, r) →
      step ⟨w, b⟩ = .next ⟨w, (r.setAct .idle).answer (.word (ErrCode.break_.word w))⟩) ∧
    (∀ d r, unwind (e.word w) q = .next (.stop d, r) → step ⟨w, b⟩ = .next ⟨w, (r.setAct .idle).answer (.word d)⟩) ∧
    (∀ x, unwind (e.word w) q = .refused x → step ⟨w, b⟩ = .refused x))

/-- The stack faults of an instruction that first pops a word of the data stack (rule R31): nothing has changed. -/
def PopsOne (i : Instr) (b : Block w) : Prop :=
  (b.dp.toNat = 0 → RaisesAt i b .stackUnderflow b) ∧
    (b.dsize.toNat < b.dp.toNat → RaisesAt i b .stackOverflow b)

/-- The stack faults of an instruction that first pops two words: on a one-item stack the item is gone when it raises
(rule R236). -/
def PopsTwo (i : Instr) (b : Block w) : Prop :=
  PopsOne i b ∧ (b.dp.toNat = 1 → b.dHas 1 → RaisesAt i b .stackUnderflow (b.setDp 0))

/-! ### The invariant -/

/-- The legal values of the parameters that rule R6 restricts. -/
abbrev Config.wf (c : Config w) : Prop := 16 * w.bytes + 1 ≤ c.bufMax

/-- What is being done agrees with the parameter `SST_MODE` (rules R171, R183): the phases of patch mode only in patch mode,
the run of one iteration only in direct mode. -/
abbrev Activity.fits (m : SstMode) : Activity w → Prop
  | .idle => True
  | .run .host => True
  | .run .debug => True
  | .run .sst => m = .patch
  | .run .direct => m = .direct
  | .sst _ => m = .patch
  | .dbg _ => True

/-- The receiver's first checksum digit, when valid, is a digit (rules R193, R197). -/
abbrev RxState.fits : RxState → Prop
  | .ck2 (some h) => h < 16
  | _ => True

/-- The invariant of the block: memory in canonical form and inside the address space (R40), legal parameters (R6), the
stub's buffer within its capacity (R17, R218), the receiver and the activity as the rules allow. -/
abbrev Block.Inv (b : Block w) : Prop :=
  b.mem.wf = true ∧ (∀ p ∈ b.mem, p.1 < 2 ^ w.xlen) ∧ Config.wf b.cfg ∧ b.dbg.len ≤ b.cfg.bufMax ∧
    b.dbg.rx.fits ∧ b.act.fits b.cfg.sstMode

/-- The invariant of the machine. -/
abbrev State.Inv (s : State) : Prop := s.blk.Inv

end Sys2Proof.Machine
end

