-- ==== Sys2Proof/Certificates/Slice0/Obligations.lean ====
section
/-! DEFINITION. The statements for the provers, from the numbered rules of spec/. `w` is the word size, `b` a block of that
size; a state is `⟨w, b⟩`. Every statement holds in every state unless a premise is named; the premise `b.mem.wf` is part of
the invariant of `Obligations.StepKeepsInvariant`. -/

open Sys2Proof Sys2Proof.Machine

/-! ### Encoding (30_encoding.md) -/

/-- Rule R67: the opcode map, every row of it: the word `(opcode << 4) | 0xF` decodes to the named instruction. -/
def Obligations.OpcodeMapDecodes : Prop :=
  ∀ w : WordSize, ∀ p ∈ ([(0x00, .nop), (0x01, .not), (0x02, .and), (0x03, .or), (0x04, .xor), (0x05, .lshift),
      (0x06, .rshift), (0x07, .arshift), (0x08, .pop), (0x09, .dup), (0x0A, .set), (0x0B, .swap), (0x0C, .jump),
      (0x0D, .jumpz), (0x0E, .call), (0x0F, .ret), (0x10, .load), (0x11, .store), (0x12, .load1), (0x13, .store1),
      (0x14, .load2), (0x15, .store2), (0x16, .load4), (0x17, .store4), (0x18, .negate), (0x19, .add), (0x1A, .mul),
      (0x1B, .divmod), (0x1C, .udivmod), (0x1D, .eq), (0x1E, .lt), (0x1F, .ult), (0x20, .pushs), (0x21, .pops),
      (0x22, .dups), (0x23, .catch_), (0x24, .throw_), (0x25, .break_), (0x26, .wordBytes), (0x27, .getSsize),
      (0x28, .getSp), (0x29, .setSp), (0x2A, .getDsize), (0x2B, .getDp), (0x2C, .setDp), (0x2D, .getHandlerSp)]
        : List (Nat × Instr)),
    decode w (BitVec.ofNat w.xlen (16 * p.1 + 15)) = .ok p.2 ∧
      encode w p.2 = some (BitVec.ofNat w.xlen (16 * p.1 + 15))

/-- A few words as the spec writes them out (R64, R68, R90 to R94, R160) decode to the instructions they stand for. -/
def Obligations.WrittenWordsDecode : Prop :=
  decode .four 0x0000000C = .ok (.calli 3) ∧ decode .four 0xFFFFFFF1 = .ok (.pushi (-4)) ∧
    decode .four 0x00000016 = .ok (.pushreli 5) ∧ decode .four 0xFFFFFFE3 = .ok (.jumpi (-2)) ∧
    decode .four 0x00000027 = .ok (.jumpzi 2) ∧ decode .four 0x0000000B = .ok (.trap 0) ∧
    decode .four 0xFFFFFFFB = .ok (.trap (-1)) ∧ decode .four 0x0000025F = .ok .break_ ∧
    decode .four 0 = .ok (.calli 0) ∧ decode .four 0xFFFFFFFF = .error (.invalidOpcode 0x0FFFFFFF)

/-- Rule R69: the decoder by the tags and the fields, in integers: `ir[1:0]` is `u(ir) mod 4`, `ir[3:0]` is `u(ir) mod 16`,
an immediate operand is the floor of `s(ir)` over 4 or 16 (the integer division of Lean rounds down for a positive divisor),
the opcode number is `u(ir)` over 16. Rule R64: that floor is the field above the tag, read signed. -/
def Obligations.DecoderByTagAndField : Prop :=
  ∀ (w : WordSize) (ir : Word w),
    ir.toInt / 4 = (ir.extractLsb' 2 (w.xlen - 2)).toInt ∧ ir.toInt / 16 = (ir.extractLsb' 4 (w.xlen - 4)).toInt ∧
    (ir.toNat % 4 = 0 → decode w ir = .ok (.calli (ir.toInt / 4))) ∧
    (ir.toNat % 4 = 1 → decode w ir = .ok (.pushi (ir.toInt / 4))) ∧
    (ir.toNat % 4 = 2 → decode w ir = .ok (.pushreli (ir.toInt / 4))) ∧
    (ir.toNat % 16 = 3 → decode w ir = .ok (.jumpi (ir.toInt / 16))) ∧
    (ir.toNat % 16 = 7 → decode w ir = .ok (.jumpzi (ir.toInt / 16))) ∧
    (ir.toNat % 16 = 11 → decode w ir = .ok (.trap (ir.toInt / 16))) ∧
    (ir.toNat % 16 = 15 → ir.toNat / 16 ≤ 0x2D →
      ∃ i, opcodeOf i = some (ir.toNat / 16) ∧ decode w ir = .ok i) ∧
    (ir.toNat % 16 = 15 → 0x2D < ir.toNat / 16 → decode w ir = .error (.invalidOpcode (ir.toNat / 16)))

/-- Rule R70: the encoder's formulas modulo 2^XLEN, for every operand in the range of its format, and the round trip. An
operand outside the range has no encoding (R71). -/
def Obligations.EncodeThenDecode : Prop :=
  ∀ w : WordSize,
    (∀ v : Int, -(2 : Int) ^ (w.xlen - 3) ≤ v → v < (2 : Int) ^ (w.xlen - 3) →
      encode w (.calli v) = some (BitVec.ofInt w.xlen (4 * v)) ∧
      encode w (.pushi v) = some (BitVec.ofInt w.xlen (4 * v + 1)) ∧
      encode w (.pushreli v) = some (BitVec.ofInt w.xlen (4 * v + 2)) ∧
      decode w (BitVec.ofInt w.xlen (4 * v)) = .ok (.calli v) ∧
      decode w (BitVec.ofInt w.xlen (4 * v + 1)) = .ok (.pushi v) ∧
      decode w (BitVec.ofInt w.xlen (4 * v + 2)) = .ok (.pushreli v)) ∧
    (∀ v : Int, -(2 : Int) ^ (w.xlen - 5) ≤ v → v < (2 : Int) ^ (w.xlen - 5) →
      encode w (.jumpi v) = some (BitVec.ofInt w.xlen (16 * v + 3)) ∧
      encode w (.jumpzi v) = some (BitVec.ofInt w.xlen (16 * v + 7)) ∧
      encode w (.trap v) = some (BitVec.ofInt w.xlen (16 * v + 11)) ∧
      decode w (BitVec.ofInt w.xlen (16 * v + 3)) = .ok (.jumpi v) ∧
      decode w (BitVec.ofInt w.xlen (16 * v + 7)) = .ok (.jumpzi v) ∧
      decode w (BitVec.ofInt w.xlen (16 * v + 11)) = .ok (.trap v)) ∧
    (∀ (i : Instr) (opcode : Nat), opcodeOf i = some opcode →
      encode w i = some (BitVec.ofNat w.xlen (16 * opcode + 15)) ∧
      decode w (BitVec.ofNat w.xlen (16 * opcode + 15)) = .ok i) ∧
    (∀ v : Int, v < -(2 : Int) ^ (w.xlen - 3) ∨ (2 : Int) ^ (w.xlen - 3) ≤ v →
      encode w (.calli v) = none ∧ encode w (.pushi v) = none ∧ encode w (.pushreli v) = none) ∧
    (∀ v : Int, v < -(2 : Int) ^ (w.xlen - 5) ∨ (2 : Int) ^ (w.xlen - 5) ≤ v →
      encode w (.jumpi v) = none ∧ encode w (.jumpzi v) = none ∧ encode w (.trap v) = none)

/-- Each word has one meaning: a word that decodes to an instruction is that instruction's own encoding, whole (every operand
the decoder yields is representable). -/
def Obligations.DecodeThenEncode : Prop :=
  ∀ (w : WordSize) (ir : Word w) (i : Instr), decode w ir = .ok i → i.wf w = true ∧ encode w i = some ir

/-! ### Memory (20_memory.md) -/

/-- Rule R42: the two byte orders, for every width of rule R40: what a read returns, and which byte a write puts where. -/
def Obligations.ByteOrderOfAccesses : Prop :=
  ∀ (w : WordSize) (b : Block w) (a : Word w) (width : Width) (v : Nat),
    (b.cfg.byteOrder = .little →
      b.peek a (widthBytes w width) = ((List.range (widthBytes w width)).map fun i =>
        (b.mem.get (byteAddr a i)).toNat * 2 ^ (8 * i)).sum) ∧
    (b.cfg.byteOrder = .big →
      b.peek a (widthBytes w width) = ((List.range (widthBytes w width)).map fun i =>
        (b.mem.get (byteAddr a i)).toNat * 2 ^ (8 * (widthBytes w width - 1 - i))).sum) ∧
    (b.mem.wf = true → ∀ i < widthBytes w width,
      (b.cfg.byteOrder = .little →
        (b.poke a (widthBytes w width) v).mem.get (byteAddr a i) = BitVec.ofNat 8 (v / 2 ^ (8 * i))) ∧
      (b.cfg.byteOrder = .big →
        (b.poke a (widthBytes w width) v).mem.get (byteAddr a i) =
          BitVec.ofNat 8 (v / 2 ^ (8 * (widthBytes w width - 1 - i)))))

/-- Rules R40 and R50: a read returns the low bits last written there, a write leaves every other byte and every register
alone, and the memory stays in canonical form. -/
def Obligations.ReadReturnsLastWrite : Prop :=
  ∀ (w : WordSize) (b : Block w) (a : Word w) (width : Width) (v : Nat), b.mem.wf = true →
    (b.poke a (widthBytes w width) v).peek a (widthBytes w width) = v % 2 ^ (8 * widthBytes w width) ∧
    MemKeptBut a (widthBytes w width) b (b.poke a (widthBytes w width) v) ∧
    KeptBut [] b (b.poke a (widthBytes w width) v) ∧ (b.poke a (widthBytes w width) v).mem.wf = true

/-- Rule R47: an access with a byte outside `MEM_VALID` has no meaning. The fetch, a load's read, a store's write, a push and a
pop that the checks before it let through are each refused, with the address of the access. -/
def Obligations.OutsideMemValidIsRefused : Prop :=
  ∀ (w : WordSize) (b : Block w),
    (∀ c : Caller, b.act = .run c → aligned b.pc w.bytes = true → b.valid b.pc w.bytes = false →
      step ⟨w, b⟩ = .refused (.outsideMemValid b.pc.toNat)) ∧
    (∀ p ∈ ([(.load, w.bytes), (.load1, 1), (.load2, 2), (.load4, 4)] : List (Instr × Nat)), b.dHas 1 →
      aligned (b.dItem 0) p.2 = true → b.valid (b.dItem 0) p.2 = false →
      exec p.1 ⟨w, b⟩ = .refused (.outsideMemValid (b.dItem 0).toNat)) ∧
    (∀ p ∈ ([(.store, w.bytes), (.store1, 1), (.store2, 2), (.store4, 4)] : List (Instr × Nat)), b.dHas 2 →
      aligned (b.dItem 0) p.2 = true → b.valid (b.dItem 0) p.2 = false →
      exec p.1 ⟨w, b⟩ = .refused (.outsideMemValid (b.dItem 0).toNat)) ∧
    (∀ n : Int, b.dp.toNat < b.dsize.toNat → b.valid b.dFree w.bytes = false →
      exec (.pushi n) ⟨w, b⟩ = .refused (.outsideMemValid b.dFree.toNat)) ∧
    (0 < b.dp.toNat → b.dp.toNat ≤ b.dsize.toNat → b.valid (b.dAddr 0) w.bytes = false →
      exec .pop ⟨w, b⟩ = .refused (.outsideMemValid (b.dAddr 0).toNat))

/-! ### The stack controller (15_stack_controller.md) -/

/-- Rule R30, whole: `PushD`. -/
def Obligations.PushDRule : Prop :=
  ∀ (w : WordSize) (b : Block w) (v : Word w), b.mem.wf = true →
    (b.dsize.toNat ≤ b.dp.toNat → pushD v b = .error (.raise (ErrCode.stackOverflow.word w)) b) ∧
    (b.dRoom → ∃ r, pushD v b = .ok () r ∧ r.word b.dFree = v ∧ r.dp = b.dp + 1 ∧
      KeptBut [.dp] b r ∧ MemKeptBut b.dFree w.bytes b r)

/-- Rule R31, whole: `PopD`. -/
def Obligations.PopDRule : Prop :=
  ∀ (w : WordSize) (b : Block w),
    (b.dp.toNat = 0 → popD b = .error (.raise (ErrCode.stackUnderflow.word w)) b) ∧
    (b.dsize.toNat < b.dp.toNat → popD b = .error (.raise (ErrCode.stackOverflow.word w)) b) ∧
    (b.dHas 1 → ∃ r, popD b = .ok (b.word (b.dSlot (b.dp - 1))) r ∧ r.dp = b.dp - 1 ∧
      KeptBut [.dp] b r ∧ MemKept b r)

/-- Rule R32, whole: `PushS`. -/
def Obligations.PushSRule : Prop :=
  ∀ (w : WordSize) (b : Block w) (v : Word w), b.mem.wf = true →
    (b.ssize.toNat ≤ b.sp.toNat → pushS v b = .error (.raise (ErrCode.stackOverflow.word w)) b) ∧
    (b.sRoom 1 → ∃ r, pushS v b = .ok () r ∧ r.word b.sFree = v ∧ r.sp = b.sp + 1 ∧
      KeptBut [.sp] b r ∧ MemKeptBut b.sFree w.bytes b r)

/-- Rule R33, whole: `PopS`. -/
def Obligations.PopSRule : Prop :=
  ∀ (w : WordSize) (b : Block w),
    (b.sp.toNat = 0 → popS b = .error (.raise (ErrCode.stackUnderflow.word w)) b) ∧
    (b.ssize.toNat < b.sp.toNat → popS b = .error (.raise (ErrCode.stackOverflow.word w)) b) ∧
    (b.sHas 1 → ∃ r, popS b = .ok (b.word (b.sSlot (b.sp - 1))) r ∧ r.sp = b.sp - 1 ∧
      KeptBut [.sp] b r ∧ MemKept b r)

/-- Rule R37: push then pop is the identity on the value and on the depth, for both stacks; a pop at depth 0 and a push at
depth equal to capacity always fail. -/
def Obligations.PushThenPopIsIdentity : Prop :=
  ∀ (w : WordSize) (b : Block w) (v : Word w), b.mem.wf = true →
    (b.dRoom → ∃ r r', pushD v b = .ok () r ∧ popD r = .ok v r' ∧ r'.dp = b.dp) ∧
    (b.sRoom 1 → ∃ r r', pushS v b = .ok () r ∧ popS r = .ok v r' ∧ r'.sp = b.sp) ∧
    (b.dp = 0 → popD b = .error (.raise (ErrCode.stackUnderflow.word w)) b) ∧
    (b.sp = 0 → popS b = .error (.raise (ErrCode.stackUnderflow.word w)) b) ∧
    (b.dp = b.dsize → pushD v b = .error (.raise (ErrCode.stackOverflow.word w)) b) ∧
    (b.sp = b.ssize → pushS v b = .error (.raise (ErrCode.stackOverflow.word w)) b)

/-! ### Immediate forms (40_immediate.md). `b.pc` is the address of the following word. -/

/-- Rules R91, R92: `PUSHI` pushes its literal, `PUSHRELI` the address `pc + W * n`; a full stack raises. -/
def Obligations.ImmediatePushes : Prop :=
  ∀ (w : WordSize) (b : Block w) (n : Int), b.mem.wf = true →
    (-(2 : Int) ^ (w.xlen - 3) ≤ n → n < (2 : Int) ^ (w.xlen - 3) →
      decode w (BitVec.ofInt w.xlen (4 * n + 1)) = .ok (.pushi n) ∧
      decode w (BitVec.ofInt w.xlen (4 * n + 2)) = .ok (.pushreli n)) ∧
    (b.dRoom → Pushes (.pushi n) b (BitVec.ofInt w.xlen n) ∧
      Pushes (.pushreli n) b (BitVec.ofInt w.xlen (b.pc.toNat + w.bytes * n))) ∧
    (b.dsize.toNat ≤ b.dp.toNat →
      RaisesAt (.pushi n) b .stackOverflow b ∧ RaisesAt (.pushreli n) b .stackOverflow b)

/-- Rules R93, R94: `JUMPI` always jumps, `JUMPZI` jumps when the popped flag is 0; the flag is consumed either way. -/
def Obligations.ImmediateJumps : Prop :=
  ∀ (w : WordSize) (b : Block w) (n : Int),
    (-(2 : Int) ^ (w.xlen - 5) ≤ n → n < (2 : Int) ^ (w.xlen - 5) →
      decode w (BitVec.ofInt w.xlen (16 * n + 3)) = .ok (.jumpi n) ∧
      decode w (BitVec.ofInt w.xlen (16 * n + 7)) = .ok (.jumpzi n)) ∧
    (∃ r, exec (.jumpi n) ⟨w, b⟩ = .next ⟨w, r⟩ ∧ r.pc = BitVec.ofInt w.xlen (b.pc.toNat + w.bytes * n) ∧
      KeptBut [.pc] b r ∧ MemKept b r) ∧
    (b.dHas 1 → b.dItem 0 = 0 → ∃ r, exec (.jumpzi n) ⟨w, b⟩ = .next ⟨w, r⟩ ∧
      r.pc = BitVec.ofInt w.xlen (b.pc.toNat + w.bytes * n) ∧ r.dp = b.dp - 1 ∧
      KeptBut [.pc, .dp] b r ∧ MemKept b r) ∧
    (b.dHas 1 → b.dItem 0 ≠ 0 → ∃ r, exec (.jumpzi n) ⟨w, b⟩ = .next ⟨w, r⟩ ∧ r.dp = b.dp - 1 ∧
      KeptBut [.dp] b r ∧ MemKept b r) ∧
    PopsOne (.jumpzi n) b

/-- Rules R90, R132: a call pushes the address of the following word on the return stack and jumps; `CALL` checks the
alignment of its target before it pushes; what is done when a pop, the check or the push fails. -/
def Obligations.CallsPushReturnAddress : Prop :=
  ∀ (w : WordSize) (b : Block w) (n : Int), b.mem.wf = true →
    (-(2 : Int) ^ (w.xlen - 3) ≤ n → n < (2 : Int) ^ (w.xlen - 3) →
      decode w (BitVec.ofInt w.xlen (4 * n)) = .ok (.calli n)) ∧
    HasWord w 0x0EF .call ∧
    (b.sRoom 1 → ∃ r, exec (.calli n) ⟨w, b⟩ = .next ⟨w, r⟩ ∧
      r.pc = BitVec.ofInt w.xlen (b.pc.toNat + w.bytes * n) ∧ r.sp = b.sp + 1 ∧ r.sItem 0 = b.pc ∧
      KeptBut [.pc, .sp] b r ∧ MemKeptBut b.sFree w.bytes b r) ∧
    (b.ssize.toNat ≤ b.sp.toNat → RaisesAt (.calli n) b .stackOverflow b) ∧
    (b.dHas 1 → (b.dItem 0).toNat % w.bytes = 0 → b.sRoom 1 → ∃ r, exec .call ⟨w, b⟩ = .next ⟨w, r⟩ ∧
      r.pc = b.dItem 0 ∧ r.dp = b.dp - 1 ∧ r.sp = b.sp + 1 ∧ r.sItem 0 = b.pc ∧
      KeptBut [.pc, .dp, .sp] b r ∧ MemKeptBut b.sFree w.bytes b r) ∧
    (b.dHas 1 → (b.dItem 0).toNat % w.bytes ≠ 0 →
      RaisesAt .call b .unalignedAddress (b.setDp (b.dp - 1))) ∧
    (b.dHas 1 → (b.dItem 0).toNat % w.bytes = 0 → b.ssize.toNat ≤ b.sp.toNat →
      RaisesAt .call b .stackOverflow (b.setDp (b.dp - 1))) ∧
    PopsOne .call b

/-! ### Arithmetic and logic (41_arith_logic.md). `b.dItem 0` is the top, `b.dItem 1` the word beneath it. -/

/-- Rule R100: `NOP` changes nothing beyond the fetch (which is done: `b.pc` is the following word). -/
def Obligations.NopChangesNothing : Prop :=
  ∀ (w : WordSize) (b : Block w), HasWord w 0x00F .nop ∧ exec .nop ⟨w, b⟩ = .next ⟨w, b⟩

/-- Rules R101 to R104, bit by bit: the results, and the stack faults. -/
def Obligations.BitwiseResults : Prop :=
  ∀ (w : WordSize) (b : Block w), b.mem.wf = true →
    HasWord w 0x01F .not ∧ HasWord w 0x02F .and ∧ HasWord w 0x03F .or ∧ HasWord w 0x04F .xor ∧
    (b.dHas 1 → ∃ v : Word w, ReplacesTop .not b v ∧
      ∀ k < w.xlen, v.getLsbD k = !(b.dItem 0).getLsbD k) ∧
    (b.dHas 2 → ∃ v : Word w, ReplacesTwo .and b v ∧
      ∀ k, v.getLsbD k = ((b.dItem 1).getLsbD k && (b.dItem 0).getLsbD k)) ∧
    (b.dHas 2 → ∃ v : Word w, ReplacesTwo .or b v ∧
      ∀ k, v.getLsbD k = ((b.dItem 1).getLsbD k || (b.dItem 0).getLsbD k)) ∧
    (b.dHas 2 → ∃ v : Word w, ReplacesTwo .xor b v ∧
      ∀ k, v.getLsbD k = ((b.dItem 1).getLsbD k ^^ (b.dItem 0).getLsbD k)) ∧
    PopsOne .not b ∧ PopsTwo .and b ∧ PopsTwo .or b ∧ PopsTwo .xor b

/-- Rules R105 to R107 in integers: the value `v` beneath, the amount `k` on top read unsigned; amounts of XLEN or more; the
stack faults. (The integer division of Lean rounds down for a positive divisor.) -/
def Obligations.ShiftResults : Prop :=
  ∀ (w : WordSize) (b : Block w), b.mem.wf = true →
    HasWord w 0x05F .lshift ∧ HasWord w 0x06F .rshift ∧ HasWord w 0x07F .arshift ∧
    (b.dHas 2 → (b.dItem 0).toNat < w.xlen →
      ReplacesTwo .lshift b (BitVec.ofNat w.xlen ((b.dItem 1).toNat * 2 ^ (b.dItem 0).toNat)) ∧
      ReplacesTwo .rshift b (BitVec.ofNat w.xlen ((b.dItem 1).toNat / 2 ^ (b.dItem 0).toNat)) ∧
      ReplacesTwo .arshift b (BitVec.ofInt w.xlen ((b.dItem 1).toInt / (2 : Int) ^ (b.dItem 0).toNat))) ∧
    (b.dHas 2 → w.xlen ≤ (b.dItem 0).toNat →
      ReplacesTwo .lshift b 0 ∧ ReplacesTwo .rshift b 0 ∧
      (b.cfg.overshift = .signfill → (b.dItem 1).toInt < 0 → ReplacesTwo .arshift b (BitVec.ofInt w.xlen (-1))) ∧
      (b.cfg.overshift = .signfill → 0 ≤ (b.dItem 1).toInt → ReplacesTwo .arshift b 0) ∧
      (b.cfg.overshift = .zero → ReplacesTwo .arshift b 0)) ∧
    PopsTwo .lshift b ∧ PopsTwo .rshift b ∧ PopsTwo .arshift b

/-- Rules R108 to R110 in integers modulo 2^XLEN. -/
def Obligations.ArithmeticResults : Prop :=
  ∀ (w : WordSize) (b : Block w), b.mem.wf = true →
    HasWord w 0x18F .negate ∧ HasWord w 0x19F .add ∧ HasWord w 0x1AF .mul ∧
    (b.dHas 1 → ReplacesTop .negate b (BitVec.ofInt w.xlen (-(b.dItem 0).toInt))) ∧
    (b.dHas 2 → ReplacesTwo .add b (BitVec.ofInt w.xlen ((b.dItem 1).toInt + (b.dItem 0).toInt)) ∧
      ReplacesTwo .mul b (BitVec.ofInt w.xlen ((b.dItem 1).toInt * (b.dItem 0).toInt))) ∧
    PopsOne .negate b ∧ PopsTwo .add b ∧ PopsTwo .mul b

/-- Rules R111, R112: dividend `n` beneath, divisor `d` on top; quotient beneath, remainder on top. Truncation toward zero, the
two corner cases, `n = q * d + r` modulo 2^XLEN, and `|r| < |d|` when `d` is not 0. -/
def Obligations.DivisionResults : Prop :=
  ∀ (w : WordSize) (b : Block w), b.mem.wf = true →
    HasWord w 0x1BF .divmod ∧ HasWord w 0x1CF .udivmod ∧
    (b.dHas 2 →
      (∃ r, exec .divmod ⟨w, b⟩ = .next ⟨w, r⟩ ∧ KeptBut [] b r ∧ MemKeptBut (b.dAddr 1) (2 * w.bytes) b r ∧
        (b.dItem 0 = 0 → r.dItem 1 = 0 ∧ r.dItem 0 = b.dItem 1) ∧
        (b.dItem 1 = BitVec.intMin w.xlen → (b.dItem 0).toInt = -1 →
          r.dItem 1 = BitVec.intMin w.xlen ∧ r.dItem 0 = 0) ∧
        (b.dItem 0 ≠ 0 → ¬(b.dItem 1 = BitVec.intMin w.xlen ∧ (b.dItem 0).toInt = -1) →
          (r.dItem 1).toInt = (b.dItem 1).toInt.tdiv (b.dItem 0).toInt ∧
          (r.dItem 0).toInt = (b.dItem 1).toInt - (b.dItem 1).toInt.tdiv (b.dItem 0).toInt * (b.dItem 0).toInt) ∧
        b.dItem 1 = r.dItem 1 * b.dItem 0 + r.dItem 0 ∧
        (b.dItem 0 ≠ 0 → (r.dItem 0).toInt.natAbs < (b.dItem 0).toInt.natAbs)) ∧
      (∃ r, exec .udivmod ⟨w, b⟩ = .next ⟨w, r⟩ ∧ KeptBut [] b r ∧ MemKeptBut (b.dAddr 1) (2 * w.bytes) b r ∧
        (b.dItem 0 = 0 → r.dItem 1 = 0 ∧ r.dItem 0 = b.dItem 1) ∧
        (b.dItem 0 ≠ 0 → (r.dItem 1).toNat = (b.dItem 1).toNat / (b.dItem 0).toNat ∧
          (r.dItem 0).toNat = (b.dItem 1).toNat % (b.dItem 0).toNat))) ∧
    PopsTwo .divmod b ∧ PopsTwo .udivmod b

/-- Rules R113 to R115: the boolean word is 1 when the word beneath equals, is signed below, is unsigned below the top, and 0
otherwise; the stack faults. -/
def Obligations.ComparisonResults : Prop :=
  ∀ (w : WordSize) (b : Block w), b.mem.wf = true →
    HasWord w 0x1DF .eq ∧ HasWord w 0x1EF .lt ∧ HasWord w 0x1FF .ult ∧
    (b.dHas 2 →
      (b.dItem 1 = b.dItem 0 → ReplacesTwo .eq b 1) ∧ (b.dItem 1 ≠ b.dItem 0 → ReplacesTwo .eq b 0) ∧
      ((b.dItem 1).toInt < (b.dItem 0).toInt → ReplacesTwo .lt b 1) ∧
      ((b.dItem 0).toInt ≤ (b.dItem 1).toInt → ReplacesTwo .lt b 0) ∧
      ((b.dItem 1).toNat < (b.dItem 0).toNat → ReplacesTwo .ult b 1) ∧
      ((b.dItem 0).toNat ≤ (b.dItem 1).toNat → ReplacesTwo .ult b 0)) ∧
    PopsTwo .eq b ∧ PopsTwo .lt b ∧ PopsTwo .ult b

/-! ### Stack manipulation (42_stack.md) -/

/-- Rules R120, R121: `POP` discards; `DUP` replaces its depth operand `k` by a copy of the item `k` places below what
remains, and raises when there is none, `k` being consumed. -/
def Obligations.PopAndDup : Prop :=
  ∀ (w : WordSize) (b : Block w), b.mem.wf = true →
    HasWord w 0x08F .pop ∧ HasWord w 0x09F .dup ∧
    (b.dHas 1 → ∃ r, exec .pop ⟨w, b⟩ = .next ⟨w, r⟩ ∧ r.dp = b.dp - 1 ∧ KeptBut [.dp] b r ∧ MemKept b r) ∧
    (b.dHas 1 → (b.dItem 0).toNat + 2 ≤ b.dp.toNat → b.valid (b.dAddr ((b.dItem 0).toNat + 1)) w.bytes = true →
      ReplacesTop .dup b (b.dItem ((b.dItem 0).toNat + 1))) ∧
    (b.dHas 1 → b.dp.toNat < (b.dItem 0).toNat + 2 →
      RaisesAt .dup b .stackUnderflow (b.setDp (b.dp - 1))) ∧
    PopsOne .pop b ∧ PopsOne .dup b

/-- Rules R122, R123: `SET` pops the depth `k` and a value and overwrites the item `k` places below what remains; `SWAP` pops
`k` and exchanges the top of what remains with the item `k + 1` places below it. Each raises when the stack is too shallow,
its operands being consumed. -/
def Obligations.SetAndSwap : Prop :=
  ∀ (w : WordSize) (b : Block w), b.mem.wf = true →
    HasWord w 0x0AF .set ∧ HasWord w 0x0BF .swap ∧
    (b.dHas 2 → (b.dItem 0).toNat + 3 ≤ b.dp.toNat → b.valid (b.dAddr ((b.dItem 0).toNat + 2)) w.bytes = true →
      ∃ r, exec .set ⟨w, b⟩ = .next ⟨w, r⟩ ∧ r.dp = b.dp - 2 ∧
        r.dItem (b.dItem 0).toNat = b.dItem 1 ∧ KeptBut [.dp] b r ∧
        MemKeptBut (b.dAddr ((b.dItem 0).toNat + 2)) w.bytes b r) ∧
    (b.dHas 2 → b.dp.toNat < (b.dItem 0).toNat + 3 →
      RaisesAt .set b .stackUnderflow (b.setDp (b.dp - 2))) ∧
    (b.dHas 2 → (b.dItem 0).toNat + 3 ≤ b.dp.toNat → b.valid (b.dAddr ((b.dItem 0).toNat + 2)) w.bytes = true →
      ∃ r, exec .swap ⟨w, b⟩ = .next ⟨w, r⟩ ∧ r.dp = b.dp - 1 ∧
        r.dItem 0 = b.dItem ((b.dItem 0).toNat + 2) ∧ r.dItem ((b.dItem 0).toNat + 1) = b.dItem 1 ∧
        KeptBut [.dp] b r ∧
        ∀ c, (∀ i < w.bytes, c ≠ byteAddr (b.dAddr 1) i) →
          (∀ i < w.bytes, c ≠ byteAddr (b.dAddr ((b.dItem 0).toNat + 2)) i) → r.mem.get c = b.mem.get c) ∧
    (b.dHas 1 → b.dp.toNat < (b.dItem 0).toNat + 3 →
      RaisesAt .swap b .stackUnderflow (b.setDp (b.dp - 1))) ∧
    PopsTwo .set b ∧ PopsOne .swap b

/-- Rules R124 to R126: `PUSHS` and `POPS` move the top word from one stack to the other, `DUPS` copies it; each fault leaves
the pop before it done. -/
def Obligations.ReturnStackMoves : Prop :=
  ∀ (w : WordSize) (b : Block w), b.mem.wf = true →
    HasWord w 0x20F .pushs ∧ HasWord w 0x21F .pops ∧ HasWord w 0x22F .dups ∧
    (b.dHas 1 → b.sRoom 1 → ∃ r, exec .pushs ⟨w, b⟩ = .next ⟨w, r⟩ ∧ r.dp = b.dp - 1 ∧ r.sp = b.sp + 1 ∧
      r.sItem 0 = b.dItem 0 ∧ KeptBut [.dp, .sp] b r ∧ MemKeptBut b.sFree w.bytes b r) ∧
    (b.dHas 1 → b.ssize.toNat ≤ b.sp.toNat → RaisesAt .pushs b .stackOverflow (b.setDp (b.dp - 1))) ∧
    PopsOne .pushs b ∧
    (b.sHas 1 → b.dRoom → ∃ r, exec .pops ⟨w, b⟩ = .next ⟨w, r⟩ ∧ r.sp = b.sp - 1 ∧ r.dp = b.dp + 1 ∧
      r.dItem 0 = b.sItem 0 ∧ KeptBut [.dp, .sp] b r ∧ MemKeptBut b.dFree w.bytes b r) ∧
    (b.sHas 1 → b.dsize.toNat ≤ b.dp.toNat → RaisesAt .pops b .stackOverflow (b.setSp (b.sp - 1))) ∧
    (b.sHas 1 → b.dRoom → Pushes .dups b (b.sItem 0)) ∧
    (b.sHas 1 → b.dsize.toNat ≤ b.dp.toNat → RaisesAt .dups b .stackOverflow b) ∧
    (b.sp.toNat = 0 → RaisesAt .pops b .stackUnderflow b ∧ RaisesAt .dups b .stackUnderflow b) ∧
    (b.ssize.toNat < b.sp.toNat → RaisesAt .pops b .stackOverflow b ∧ RaisesAt .dups b .stackOverflow b)

/-! ### Control transfer (43_control.md) -/

/-- Rules R130, R131: `JUMP` and `JUMPZ`; `JUMPZ` takes the address on top and the flag beneath, consumes both, and checks the
address only when the flag is 0. -/
def Obligations.JumpsThroughTheStack : Prop :=
  ∀ (w : WordSize) (b : Block w),
    HasWord w 0x0CF .jump ∧ HasWord w 0x0DF .jumpz ∧
    (b.dHas 1 → (b.dItem 0).toNat % w.bytes = 0 → ∃ r, exec .jump ⟨w, b⟩ = .next ⟨w, r⟩ ∧ r.pc = b.dItem 0 ∧
      r.dp = b.dp - 1 ∧ KeptBut [.pc, .dp] b r ∧ MemKept b r) ∧
    (b.dHas 1 → (b.dItem 0).toNat % w.bytes ≠ 0 →
      RaisesAt .jump b .unalignedAddress (b.setDp (b.dp - 1))) ∧
    PopsOne .jump b ∧
    (b.dHas 2 → b.dItem 1 = 0 → (b.dItem 0).toNat % w.bytes = 0 → ∃ r, exec .jumpz ⟨w, b⟩ = .next ⟨w, r⟩ ∧
      r.pc = b.dItem 0 ∧ r.dp = b.dp - 2 ∧ KeptBut [.pc, .dp] b r ∧ MemKept b r) ∧
    (b.dHas 2 → b.dItem 1 ≠ 0 → ∃ r, exec .jumpz ⟨w, b⟩ = .next ⟨w, r⟩ ∧ r.dp = b.dp - 2 ∧
      KeptBut [.dp] b r ∧ MemKept b r) ∧
    (b.dHas 2 → b.dItem 1 = 0 → (b.dItem 0).toNat % w.bytes ≠ 0 →
      RaisesAt .jumpz b .unalignedAddress (b.setDp (b.dp - 2))) ∧
    PopsTwo .jumpz b

/-- Rule R133: `RET`, the plain return, the return that crosses the handler boundary, and each of its faults (the last two with
`pc` already at the return address). -/
def Obligations.RetReturnsAndLeavesRegion : Prop :=
  ∀ (w : WordSize) (b : Block w), b.mem.wf = true →
    HasWord w 0x0FF .ret ∧
    (b.sHas 1 → (b.sItem 0).toNat % w.bytes = 0 → b.handlerSp.toNat ≤ b.sp.toNat - 1 →
      ∃ r, exec .ret ⟨w, b⟩ = .next ⟨w, r⟩ ∧ r.pc = b.sItem 0 ∧ r.sp = b.sp - 1 ∧
        KeptBut [.pc, .sp] b r ∧ MemKept b r) ∧
    (b.sHas 2 → (b.sItem 0).toNat % w.bytes = 0 → b.sp.toNat - 1 < b.handlerSp.toNat → b.dRoom →
      ∃ r, exec .ret ⟨w, b⟩ = .next ⟨w, r⟩ ∧ r.pc = b.sItem 0 ∧ r.sp = b.sp - 2 ∧ r.handlerSp = b.sItem 1 ∧
        r.dp = b.dp + 1 ∧ r.dItem 0 = 0 ∧
        KeptBut [.pc, .sp, .handlerSp, .dp] b r ∧ MemKeptBut b.dFree w.bytes b r) ∧
    (b.sp.toNat = 0 → RaisesAt .ret b .stackUnderflow b) ∧
    (b.ssize.toNat < b.sp.toNat → RaisesAt .ret b .stackOverflow b) ∧
    (b.sHas 1 → (b.sItem 0).toNat % w.bytes ≠ 0 → RaisesAt .ret b .unalignedAddress (b.setSp (b.sp - 1))) ∧
    (b.sHas 1 → (b.sItem 0).toNat % w.bytes = 0 → b.sp.toNat = 1 → 0 < b.handlerSp.toNat →
      RaisesAt .ret b .stackUnderflow ((b.setSp 0).setPc (b.sItem 0))) ∧
    (b.sHas 2 → (b.sItem 0).toNat % w.bytes = 0 → b.sp.toNat - 1 < b.handlerSp.toNat →
      b.dsize.toNat ≤ b.dp.toNat →
      RaisesAt .ret b .stackOverflow (((b.setSp (b.sp - 2)).setPc (b.sItem 0)).setHandlerSp (b.sItem 1)))

/-- Rule R134: `CATCH` builds a two-word frame, makes it the active handler and jumps; with fewer than two free slots, or a
misaligned target, neither word is pushed. -/
def Obligations.CatchInstallsFrame : Prop :=
  ∀ (w : WordSize) (b : Block w), b.mem.wf = true →
    HasWord w 0x23F .catch_ ∧
    (b.dHas 1 → (b.dItem 0).toNat % w.bytes = 0 → b.sRoom 2 → ∃ r, exec .catch_ ⟨w, b⟩ = .next ⟨w, r⟩ ∧
      r.pc = b.dItem 0 ∧ r.dp = b.dp - 1 ∧ r.sp = b.sp + 2 ∧ r.handlerSp = b.sp + 2 ∧
      r.sItem 1 = b.handlerSp ∧ r.sItem 0 = b.pc ∧
      KeptBut [.pc, .dp, .sp, .handlerSp] b r ∧ MemKeptBut b.sFree (2 * w.bytes) b r) ∧
    (b.dHas 1 → (b.dItem 0).toNat % w.bytes ≠ 0 →
      RaisesAt .catch_ b .unalignedAddress (b.setDp (b.dp - 1))) ∧
    (b.dHas 1 → (b.dItem 0).toNat % w.bytes = 0 → b.ssize.toNat < b.sp.toNat + 2 →
      RaisesAt .catch_ b .stackOverflow (b.setDp (b.dp - 1))) ∧
    PopsOne .catch_ b

/-- Rule R135: `THROW` delivers the popped word, or the code of its failed pop, to `Raise`, handler or no handler. With none
the run loop stops: an embedder's `RUN` returns the word. With an intact handler frame the code stays on top of the data stack
and the frame is taken down. -/
def Obligations.ThrowDeliversCode : Prop :=
  ∀ (w : WordSize) (b : Block w), b.mem.wf = true →
    HasWord w 0x24F .throw_ ∧
    (b.dHas 1 → exec .throw_ ⟨w, b⟩ = (raiseCode (b.dItem 0) (b.setDp (b.dp - 1))).toOut) ∧
    (b.dHas 1 → b.handlerSp = 0 → b.act = .run .host → ∃ r, exec .throw_ ⟨w, b⟩ = .next ⟨w, r⟩ ∧
      r.act = .idle ∧ r.io = { b.io with results := b.io.results ++ [.word (b.dItem 0)] } ∧
      r.dp = b.dp - 1 ∧ (∀ x : Reg, x ≠ .dp → r.reg x = b.reg x) ∧ MemKept b r ∧
      r.cfg = b.cfg ∧ r.sst = b.sst ∧ r.dbg = b.dbg) ∧
    (b.dHas 1 → 2 ≤ b.handlerSp.toNat → b.handlerSp.toNat ≤ b.ssize.toNat →
      b.valid (b.sSlot (b.handlerSp - 1)) w.bytes = true → b.valid (b.sSlot (b.handlerSp - 2)) w.bytes = true →
      ∃ r, exec .throw_ ⟨w, b⟩ = .next ⟨w, r⟩ ∧ r.pc = b.word (b.sSlot (b.handlerSp - 1)) ∧
        r.handlerSp = b.word (b.sSlot (b.handlerSp - 2)) ∧ r.sp = b.handlerSp - 2 ∧ r.dItem 0 = b.dItem 0 ∧
        KeptBut [.pc, .handlerSp, .sp] b r ∧ MemKept b r) ∧
    (b.dp.toNat = 0 → RaisesAt .throw_ b .stackUnderflow b) ∧
    (b.dsize.toNat < b.dp.toNat → RaisesAt .throw_ b .stackOverflow b)

/-- Rule R136: `BREAK` moves `pc` back to its own word and stops the run loop with the code `BREAK`, handler or no handler:
control goes back to whoever started the run (the embedder: R85, R183; SST: R175; the stub: R211), and nothing else changes.
That this happens in the same step is the model's choice (log 11). -/
def Obligations.BreakStopsOnItself : Prop :=
  ∀ (w : WordSize) (b : Block w), HasWord w 0x25F .break_ ∧ ∃ r, exec .break_ ⟨w, b⟩ = .next ⟨w, r⟩ ∧ r.pc = b.pc - w.step ∧
    (∀ x : Reg, x ≠ .pc → r.reg x = b.reg x) ∧ MemKept b r ∧ r.cfg = b.cfg ∧ r.sst = b.sst ∧ r.dbg = b.dbg ∧
    (b.act = .run .host ∨ b.act = .run .direct → r.act = .idle ∧
      r.io = { b.io with results := b.io.results ++ [.word (BitVec.ofInt w.xlen (-256))] }) ∧
    (b.act = .run .sst → r.act = .sst (.disarm (BitVec.ofInt w.xlen (-256))) ∧ r.io = b.io) ∧
    (b.act = .run .debug → r.act = .dbg (.stopped (BitVec.ofInt w.xlen (-256))) ∧ r.io = b.io)

/-! ### Memory access (44_memory_access.md) -/

/-- Rules R140, R142, R144, R146: a load replaces the address on top by the bytes there, zero-extended; a misaligned address
raises, the address being consumed and nothing read. -/
def Obligations.LoadsReadMemory : Prop :=
  ∀ (w : WordSize) (b : Block w), b.mem.wf = true →
    HasWord w 0x10F .load ∧ HasWord w 0x12F .load1 ∧ HasWord w 0x14F .load2 ∧ HasWord w 0x16F .load4 ∧
    (∀ p ∈ ([(.load, w.bytes), (.load1, 1), (.load2, 2), (.load4, 4)] : List (Instr × Nat)),
      (b.dHas 1 → (b.dItem 0).toNat % p.2 = 0 → b.valid (b.dItem 0) p.2 = true →
        ReplacesTop p.1 b (BitVec.ofNat w.xlen (b.peek (b.dItem 0) p.2))) ∧
      (b.dHas 1 → (b.dItem 0).toNat % p.2 ≠ 0 →
        RaisesAt p.1 b .unalignedAddress (b.setDp (b.dp - 1))) ∧
      PopsOne p.1 b)

/-- Rules R141, R143, R145, R147: a store writes the low bits of the word beneath the address; a misaligned address raises,
both operands being consumed and nothing written. -/
def Obligations.StoresWriteMemory : Prop :=
  ∀ (w : WordSize) (b : Block w), b.mem.wf = true →
    HasWord w 0x11F .store ∧ HasWord w 0x13F .store1 ∧ HasWord w 0x15F .store2 ∧ HasWord w 0x17F .store4 ∧
    (∀ p ∈ ([(.store, w.bytes), (.store1, 1), (.store2, 2), (.store4, 4)] : List (Instr × Nat)),
      (b.dHas 2 → (b.dItem 0).toNat % p.2 = 0 → b.valid (b.dItem 0) p.2 = true →
        ∃ r, exec p.1 ⟨w, b⟩ = .next ⟨w, r⟩ ∧ r.dp = b.dp - 2 ∧
          r.peek (b.dItem 0) p.2 = (b.dItem 1).toNat % 2 ^ (8 * p.2) ∧
          KeptBut [.dp] b r ∧ MemKeptBut (b.dItem 0) p.2 b r) ∧
      (b.dHas 2 → (b.dItem 0).toNat % p.2 ≠ 0 →
        RaisesAt p.1 b .unalignedAddress (b.setDp (b.dp - 2))) ∧
      PopsTwo p.1 b)

/-! ### Register introspection (45_registers.md) -/

/-- Rules R150, R151, R152, R154, R155, R157: each getter pushes the value its register had, and raises on a full stack. -/
def Obligations.GettersPushRegisters : Prop :=
  ∀ (w : WordSize) (b : Block w), b.mem.wf = true →
    HasWord w 0x26F .wordBytes ∧ HasWord w 0x27F .getSsize ∧ HasWord w 0x28F .getSp ∧ HasWord w 0x2AF .getDsize ∧
    HasWord w 0x2BF .getDp ∧ HasWord w 0x2DF .getHandlerSp ∧
    (∀ p ∈ ([(.wordBytes, BitVec.ofNat w.xlen w.bytes), (.getSsize, b.ssize), (.getSp, b.sp), (.getDsize, b.dsize),
        (.getDp, b.dp), (.getHandlerSp, b.handlerSp)] : List (Instr × Word w)),
      (b.dRoom → Pushes p.1 b p.2) ∧ (b.dsize.toNat ≤ b.dp.toNat → RaisesAt p.1 b .stackOverflow b))

/-- Rules R153, R156: `SET_SP` and `SET_DP` write the popped word unchecked; `SET_DP`'s replaces the depth the pop left. -/
def Obligations.SettersWriteDepths : Prop :=
  ∀ (w : WordSize) (b : Block w),
    HasWord w 0x29F .setSp ∧ HasWord w 0x2CF .setDp ∧
    (b.dHas 1 → ∃ r, exec .setSp ⟨w, b⟩ = .next ⟨w, r⟩ ∧ r.sp = b.dItem 0 ∧ r.dp = b.dp - 1 ∧
      KeptBut [.sp, .dp] b r ∧ MemKept b r) ∧
    (b.dHas 1 → ∃ r, exec .setDp ⟨w, b⟩ = .next ⟨w, r⟩ ∧ r.dp = b.dItem 0 ∧ KeptBut [.dp] b r ∧ MemKept b r) ∧
    PopsOne .setSp b ∧ PopsOne .setDp b

/-- Rule R158: whatever an instruction does, its faults and their unwinding included, the four registers that describe the
stack arrays, the parameters, SST's and DBG's hidden registers are as before. -/
def Obligations.NoInstructionMovesTheStacks : Prop :=
  ∀ (w : WordSize) (b : Block w) (i : Instr) (t : State), exec i ⟨w, b⟩ = .next t →
    ∃ r : Block w, t = ⟨w, r⟩ ∧ r.d0 = b.d0 ∧ r.dsize = b.dsize ∧ r.s0 = b.s0 ∧ r.ssize = b.ssize ∧
      r.cfg = b.cfg ∧ r.sst = b.sst ∧ r.dbg = b.dbg

/-! ### TRAP (46_trap.md). The form of the host's functions is the model's (log 9). -/

/-- Rule R160 and log 9: the library test before the pop; an unknown id raises with the id consumed; three host functions to
the end: one that does nothing, one that pops a word and pushes its sum with a constant, one that pushes a word from outside
(the free value `Config.hostWord` of the id, the data stack, memory and the host's own state, whatever it is), the host's own
state moving on. A function that does what the host decides is its list of acts (`Config.hostActs` of the same), as part of
the instruction. -/
def Obligations.TrapCallsTheHost : Prop :=
  ∀ (w : WordSize) (b : Block w), b.mem.wf = true →
    (∀ lib : Int, lib ≠ 0 → RaisesAt (.trap lib) b .invalidLibrary b) ∧
    PopsOne (.trap 0) b ∧
    (b.dHas 1 → b.cfg.trapHost.lookup (b.dItem 0) = none →
      RaisesAt (.trap 0) b .invalidFunction (b.setDp (b.dp - 1))) ∧
    (b.dHas 1 → b.cfg.trapHost.lookup (b.dItem 0) = some .done → ∃ r, exec (.trap 0) ⟨w, b⟩ = .next ⟨w, r⟩ ∧
      r.dp = b.dp - 1 ∧ KeptBut [.dp] b r ∧ MemKept b r) ∧
    (∀ k : Word w, b.dHas 2 →
      b.cfg.trapHost.lookup (b.dItem 0) = some (.pop (.push (.sum (.got 0) (.lit k)) .done)) →
      ReplacesTwo (.trap 0) b (b.dItem 1 + k)) ∧
    (b.dHas 1 → b.cfg.trapHost.lookup (b.dItem 0) = some (.push .outside .done) →
      ∃ r, exec (.trap 0) ⟨w, b⟩ = .next ⟨w, r⟩ ∧
        r.dItem 0 = Config.hostWord ((b.setDp (b.dp - 1)).hostView (b.dItem 0) []) ∧
        r.io = { b.io with host := Config.hostNext ((b.setDp (b.dp - 1)).hostView (b.dItem 0) []),
                           hostSeq := b.io.hostSeq + 1 } ∧
        (∀ x : Reg, r.reg x = b.reg x) ∧
        r.cfg = b.cfg ∧ r.sst = b.sst ∧ r.dbg = b.dbg ∧ r.act = b.act ∧ MemKeptBut (b.dAddr 0) w.bytes b r) ∧
    (b.dHas 1 → b.cfg.trapHost.lookup (b.dItem 0) = some .free →
      exec (.trap 0) ⟨w, b⟩ = perform ⟨w, (b.setDp (b.dp - 1)).hostAsked (b.dItem 0) []⟩
        (runActs (Config.hostActs ((b.setDp (b.dp - 1)).hostView (b.dItem 0) []))))

/-- Rule R161: a host function that ends, of the model's form or any list of acts, changes no register but `dp`: not `pc`, not
the return stack's depth, not `handler_sp`, `d0`, `dsize`, `s0`, `ssize`; nor the parameters, SST, DBG, the run's caller, or any
port but the host's own state and the counter of its free values (log 9). Memory it may write (R161), and nothing is said of
it. -/
def Obligations.TrapHostChangesNoRegisterButDp : Prop :=
  ∀ (w : WordSize) (b r : Block w) (f : Word w) (p : HostProg w) (got : List (Word w)) (acts : List (HostAct w)),
    runHost f got p b = .ok () r ∨ runActs acts b = .ok () r →
    (∀ x : Reg, x ≠ .dp → r.reg x = b.reg x) ∧ r.cfg = b.cfg ∧ r.sst = b.sst ∧ r.dbg = b.dbg ∧ r.act = b.act ∧
      r.io = { b.io with host := r.io.host, hostSeq := r.io.hostSeq } ∧ b.io.hostSeq ≤ r.io.hostSeq

/-! ### Taking an exception (60_exceptions.md) -/

/-- Rule R232 with the values of the codes (R230): with a handler active a raised code is unwound; with none it ends the run
loop and, when the embedder's `RUN` is in progress (R85, R80), is returned on HOST with nothing else changed. -/
def Obligations.RaiseStopsOrUnwinds : Prop :=
  ∀ (w : WordSize) (b : Block w) (c : Word w),
    (∀ p ∈ ([(.ok, 0), (.invalidOpcode, -1), (.stackUnderflow, -2), (.stackOverflow, -3), (.unalignedAddress, -4),
        (.invalidLibrary, -16), (.invalidFunction, -17), (.break_, -256)] : List (ErrCode × Int)),
      (p.1.word w).toInt = p.2) ∧
    (b.handlerSp = 0 → raiseCode c b = .next (.stop c, b)) ∧
    (b.handlerSp ≠ 0 → raiseCode c b = unwind c b) ∧
    (b.handlerSp = 0 → b.act = .run .host → ∃ r, (raiseCode c b).toOut = .next ⟨w, r⟩ ∧ r.act = .idle ∧
      r.io = { b.io with results := b.io.results ++ [.word c] } ∧ (∀ x : Reg, r.reg x = b.reg x) ∧ MemKept b r ∧
      r.cfg = b.cfg ∧ r.sst = b.sst ∧ r.dbg = b.dbg)

/-- Rule R233: taking an exception with a handler active, all six steps: the code on the data stack when there is room and
dropped when there is none, the return stack cut to the frame, `pc` and `handler_sp` from the frame's two words. -/
def Obligations.UnwindEntersHandler : Prop :=
  ∀ (w : WordSize) (b : Block w) (c : Word w), b.mem.wf = true →
    2 ≤ b.handlerSp.toNat → b.handlerSp.toNat ≤ b.ssize.toNat →
    b.valid (b.sSlot (b.handlerSp - 1)) w.bytes = true → b.valid (b.sSlot (b.handlerSp - 2)) w.bytes = true →
    (b.dRoom → ∃ r, unwind c b = .next (.continue_, r) ∧ r.dp = b.dp + 1 ∧ r.dItem 0 = c ∧
      MemKeptBut b.dFree w.bytes b r ∧ r.sp = b.handlerSp - 2 ∧ r.pc = r.word (b.sSlot (b.handlerSp - 1)) ∧
      r.handlerSp = r.word (b.sSlot (b.handlerSp - 2)) ∧ KeptBut [.dp, .sp, .pc, .handlerSp] b r) ∧
    (b.dsize.toNat ≤ b.dp.toNat → ∃ r, unwind c b = .next (.continue_, r) ∧
      r.sp = b.handlerSp - 2 ∧ r.pc = b.word (b.sSlot (b.handlerSp - 1)) ∧
      r.handlerSp = b.word (b.sSlot (b.handlerSp - 2)) ∧ KeptBut [.sp, .pc, .handlerSp] b r ∧ MemKept b r)

/-- Rule R234: a handler frame that cannot be popped stops the run loop with the failing pop's code, not the original one;
`pc` and `handler_sp` are as before, and `sp` is `handler_sp` less the pops that succeeded. -/
def Obligations.FaultInsideUnwindStops : Prop :=
  ∀ (w : WordSize) (b : Block w) (c : Word w), b.mem.wf = true →
    (b.dp.toNat < b.dsize.toNat → b.valid b.dFree w.bytes = true) →
    (b.ssize.toNat < b.handlerSp.toNat → ∃ r, unwind c b = .next (.stop (ErrCode.stackOverflow.word w), r) ∧
      r.sp = b.handlerSp ∧ KeptBut [.dp, .sp] b r ∧
      (b.dp.toNat < b.dsize.toNat → r.dp = b.dp + 1 ∧ r.dItem 0 = c ∧ MemKeptBut b.dFree w.bytes b r) ∧
      (b.dsize.toNat ≤ b.dp.toNat → r.dp = b.dp ∧ MemKept b r)) ∧
    (b.handlerSp.toNat = 1 → 1 ≤ b.ssize.toNat → b.valid (b.sSlot 0) w.bytes = true →
      ∃ r, unwind c b = .next (.stop (ErrCode.stackUnderflow.word w), r) ∧ r.sp = 0 ∧ KeptBut [.dp, .sp] b r ∧
        (b.dp.toNat < b.dsize.toNat → r.dp = b.dp + 1 ∧ r.dItem 0 = c ∧ MemKeptBut b.dFree w.bytes b r) ∧
        (b.dsize.toNat ≤ b.dp.toNat → r.dp = b.dp ∧ MemKept b r))

/-- The source's property in R134 and R240: `CATCH` then `RET` leaves exactly one 0 on the data stack, in place of the target
address, resumes after the `CATCH`, and restores the handler and the return stack's depth. -/
def Obligations.CatchThenRetIsTransparent : Prop :=
  ∀ (w : WordSize) (b : Block w), b.mem.wf = true → b.dHas 1 → (b.dItem 0).toNat % w.bytes = 0 →
    b.pc.toNat % w.bytes = 0 → b.sRoom 2 →
    ∃ r r' : Block w, exec .catch_ ⟨w, b⟩ = .next ⟨w, r⟩ ∧ exec .ret ⟨w, r⟩ = .next ⟨w, r'⟩ ∧
      r'.pc = b.pc ∧ r'.dp = b.dp ∧ r'.dItem 0 = 0 ∧ KeptBut [] b r'

/-- R240, R15: a code thrown right inside a protected region reaches the word after the `CATCH` with the code on top, and the
handler and the return stack's depth are again what they were before the `CATCH`. -/
def Obligations.CatchThenThrowReachesHandler : Prop :=
  ∀ (w : WordSize) (b : Block w), b.mem.wf = true → b.dHas 2 → (b.dItem 0).toNat % w.bytes = 0 → b.sRoom 2 →
    ∃ r r' : Block w, exec .catch_ ⟨w, b⟩ = .next ⟨w, r⟩ ∧ exec .throw_ ⟨w, r⟩ = .next ⟨w, r'⟩ ∧
      r'.pc = b.pc ∧ r'.dp = b.dp - 1 ∧ r'.dItem 0 = r.dItem 0 ∧ KeptBut [.dp] b r'

/-- Rules R16, R22, R133: every instruction but `CATCH`, run with no handler active, leaves `handler_sp` at 0; a `RET` is then
a plain return. -/
def Obligations.OnlyCatchInstallsHandlers : Prop :=
  ∀ (w : WordSize) (b : Block w) (i : Instr) (t : State), b.handlerSp = 0 → i ≠ .catch_ →
    exec i ⟨w, b⟩ = .next t → t.blk.handlerSp = 0

/-- Rule R46: every instruction that writes `pc` checks or preserves alignment; so does whatever an instruction does while no
handler is active (an unwinding could take a corrupted address from the frame). -/
def Obligations.InstructionsKeepPcAligned : Prop :=
  ∀ (w : WordSize) (b : Block w) (i : Instr) (t : State), b.handlerSp = 0 → aligned b.pc w.bytes = true →
    exec i ⟨w, b⟩ = .next t → aligned t.blk.pc t.w.bytes = true

/-! ### The run loop, reset, HOST (35_run_loop.md, 70_reset_and_hazards.md) -/

/-- A step of a run is the instruction that the word at `pc` decodes to, executed with `pc` advanced past it (R81, R83, R84).
A direct-mode `STEP` ends after it, with `BREAK`, when the instruction has not ended the run itself (R180, R183). -/
def Obligations.StepRunsDecodedInstruction : Prop :=
  ∀ (w : WordSize) (b : Block w) (c : Caller) (i : Instr), b.act = .run c → b.pc.toNat % w.bytes = 0 →
    b.valid b.pc w.bytes = true → decode w (b.word b.pc) = .ok i →
    (c ≠ .direct → step ⟨w, b⟩ = exec i ⟨w, b.setPc (b.pc + w.step)⟩) ∧
    (c = .direct → ∀ r : Block w, exec i ⟨w, b.setPc (b.pc + w.step)⟩ = .next ⟨w, r⟩ →
      (r.act = .run .direct →
        step ⟨w, b⟩ = .next ⟨w, (r.setAct .idle).answer (.word (BitVec.ofInt w.xlen (-256)))⟩) ∧
      (r.act ≠ .run .direct → step ⟨w, b⟩ = .next ⟨w, r⟩))

/-- Rules R81, R83: a misaligned `pc` raises `UNALIGNED_ADDRESS` with `pc` unchanged; an `INSN` word with an opcode above 0x2D
raises `INVALID_OPCODE` with `pc` advanced. A direct-mode `STEP` (R180, R183) then returns the code with which the iteration has
stopped the loop, or `BREAK` when a handler has taken it (in the same step: log 11). -/
def Obligations.FetchAndDecodeFaults : Prop :=
  ∀ (w : WordSize) (b : Block w) (c : Caller), b.act = .run c →
    (b.pc.toNat % w.bytes ≠ 0 → IterationRaises b c .unalignedAddress b) ∧
    (b.pc.toNat % w.bytes = 0 → b.valid b.pc w.bytes = true → (b.word b.pc).toNat % 16 = 15 →
      0x2D < (b.word b.pc).toNat / 16 → IterationRaises b c .invalidOpcode (b.setPc (b.pc + w.step)))

/-- The invariant of the machine (R6, R17, R40, R218): memory canonical and inside the address space, the stub's buffer within
its capacity, the receiver's digit a digit, the activity as `SST_MODE` allows. Every step keeps it, from every state. -/
def Obligations.StepKeepsInvariant : Prop :=
  ∀ s t : State, s.Inv → step s = .next t → t.Inv

/-- The machine after reset satisfies the invariant. -/
def Obligations.ResetHasInvariant : Prop := State.reset.Inv

/-- Rules R20, R260: the machine after reset: depths and `handler_sp` 0, capacities 4096, no predicted target, logging off,
signal 5, nothing in progress. That memory lists nothing says what the rules say of code and data memory (zero); that the words
of the stack arrays read 0 as well is the model's choice (log 4): the spec gives them any value (R20, U3). The addresses, the
width and SST's saved words are the model's choices too (logs 1, 2, 5) and are not stated. -/
def Obligations.ResetValues : Prop :=
  let b := State.reset.blk
  b.dp = 0 ∧ b.sp = 0 ∧ b.handlerSp = 0 ∧ b.dsize.toNat = 4096 ∧ b.ssize.toNat = 4096 ∧ b.mem = [] ∧
    b.sst.target = none ∧ b.sst.isRet = false ∧ b.dbg.verbose = false ∧ b.dbg.lastSignal = 5#8 ∧ b.act = .idle

/-- Rule R260: `INIT` writes every register from its parameters, clears the depths, `handler_sp`, the hidden registers that have
a value, and accesses no memory; execution does not start. That `INIT` is taken from a queue while the block is idle is log 7,
that the parameters of R6 stay is log 17. -/
def Obligations.InitResetsTheBlock : Prop :=
  ∀ (w : WordSize) (b : Block w) (p : InitParams w) (cs : List (HostCmd w)), b.act = .idle →
    b.io.cmds = .init p :: cs →
    ∃ r, step ⟨w, b⟩ = .next ⟨w, r⟩ ∧ r.pc = p.pc ∧ r.d0 = p.d0 ∧ r.dsize = p.dsize ∧ r.dp = 0 ∧ r.s0 = p.s0 ∧
      r.ssize = p.ssize ∧ r.sp = 0 ∧ r.handlerSp = 0 ∧ r.dbg.verbose = false ∧
      r.dbg.lastSignal = b.cfg.sigInit ∧ r.sst.target = none ∧ r.sst.isRet = false ∧ r.mem = b.mem ∧
      r.act = .idle ∧ r.cfg = b.cfg

/-- Rule R80: the embedder's `REG_READ`, `REG_WRITE` and `RUN`, each taken from the queue of log 7 while the block is idle:
`REG_READ` returns the register and changes nothing, `REG_WRITE` writes it unchecked and nothing else, `RUN` starts the run
loop. -/
def Obligations.HostRegisterAccess : Prop :=
  ∀ (w : WordSize) (b : Block w) (x : Reg) (v : Word w) (cs : List (HostCmd w)), b.act = .idle →
    (b.io.cmds = .regRead x :: cs → ∃ r, step ⟨w, b⟩ = .next ⟨w, r⟩ ∧
      r.io = { b.io with cmds := cs, results := b.io.results ++ [.word (b.reg x)] } ∧
      (∀ y : Reg, r.reg y = b.reg y) ∧ r.mem = b.mem ∧ r.act = .idle ∧
      r.cfg = b.cfg ∧ r.sst = b.sst ∧ r.dbg = b.dbg) ∧
    (b.io.cmds = .regWrite x v :: cs → ∃ r, step ⟨w, b⟩ = .next ⟨w, r⟩ ∧ r.io = { b.io with cmds := cs } ∧
      r.reg x = v ∧ (∀ y : Reg, y ≠ x → r.reg y = b.reg y) ∧ r.mem = b.mem ∧ r.act = .idle ∧
      r.cfg = b.cfg ∧ r.sst = b.sst ∧ r.dbg = b.dbg) ∧
    (b.io.cmds = .run :: cs → ∃ r, step ⟨w, b⟩ = .next ⟨w, r⟩ ∧ r.io = { b.io with cmds := cs } ∧
      (∀ y : Reg, r.reg y = b.reg y) ∧ r.mem = b.mem ∧ r.act = .run .host ∧
      r.cfg = b.cfg ∧ r.sst = b.sst ∧ r.dbg = b.dbg)

/-! ### Single step (50_single_step.md) -/

/-- Rule R172: the prediction is the address the instruction writes to `pc` if it completes. For every instruction that the
word at `pc` decodes to: if, run with `handler_sp` cleared, it completes without ending the run, then `Predict` has answered
exactly where `pc` is then, and whether the word is `RET`, and has changed nothing. -/
def Obligations.PredictionIsRight : Prop :=
  ∀ (w : WordSize) (b r : Block w) (c : Caller) (i : Instr), b.act = .run c → b.handlerSp = 0 →
    b.pc.toNat % w.bytes = 0 → b.valid b.pc w.bytes = true → decode w (b.word b.pc) = .ok i →
    exec i ⟨w, b.setPc (b.pc + w.step)⟩ = .next ⟨w, r⟩ → r.act = .run c →
    predict b = .ok (some r.pc, decide (i = .ret)) b

/-- Rules R174, R175: `ARM` saves the target's word and writes the `BREAK` word over it; `DISARM` puts the saved word back and
sets `pc` to the target exactly when the run stopped with `BREAK`; without a target neither touches memory. What the later
phases read (`sst_saved_h`, `sst_isret`) stays. That each phase is a step of its own is log 12. -/
def Obligations.SstArmsAndDisarms : Prop :=
  ∀ (w : WordSize) (b : Block w) (code : Word w), b.mem.wf = true →
    (∀ t, b.act = .sst .arm → b.sst.target = some t → b.valid t w.bytes = true →
      ∃ r, step ⟨w, b⟩ = .next ⟨w, r⟩ ∧ r.act = .sst .launch ∧ r.word t = 0x25F ∧
        r.sst = { b.sst with savedWord := b.word t } ∧ MemKeptBut t w.bytes b r ∧ (∀ x : Reg, r.reg x = b.reg x) ∧
        r.cfg = b.cfg ∧ r.dbg = b.dbg ∧ r.io = b.io) ∧
    (b.act = .sst .arm → b.sst.target = none → ∃ r, step ⟨w, b⟩ = .next ⟨w, r⟩ ∧ r.act = .sst .launch ∧
      r.sst = b.sst ∧ MemKept b r ∧ (∀ x : Reg, r.reg x = b.reg x) ∧ r.cfg = b.cfg ∧ r.dbg = b.dbg ∧ r.io = b.io) ∧
    (∀ t, b.act = .sst (.disarm code) → b.sst.target = some t → b.valid t w.bytes = true →
      ∃ r, step ⟨w, b⟩ = .next ⟨w, r⟩ ∧ r.act = .sst (.fixup code) ∧ r.word t = b.sst.savedWord ∧
        MemKeptBut t w.bytes b r ∧ (∀ x : Reg, x ≠ .pc → r.reg x = b.reg x) ∧
        (code = BitVec.ofInt w.xlen (-256) → r.pc = t) ∧ (code ≠ BitVec.ofInt w.xlen (-256) → r.pc = b.pc) ∧
        r.sst = b.sst ∧ r.cfg = b.cfg ∧ r.dbg = b.dbg ∧ r.io = b.io) ∧
    (b.act = .sst (.disarm code) → b.sst.target = none → ∃ r, step ⟨w, b⟩ = .next ⟨w, r⟩ ∧
      r.act = .sst (.fixup code) ∧ MemKept b r ∧ (∀ x : Reg, r.reg x = b.reg x) ∧
      r.sst = b.sst ∧ r.cfg = b.cfg ∧ r.dbg = b.dbg ∧ r.io = b.io)

/-- Rules R173, R176: the start of the run (the phase `launch`, the model's own cut: log 12) saves and clears `handler_sp`;
`FIXUP` restores it when the step installed no handler, and otherwise writes it into the frame the step installed, leaving
`handler_sp` alone. -/
def Obligations.SstSavesAndRestoresHandler : Prop :=
  ∀ (w : WordSize) (b : Block w) (code : Word w), b.mem.wf = true →
    (b.act = .sst .launch → ∃ r, step ⟨w, b⟩ = .next ⟨w, r⟩ ∧ r.act = .run .sst ∧ r.handlerSp = 0 ∧
      r.sst = { b.sst with savedH := b.handlerSp } ∧ MemKept b r ∧ (∀ x : Reg, x ≠ .handlerSp → r.reg x = b.reg x) ∧
      r.cfg = b.cfg ∧ r.dbg = b.dbg ∧ r.io = b.io) ∧
    (b.act = .sst (.fixup code) → b.handlerSp = 0 → ∃ r, step ⟨w, b⟩ = .next ⟨w, r⟩ ∧
      r.act = .sst (.replay code) ∧ r.handlerSp = b.sst.savedH ∧ MemKept b r ∧
      (∀ x : Reg, x ≠ .handlerSp → r.reg x = b.reg x) ∧
      r.sst = b.sst ∧ r.cfg = b.cfg ∧ r.dbg = b.dbg ∧ r.io = b.io) ∧
    (b.act = .sst (.fixup code) → b.handlerSp ≠ 0 → b.valid (b.sSlot (b.handlerSp - 2)) w.bytes = true →
      ∃ r, step ⟨w, b⟩ = .next ⟨w, r⟩ ∧ r.act = .sst (.replay code) ∧
        r.word (b.sSlot (b.handlerSp - 2)) = b.sst.savedH ∧ (∀ x : Reg, r.reg x = b.reg x) ∧
        MemKeptBut (b.sSlot (b.handlerSp - 2)) w.bytes b r ∧
        r.sst = b.sst ∧ r.cfg = b.cfg ∧ r.dbg = b.dbg ∧ r.io = b.io)

/-- Rules R171, R179, R180 on the instruction `JUMPI n`, `n` not -1 (hazard H3): a whole patch-mode `STEP` from its first
phase. After nine steps of the model (one a phase, two of the run loop: log 12) the block is idle, HOST has the result `BREAK`, `pc` is the jump's target, and every other
register, `handler_sp` included, and every byte of memory is as before. -/
def Obligations.PatchedStepOverJump : Prop :=
  ∀ (w : WordSize) (b : Block w) (n : Int), b.mem.wf = true → b.act = .sst .predict → b.pc.toNat % w.bytes = 0 →
    decode w (b.word b.pc) = .ok (.jumpi n) → n ≠ -1 → b.valid b.pc w.bytes = true →
    b.valid (BitVec.ofInt w.xlen (b.pc.toNat + w.bytes * (n + 1))) w.bytes = true →
    ∃ r : Block w, Host.Core.run Sys2Proof.core 9 (⟨w, b⟩ : State) = .next (⟨w, r⟩ : State) ∧ r.act = .idle ∧
      r.pc = BitVec.ofInt w.xlen (b.pc.toNat + w.bytes * (n + 1)) ∧ (∀ x : Reg, x ≠ .pc → r.reg x = b.reg x) ∧
      MemKept b r ∧ r.io = { b.io with results := b.io.results ++ [.word (BitVec.ofInt w.xlen (-256))] }

/-! ### The debug stub (55_debug_stub.md) -/

/-- Rules R193, R195: from `RX_IDLE`, a well-formed frame is received byte by byte: after the bytes of `$<p>#<cc>` the payload
`p` is in the buffer and its checksum in `dbg_sum`, one `+` has been emitted, the rest of the input is untouched, and the
command is next; nothing else of the machine changes. That the receiver takes one byte a step is log 13. -/
def Obligations.ReceiverTakesFrame : Prop :=
  ∀ (w : WordSize) (b : Block w) (p rest : List Byte), b.act = .dbg .recv → b.dbg.rx = .idle →
    ascii '$' ∉ p → ascii '#' ∉ p → p.length ≤ b.cfg.bufMax → b.io.rxBytes = frame p (checksum p) ++ rest →
    ∃ r : Block w, Host.Core.run Sys2Proof.core (p.length + 4) (⟨w, b⟩ : State) = .next (⟨w, r⟩ : State) ∧
      r.act = .dbg .dispatch ∧ r.dbg.buf = p ∧ r.io = { b.io with rxBytes := rest, txBytes := b.io.txBytes ++ [ascii '+'] } ∧
      r.dbg.sum = checksum p ∧ r.dbg.verbose = b.dbg.verbose ∧ r.dbg.lastSignal = b.dbg.lastSignal ∧
      (∀ x : Reg, r.reg x = b.reg x) ∧ r.mem = b.mem ∧ r.cfg = b.cfg ∧ r.sst = b.sst

/-- Rules R193, R195, R197: at the second checksum digit a wrong or invalid checksum is answered `-` and the receiver waits for
the next `$`; nothing of the machine changes. -/
def Obligations.BadChecksumIsRejected : Prop :=
  ∀ (w : WordSize) (b : Block w) (x : Byte) (xs : List Byte) (hi : Option Nat), b.act = .dbg .recv →
    b.dbg.rx = .ck2 hi → b.io.rxBytes = x :: xs →
    (∀ h l, hi = some h → hexVal x = some l → 16 * h + l ≠ b.dbg.sum.toNat) →
    ∃ r, step ⟨w, b⟩ = .next ⟨w, r⟩ ∧ r.act = .dbg .recv ∧ r.dbg = { b.dbg with rx := .idle } ∧
      r.io = { b.io with rxBytes := xs, txBytes := b.io.txBytes ++ [ascii '-'] } ∧
      (∀ y : Reg, r.reg y = b.reg y) ∧ r.mem = b.mem ∧ r.cfg = b.cfg ∧ r.sst = b.sst

/-- Rules R197, R206, R207: hex text reads back as the bytes it shows; so a `G` with the text that `g` gives writes every
register with the value it has and is answered `OK`. -/
def Obligations.ReadThenWriteRegistersIsIdentity : Prop :=
  (∀ bs : List Byte, unhex (hexText bs) = some bs) ∧
  ∀ (w : WordSize) (b : Block w), b.regBlock.length = 16 * w.bytes ∧
    command (ascii 'G' :: b.regBlock) b = .ok () (b.reply msgOk)

/-- Rule R218: only a well-formed `G`, `M` or `c<addr>` writes a register or a byte of memory. For every payload: the command
leaves all registers but `pc` and all memory alone, or it is a `G` or an `M` that is answered `OK`; and `pc` changes only with
`c` or such a `G`. -/
def Obligations.StubWritesOnlyOnCommand : Prop :=
  ∀ (w : WordSize) (b r : Block w) (payload : List Byte), command payload b = .ok () r →
    (r.mem ≠ b.mem → payload.head? = some (ascii 'M') ∧ r.dbg.buf = msgOk) ∧
    ((∃ x : Reg, x ≠ .pc ∧ r.reg x ≠ b.reg x) → payload.head? = some (ascii 'G') ∧ r.dbg.buf = msgOk) ∧
    (r.pc ≠ b.pc → (payload.head? = some (ascii 'G') ∧ r.dbg.buf = msgOk) ∨
      (payload.head? = some (ascii 'c') ∧ r.act = .run .debug))

/-- Rules R211, R214, R215, R217: what the stub does when the run it started has stopped, with the table of rule R214: code 0
ends the session with `halted`; any other code is translated, remembered, and reported. -/
def Obligations.StopIsReportedAsSignal : Prop :=
  ∀ (w : WordSize) (b : Block w) (code : Word w), b.act = .dbg (.stopped code) →
    (code = 0 → ∃ r, step ⟨w, b⟩ = .next ⟨w, r⟩ ∧ r.act = .idle ∧ r.dbg = b.dbg ∧
      r.io = { b.io with results := b.io.results ++ [.halted] } ∧
      (∀ x : Reg, r.reg x = b.reg x) ∧ r.mem = b.mem ∧ r.cfg = b.cfg ∧ r.sst = b.sst) ∧
    (code ≠ 0 → b.cfg.sigMap = Config.defaultSigMap → b.cfg.sigDefault = 6#8 →
      ∃ (r : Block w) (sig : Byte), step ⟨w, b⟩ = .next ⟨w, r⟩ ∧ r.act = .dbg .send ∧
        r.dbg = { b.dbg with lastSignal := sig, buf := ascii 'S' :: hex2 sig.toNat,
                             sum := checksum (ascii 'S' :: hex2 sig.toNat) } ∧
        r.io = b.io ∧ (∀ x : Reg, r.reg x = b.reg x) ∧ r.mem = b.mem ∧ r.cfg = b.cfg ∧ r.sst = b.sst ∧
        (code.toInt = -256 → sig = 5#8) ∧ (code.toInt = -1 → sig = 4#8) ∧
        (code.toInt = -2 ∨ code.toInt = -3 → sig = 11#8) ∧ (code.toInt = -4 → sig = 10#8) ∧
        (code.toInt = -16 ∨ code.toInt = -17 → sig = 12#8) ∧
        (code.toInt ∉ ([-256, -1, -2, -3, -4, -16, -17] : List Int) → sig = 6#8))
end

