-- ==== Sys2Proof/Laws/State.lean ====
section
/-! SUPPORT. What each update of the block leaves in each field, once: later proofs rewrite with these and never unfold a
record update. -/

namespace Sys2Proof.Machine

variable {w : WordSize}

section setPc
variable (b : Block w) (v : Word w)
@[simp] theorem Block.setPc_cfg : (b.setPc v).cfg = b.cfg := rfl
@[simp] theorem Block.setPc_pc : (b.setPc v).pc = v := rfl
@[simp] theorem Block.setPc_d0 : (b.setPc v).d0 = b.d0 := rfl
@[simp] theorem Block.setPc_dsize : (b.setPc v).dsize = b.dsize := rfl
@[simp] theorem Block.setPc_dp : (b.setPc v).dp = b.dp := rfl
@[simp] theorem Block.setPc_s0 : (b.setPc v).s0 = b.s0 := rfl
@[simp] theorem Block.setPc_ssize : (b.setPc v).ssize = b.ssize := rfl
@[simp] theorem Block.setPc_sp : (b.setPc v).sp = b.sp := rfl
@[simp] theorem Block.setPc_handlerSp : (b.setPc v).handlerSp = b.handlerSp := rfl
@[simp] theorem Block.setPc_mem : (b.setPc v).mem = b.mem := rfl
@[simp] theorem Block.setPc_sst : (b.setPc v).sst = b.sst := rfl
@[simp] theorem Block.setPc_dbg : (b.setPc v).dbg = b.dbg := rfl
@[simp] theorem Block.setPc_act : (b.setPc v).act = b.act := rfl
@[simp] theorem Block.setPc_io : (b.setPc v).io = b.io := rfl
@[simp] theorem Block.setPc_twice (u : Word w) : (b.setPc v).setPc u = b.setPc u := rfl
@[simp] theorem Block.setPc_same : b.setPc b.pc = b := rfl
@[simp] theorem Block.setPc_word (a : Word w) : (b.setPc v).word a = b.word a := rfl
@[simp] theorem Block.setPc_peek (a : Word w) (n : Nat) : (b.setPc v).peek a n = b.peek a n := rfl
@[simp] theorem Block.setPc_storeWord (a x : Word w) : (b.setPc v).storeWord a x = (b.storeWord a x).setPc v := rfl
@[simp] theorem Block.setPc_poke (a : Word w) (n x : Nat) : (b.setPc v).poke a n x = (b.poke a n x).setPc v := rfl
@[simp] theorem Block.setPc_valid (a : Word w) (n : Nat) : (b.setPc v).valid a n = b.valid a n := rfl
@[simp] theorem Block.setPc_dSlot (i : Word w) : (b.setPc v).dSlot i = b.dSlot i := rfl
@[simp] theorem Block.setPc_sSlot (i : Word w) : (b.setPc v).sSlot i = b.sSlot i := rfl
end setPc

section setDp
variable (b : Block w) (v : Word w)
@[simp] theorem Block.setDp_cfg : (b.setDp v).cfg = b.cfg := rfl
@[simp] theorem Block.setDp_pc : (b.setDp v).pc = b.pc := rfl
@[simp] theorem Block.setDp_d0 : (b.setDp v).d0 = b.d0 := rfl
@[simp] theorem Block.setDp_dsize : (b.setDp v).dsize = b.dsize := rfl
@[simp] theorem Block.setDp_dp : (b.setDp v).dp = v := rfl
@[simp] theorem Block.setDp_s0 : (b.setDp v).s0 = b.s0 := rfl
@[simp] theorem Block.setDp_ssize : (b.setDp v).ssize = b.ssize := rfl
@[simp] theorem Block.setDp_sp : (b.setDp v).sp = b.sp := rfl
@[simp] theorem Block.setDp_handlerSp : (b.setDp v).handlerSp = b.handlerSp := rfl
@[simp] theorem Block.setDp_mem : (b.setDp v).mem = b.mem := rfl
@[simp] theorem Block.setDp_sst : (b.setDp v).sst = b.sst := rfl
@[simp] theorem Block.setDp_dbg : (b.setDp v).dbg = b.dbg := rfl
@[simp] theorem Block.setDp_act : (b.setDp v).act = b.act := rfl
@[simp] theorem Block.setDp_io : (b.setDp v).io = b.io := rfl
@[simp] theorem Block.setDp_twice (u : Word w) : (b.setDp v).setDp u = b.setDp u := rfl
@[simp] theorem Block.setDp_same : b.setDp b.dp = b := rfl
@[simp] theorem Block.setDp_word (a : Word w) : (b.setDp v).word a = b.word a := rfl
@[simp] theorem Block.setDp_peek (a : Word w) (n : Nat) : (b.setDp v).peek a n = b.peek a n := rfl
@[simp] theorem Block.setDp_storeWord (a x : Word w) : (b.setDp v).storeWord a x = (b.storeWord a x).setDp v := rfl
@[simp] theorem Block.setDp_poke (a : Word w) (n x : Nat) : (b.setDp v).poke a n x = (b.poke a n x).setDp v := rfl
@[simp] theorem Block.setDp_valid (a : Word w) (n : Nat) : (b.setDp v).valid a n = b.valid a n := rfl
@[simp] theorem Block.setDp_dSlot (i : Word w) : (b.setDp v).dSlot i = b.dSlot i := rfl
@[simp] theorem Block.setDp_sSlot (i : Word w) : (b.setDp v).sSlot i = b.sSlot i := rfl
end setDp

section setSp
variable (b : Block w) (v : Word w)
@[simp] theorem Block.setSp_cfg : (b.setSp v).cfg = b.cfg := rfl
@[simp] theorem Block.setSp_pc : (b.setSp v).pc = b.pc := rfl
@[simp] theorem Block.setSp_d0 : (b.setSp v).d0 = b.d0 := rfl
@[simp] theorem Block.setSp_dsize : (b.setSp v).dsize = b.dsize := rfl
@[simp] theorem Block.setSp_dp : (b.setSp v).dp = b.dp := rfl
@[simp] theorem Block.setSp_s0 : (b.setSp v).s0 = b.s0 := rfl
@[simp] theorem Block.setSp_ssize : (b.setSp v).ssize = b.ssize := rfl
@[simp] theorem Block.setSp_sp : (b.setSp v).sp = v := rfl
@[simp] theorem Block.setSp_handlerSp : (b.setSp v).handlerSp = b.handlerSp := rfl
@[simp] theorem Block.setSp_mem : (b.setSp v).mem = b.mem := rfl
@[simp] theorem Block.setSp_sst : (b.setSp v).sst = b.sst := rfl
@[simp] theorem Block.setSp_dbg : (b.setSp v).dbg = b.dbg := rfl
@[simp] theorem Block.setSp_act : (b.setSp v).act = b.act := rfl
@[simp] theorem Block.setSp_io : (b.setSp v).io = b.io := rfl
@[simp] theorem Block.setSp_twice (u : Word w) : (b.setSp v).setSp u = b.setSp u := rfl
@[simp] theorem Block.setSp_same : b.setSp b.sp = b := rfl
@[simp] theorem Block.setSp_word (a : Word w) : (b.setSp v).word a = b.word a := rfl
@[simp] theorem Block.setSp_peek (a : Word w) (n : Nat) : (b.setSp v).peek a n = b.peek a n := rfl
@[simp] theorem Block.setSp_storeWord (a x : Word w) : (b.setSp v).storeWord a x = (b.storeWord a x).setSp v := rfl
@[simp] theorem Block.setSp_poke (a : Word w) (n x : Nat) : (b.setSp v).poke a n x = (b.poke a n x).setSp v := rfl
@[simp] theorem Block.setSp_valid (a : Word w) (n : Nat) : (b.setSp v).valid a n = b.valid a n := rfl
@[simp] theorem Block.setSp_dSlot (i : Word w) : (b.setSp v).dSlot i = b.dSlot i := rfl
@[simp] theorem Block.setSp_sSlot (i : Word w) : (b.setSp v).sSlot i = b.sSlot i := rfl
end setSp

section setHandlerSp
variable (b : Block w) (v : Word w)
@[simp] theorem Block.setHandlerSp_cfg : (b.setHandlerSp v).cfg = b.cfg := rfl
@[simp] theorem Block.setHandlerSp_pc : (b.setHandlerSp v).pc = b.pc := rfl
@[simp] theorem Block.setHandlerSp_d0 : (b.setHandlerSp v).d0 = b.d0 := rfl
@[simp] theorem Block.setHandlerSp_dsize : (b.setHandlerSp v).dsize = b.dsize := rfl
@[simp] theorem Block.setHandlerSp_dp : (b.setHandlerSp v).dp = b.dp := rfl
@[simp] theorem Block.setHandlerSp_s0 : (b.setHandlerSp v).s0 = b.s0 := rfl
@[simp] theorem Block.setHandlerSp_ssize : (b.setHandlerSp v).ssize = b.ssize := rfl
@[simp] theorem Block.setHandlerSp_sp : (b.setHandlerSp v).sp = b.sp := rfl
@[simp] theorem Block.setHandlerSp_handlerSp : (b.setHandlerSp v).handlerSp = v := rfl
@[simp] theorem Block.setHandlerSp_mem : (b.setHandlerSp v).mem = b.mem := rfl
@[simp] theorem Block.setHandlerSp_sst : (b.setHandlerSp v).sst = b.sst := rfl
@[simp] theorem Block.setHandlerSp_dbg : (b.setHandlerSp v).dbg = b.dbg := rfl
@[simp] theorem Block.setHandlerSp_act : (b.setHandlerSp v).act = b.act := rfl
@[simp] theorem Block.setHandlerSp_io : (b.setHandlerSp v).io = b.io := rfl
@[simp] theorem Block.setHandlerSp_twice (u : Word w) : (b.setHandlerSp v).setHandlerSp u = b.setHandlerSp u := rfl
@[simp] theorem Block.setHandlerSp_same : b.setHandlerSp b.handlerSp = b := rfl
@[simp] theorem Block.setHandlerSp_word (a : Word w) : (b.setHandlerSp v).word a = b.word a := rfl
@[simp] theorem Block.setHandlerSp_peek (a : Word w) (n : Nat) : (b.setHandlerSp v).peek a n = b.peek a n := rfl
@[simp] theorem Block.setHandlerSp_storeWord (a x : Word w) : (b.setHandlerSp v).storeWord a x = (b.storeWord a x).setHandlerSp v := rfl
@[simp] theorem Block.setHandlerSp_poke (a : Word w) (n x : Nat) : (b.setHandlerSp v).poke a n x = (b.poke a n x).setHandlerSp v := rfl
@[simp] theorem Block.setHandlerSp_valid (a : Word w) (n : Nat) : (b.setHandlerSp v).valid a n = b.valid a n := rfl
@[simp] theorem Block.setHandlerSp_dSlot (i : Word w) : (b.setHandlerSp v).dSlot i = b.dSlot i := rfl
@[simp] theorem Block.setHandlerSp_sSlot (i : Word w) : (b.setHandlerSp v).sSlot i = b.sSlot i := rfl
end setHandlerSp

section setMem
variable (b : Block w) (v : Memory)
@[simp] theorem Block.setMem_cfg : (b.setMem v).cfg = b.cfg := rfl
@[simp] theorem Block.setMem_pc : (b.setMem v).pc = b.pc := rfl
@[simp] theorem Block.setMem_d0 : (b.setMem v).d0 = b.d0 := rfl
@[simp] theorem Block.setMem_dsize : (b.setMem v).dsize = b.dsize := rfl
@[simp] theorem Block.setMem_dp : (b.setMem v).dp = b.dp := rfl
@[simp] theorem Block.setMem_s0 : (b.setMem v).s0 = b.s0 := rfl
@[simp] theorem Block.setMem_ssize : (b.setMem v).ssize = b.ssize := rfl
@[simp] theorem Block.setMem_sp : (b.setMem v).sp = b.sp := rfl
@[simp] theorem Block.setMem_handlerSp : (b.setMem v).handlerSp = b.handlerSp := rfl
@[simp] theorem Block.setMem_mem : (b.setMem v).mem = v := rfl
@[simp] theorem Block.setMem_sst : (b.setMem v).sst = b.sst := rfl
@[simp] theorem Block.setMem_dbg : (b.setMem v).dbg = b.dbg := rfl
@[simp] theorem Block.setMem_act : (b.setMem v).act = b.act := rfl
@[simp] theorem Block.setMem_io : (b.setMem v).io = b.io := rfl
@[simp] theorem Block.setMem_twice (u : Memory) : (b.setMem v).setMem u = b.setMem u := rfl
@[simp] theorem Block.setMem_same : b.setMem b.mem = b := rfl
@[simp] theorem Block.setMem_valid (a : Word w) (n : Nat) : (b.setMem v).valid a n = b.valid a n := rfl
@[simp] theorem Block.setMem_dSlot (i : Word w) : (b.setMem v).dSlot i = b.dSlot i := rfl
@[simp] theorem Block.setMem_sSlot (i : Word w) : (b.setMem v).sSlot i = b.sSlot i := rfl
end setMem

section setSst
variable (b : Block w) (v : SstRegs w)
@[simp] theorem Block.setSst_cfg : (b.setSst v).cfg = b.cfg := rfl
@[simp] theorem Block.setSst_pc : (b.setSst v).pc = b.pc := rfl
@[simp] theorem Block.setSst_d0 : (b.setSst v).d0 = b.d0 := rfl
@[simp] theorem Block.setSst_dsize : (b.setSst v).dsize = b.dsize := rfl
@[simp] theorem Block.setSst_dp : (b.setSst v).dp = b.dp := rfl
@[simp] theorem Block.setSst_s0 : (b.setSst v).s0 = b.s0 := rfl
@[simp] theorem Block.setSst_ssize : (b.setSst v).ssize = b.ssize := rfl
@[simp] theorem Block.setSst_sp : (b.setSst v).sp = b.sp := rfl
@[simp] theorem Block.setSst_handlerSp : (b.setSst v).handlerSp = b.handlerSp := rfl
@[simp] theorem Block.setSst_mem : (b.setSst v).mem = b.mem := rfl
@[simp] theorem Block.setSst_sst : (b.setSst v).sst = v := rfl
@[simp] theorem Block.setSst_dbg : (b.setSst v).dbg = b.dbg := rfl
@[simp] theorem Block.setSst_act : (b.setSst v).act = b.act := rfl
@[simp] theorem Block.setSst_io : (b.setSst v).io = b.io := rfl
@[simp] theorem Block.setSst_twice (u : SstRegs w) : (b.setSst v).setSst u = b.setSst u := rfl
@[simp] theorem Block.setSst_same : b.setSst b.sst = b := rfl
@[simp] theorem Block.setSst_word (a : Word w) : (b.setSst v).word a = b.word a := rfl
@[simp] theorem Block.setSst_peek (a : Word w) (n : Nat) : (b.setSst v).peek a n = b.peek a n := rfl
@[simp] theorem Block.setSst_storeWord (a x : Word w) : (b.setSst v).storeWord a x = (b.storeWord a x).setSst v := rfl
@[simp] theorem Block.setSst_poke (a : Word w) (n x : Nat) : (b.setSst v).poke a n x = (b.poke a n x).setSst v := rfl
@[simp] theorem Block.setSst_valid (a : Word w) (n : Nat) : (b.setSst v).valid a n = b.valid a n := rfl
@[simp] theorem Block.setSst_dSlot (i : Word w) : (b.setSst v).dSlot i = b.dSlot i := rfl
@[simp] theorem Block.setSst_sSlot (i : Word w) : (b.setSst v).sSlot i = b.sSlot i := rfl
end setSst

section setDbg
variable (b : Block w) (v : DbgRegs)
@[simp] theorem Block.setDbg_cfg : (b.setDbg v).cfg = b.cfg := rfl
@[simp] theorem Block.setDbg_pc : (b.setDbg v).pc = b.pc := rfl
@[simp] theorem Block.setDbg_d0 : (b.setDbg v).d0 = b.d0 := rfl
@[simp] theorem Block.setDbg_dsize : (b.setDbg v).dsize = b.dsize := rfl
@[simp] theorem Block.setDbg_dp : (b.setDbg v).dp = b.dp := rfl
@[simp] theorem Block.setDbg_s0 : (b.setDbg v).s0 = b.s0 := rfl
@[simp] theorem Block.setDbg_ssize : (b.setDbg v).ssize = b.ssize := rfl
@[simp] theorem Block.setDbg_sp : (b.setDbg v).sp = b.sp := rfl
@[simp] theorem Block.setDbg_handlerSp : (b.setDbg v).handlerSp = b.handlerSp := rfl
@[simp] theorem Block.setDbg_mem : (b.setDbg v).mem = b.mem := rfl
@[simp] theorem Block.setDbg_sst : (b.setDbg v).sst = b.sst := rfl
@[simp] theorem Block.setDbg_dbg : (b.setDbg v).dbg = v := rfl
@[simp] theorem Block.setDbg_act : (b.setDbg v).act = b.act := rfl
@[simp] theorem Block.setDbg_io : (b.setDbg v).io = b.io := rfl
@[simp] theorem Block.setDbg_twice (u : DbgRegs) : (b.setDbg v).setDbg u = b.setDbg u := rfl
@[simp] theorem Block.setDbg_same : b.setDbg b.dbg = b := rfl
@[simp] theorem Block.setDbg_word (a : Word w) : (b.setDbg v).word a = b.word a := rfl
@[simp] theorem Block.setDbg_peek (a : Word w) (n : Nat) : (b.setDbg v).peek a n = b.peek a n := rfl
@[simp] theorem Block.setDbg_storeWord (a x : Word w) : (b.setDbg v).storeWord a x = (b.storeWord a x).setDbg v := rfl
@[simp] theorem Block.setDbg_poke (a : Word w) (n x : Nat) : (b.setDbg v).poke a n x = (b.poke a n x).setDbg v := rfl
@[simp] theorem Block.setDbg_valid (a : Word w) (n : Nat) : (b.setDbg v).valid a n = b.valid a n := rfl
@[simp] theorem Block.setDbg_dSlot (i : Word w) : (b.setDbg v).dSlot i = b.dSlot i := rfl
@[simp] theorem Block.setDbg_sSlot (i : Word w) : (b.setDbg v).sSlot i = b.sSlot i := rfl
end setDbg

section setAct
variable (b : Block w) (v : Activity w)
@[simp] theorem Block.setAct_cfg : (b.setAct v).cfg = b.cfg := rfl
@[simp] theorem Block.setAct_pc : (b.setAct v).pc = b.pc := rfl
@[simp] theorem Block.setAct_d0 : (b.setAct v).d0 = b.d0 := rfl
@[simp] theorem Block.setAct_dsize : (b.setAct v).dsize = b.dsize := rfl
@[simp] theorem Block.setAct_dp : (b.setAct v).dp = b.dp := rfl
@[simp] theorem Block.setAct_s0 : (b.setAct v).s0 = b.s0 := rfl
@[simp] theorem Block.setAct_ssize : (b.setAct v).ssize = b.ssize := rfl
@[simp] theorem Block.setAct_sp : (b.setAct v).sp = b.sp := rfl
@[simp] theorem Block.setAct_handlerSp : (b.setAct v).handlerSp = b.handlerSp := rfl
@[simp] theorem Block.setAct_mem : (b.setAct v).mem = b.mem := rfl
@[simp] theorem Block.setAct_sst : (b.setAct v).sst = b.sst := rfl
@[simp] theorem Block.setAct_dbg : (b.setAct v).dbg = b.dbg := rfl
@[simp] theorem Block.setAct_act : (b.setAct v).act = v := rfl
@[simp] theorem Block.setAct_io : (b.setAct v).io = b.io := rfl
@[simp] theorem Block.setAct_twice (u : Activity w) : (b.setAct v).setAct u = b.setAct u := rfl
@[simp] theorem Block.setAct_same : b.setAct b.act = b := rfl
@[simp] theorem Block.setAct_word (a : Word w) : (b.setAct v).word a = b.word a := rfl
@[simp] theorem Block.setAct_peek (a : Word w) (n : Nat) : (b.setAct v).peek a n = b.peek a n := rfl
@[simp] theorem Block.setAct_storeWord (a x : Word w) : (b.setAct v).storeWord a x = (b.storeWord a x).setAct v := rfl
@[simp] theorem Block.setAct_poke (a : Word w) (n x : Nat) : (b.setAct v).poke a n x = (b.poke a n x).setAct v := rfl
@[simp] theorem Block.setAct_valid (a : Word w) (n : Nat) : (b.setAct v).valid a n = b.valid a n := rfl
@[simp] theorem Block.setAct_dSlot (i : Word w) : (b.setAct v).dSlot i = b.dSlot i := rfl
@[simp] theorem Block.setAct_sSlot (i : Word w) : (b.setAct v).sSlot i = b.sSlot i := rfl
end setAct

section setIo
variable (b : Block w) (v : Ports w)
@[simp] theorem Block.setIo_cfg : (b.setIo v).cfg = b.cfg := rfl
@[simp] theorem Block.setIo_pc : (b.setIo v).pc = b.pc := rfl
@[simp] theorem Block.setIo_d0 : (b.setIo v).d0 = b.d0 := rfl
@[simp] theorem Block.setIo_dsize : (b.setIo v).dsize = b.dsize := rfl
@[simp] theorem Block.setIo_dp : (b.setIo v).dp = b.dp := rfl
@[simp] theorem Block.setIo_s0 : (b.setIo v).s0 = b.s0 := rfl
@[simp] theorem Block.setIo_ssize : (b.setIo v).ssize = b.ssize := rfl
@[simp] theorem Block.setIo_sp : (b.setIo v).sp = b.sp := rfl
@[simp] theorem Block.setIo_handlerSp : (b.setIo v).handlerSp = b.handlerSp := rfl
@[simp] theorem Block.setIo_mem : (b.setIo v).mem = b.mem := rfl
@[simp] theorem Block.setIo_sst : (b.setIo v).sst = b.sst := rfl
@[simp] theorem Block.setIo_dbg : (b.setIo v).dbg = b.dbg := rfl
@[simp] theorem Block.setIo_act : (b.setIo v).act = b.act := rfl
@[simp] theorem Block.setIo_io : (b.setIo v).io = v := rfl
@[simp] theorem Block.setIo_twice (u : Ports w) : (b.setIo v).setIo u = b.setIo u := rfl
@[simp] theorem Block.setIo_same : b.setIo b.io = b := rfl
@[simp] theorem Block.setIo_word (a : Word w) : (b.setIo v).word a = b.word a := rfl
@[simp] theorem Block.setIo_peek (a : Word w) (n : Nat) : (b.setIo v).peek a n = b.peek a n := rfl
@[simp] theorem Block.setIo_storeWord (a x : Word w) : (b.setIo v).storeWord a x = (b.storeWord a x).setIo v := rfl
@[simp] theorem Block.setIo_poke (a : Word w) (n x : Nat) : (b.setIo v).poke a n x = (b.poke a n x).setIo v := rfl
@[simp] theorem Block.setIo_valid (a : Word w) (n : Nat) : (b.setIo v).valid a n = b.valid a n := rfl
@[simp] theorem Block.setIo_dSlot (i : Word w) : (b.setIo v).dSlot i = b.dSlot i := rfl
@[simp] theorem Block.setIo_sSlot (i : Word w) : (b.setIo v).sSlot i = b.sSlot i := rfl
end setIo

section putAt
variable (b : Block w) (a : Word w) (bs : List Byte)
@[simp] theorem Block.putAt_cfg : (b.putAt a bs).cfg = b.cfg := rfl
@[simp] theorem Block.putAt_pc : (b.putAt a bs).pc = b.pc := rfl
@[simp] theorem Block.putAt_d0 : (b.putAt a bs).d0 = b.d0 := rfl
@[simp] theorem Block.putAt_dsize : (b.putAt a bs).dsize = b.dsize := rfl
@[simp] theorem Block.putAt_dp : (b.putAt a bs).dp = b.dp := rfl
@[simp] theorem Block.putAt_s0 : (b.putAt a bs).s0 = b.s0 := rfl
@[simp] theorem Block.putAt_ssize : (b.putAt a bs).ssize = b.ssize := rfl
@[simp] theorem Block.putAt_sp : (b.putAt a bs).sp = b.sp := rfl
@[simp] theorem Block.putAt_handlerSp : (b.putAt a bs).handlerSp = b.handlerSp := rfl
@[simp] theorem Block.putAt_sst : (b.putAt a bs).sst = b.sst := rfl
@[simp] theorem Block.putAt_dbg : (b.putAt a bs).dbg = b.dbg := rfl
@[simp] theorem Block.putAt_act : (b.putAt a bs).act = b.act := rfl
@[simp] theorem Block.putAt_io : (b.putAt a bs).io = b.io := rfl
@[simp] theorem Block.putAt_valid (x : Word w) (k : Nat) : (b.putAt a bs).valid x k = b.valid x k := rfl
@[simp] theorem Block.putAt_dSlot (i : Word w) : (b.putAt a bs).dSlot i = b.dSlot i := rfl
@[simp] theorem Block.putAt_sSlot (i : Word w) : (b.putAt a bs).sSlot i = b.sSlot i := rfl
end putAt

section poke
variable (b : Block w) (a : Word w) (n v : Nat)
@[simp] theorem Block.poke_cfg : (b.poke a n v).cfg = b.cfg := rfl
@[simp] theorem Block.poke_pc : (b.poke a n v).pc = b.pc := rfl
@[simp] theorem Block.poke_d0 : (b.poke a n v).d0 = b.d0 := rfl
@[simp] theorem Block.poke_dsize : (b.poke a n v).dsize = b.dsize := rfl
@[simp] theorem Block.poke_dp : (b.poke a n v).dp = b.dp := rfl
@[simp] theorem Block.poke_s0 : (b.poke a n v).s0 = b.s0 := rfl
@[simp] theorem Block.poke_ssize : (b.poke a n v).ssize = b.ssize := rfl
@[simp] theorem Block.poke_sp : (b.poke a n v).sp = b.sp := rfl
@[simp] theorem Block.poke_handlerSp : (b.poke a n v).handlerSp = b.handlerSp := rfl
@[simp] theorem Block.poke_sst : (b.poke a n v).sst = b.sst := rfl
@[simp] theorem Block.poke_dbg : (b.poke a n v).dbg = b.dbg := rfl
@[simp] theorem Block.poke_act : (b.poke a n v).act = b.act := rfl
@[simp] theorem Block.poke_io : (b.poke a n v).io = b.io := rfl
@[simp] theorem Block.poke_valid (x : Word w) (k : Nat) : (b.poke a n v).valid x k = b.valid x k := rfl
@[simp] theorem Block.poke_dSlot (i : Word w) : (b.poke a n v).dSlot i = b.dSlot i := rfl
@[simp] theorem Block.poke_sSlot (i : Word w) : (b.poke a n v).sSlot i = b.sSlot i := rfl
end poke

section storeWord
variable (b : Block w) (a v : Word w)
@[simp] theorem Block.storeWord_cfg : (b.storeWord a v).cfg = b.cfg := rfl
@[simp] theorem Block.storeWord_pc : (b.storeWord a v).pc = b.pc := rfl
@[simp] theorem Block.storeWord_d0 : (b.storeWord a v).d0 = b.d0 := rfl
@[simp] theorem Block.storeWord_dsize : (b.storeWord a v).dsize = b.dsize := rfl
@[simp] theorem Block.storeWord_dp : (b.storeWord a v).dp = b.dp := rfl
@[simp] theorem Block.storeWord_s0 : (b.storeWord a v).s0 = b.s0 := rfl
@[simp] theorem Block.storeWord_ssize : (b.storeWord a v).ssize = b.ssize := rfl
@[simp] theorem Block.storeWord_sp : (b.storeWord a v).sp = b.sp := rfl
@[simp] theorem Block.storeWord_handlerSp : (b.storeWord a v).handlerSp = b.handlerSp := rfl
@[simp] theorem Block.storeWord_sst : (b.storeWord a v).sst = b.sst := rfl
@[simp] theorem Block.storeWord_dbg : (b.storeWord a v).dbg = b.dbg := rfl
@[simp] theorem Block.storeWord_act : (b.storeWord a v).act = b.act := rfl
@[simp] theorem Block.storeWord_io : (b.storeWord a v).io = b.io := rfl
@[simp] theorem Block.storeWord_valid (x : Word w) (k : Nat) : (b.storeWord a v).valid x k = b.valid x k := rfl
@[simp] theorem Block.storeWord_dSlot (i : Word w) : (b.storeWord a v).dSlot i = b.dSlot i := rfl
@[simp] theorem Block.storeWord_sSlot (i : Word w) : (b.storeWord a v).sSlot i = b.sSlot i := rfl
end storeWord

section answer
variable (b : Block w) (r : HostResult w)
@[simp] theorem Block.answer_cfg : (b.answer r).cfg = b.cfg := rfl
@[simp] theorem Block.answer_pc : (b.answer r).pc = b.pc := rfl
@[simp] theorem Block.answer_d0 : (b.answer r).d0 = b.d0 := rfl
@[simp] theorem Block.answer_dsize : (b.answer r).dsize = b.dsize := rfl
@[simp] theorem Block.answer_dp : (b.answer r).dp = b.dp := rfl
@[simp] theorem Block.answer_s0 : (b.answer r).s0 = b.s0 := rfl
@[simp] theorem Block.answer_ssize : (b.answer r).ssize = b.ssize := rfl
@[simp] theorem Block.answer_sp : (b.answer r).sp = b.sp := rfl
@[simp] theorem Block.answer_handlerSp : (b.answer r).handlerSp = b.handlerSp := rfl
@[simp] theorem Block.answer_mem : (b.answer r).mem = b.mem := rfl
@[simp] theorem Block.answer_sst : (b.answer r).sst = b.sst := rfl
@[simp] theorem Block.answer_dbg : (b.answer r).dbg = b.dbg := rfl
@[simp] theorem Block.answer_act : (b.answer r).act = b.act := rfl
@[simp] theorem Block.answer_results : (b.answer r).io.results = b.io.results ++ [r] := rfl
end answer

section hostAsked
variable (b : Block w) (f : Word w) (got : List (Word w))
@[simp] theorem Block.hostAsked_cfg : (b.hostAsked f got).cfg = b.cfg := rfl
@[simp] theorem Block.hostAsked_pc : (b.hostAsked f got).pc = b.pc := rfl
@[simp] theorem Block.hostAsked_d0 : (b.hostAsked f got).d0 = b.d0 := rfl
@[simp] theorem Block.hostAsked_dsize : (b.hostAsked f got).dsize = b.dsize := rfl
@[simp] theorem Block.hostAsked_dp : (b.hostAsked f got).dp = b.dp := rfl
@[simp] theorem Block.hostAsked_s0 : (b.hostAsked f got).s0 = b.s0 := rfl
@[simp] theorem Block.hostAsked_ssize : (b.hostAsked f got).ssize = b.ssize := rfl
@[simp] theorem Block.hostAsked_sp : (b.hostAsked f got).sp = b.sp := rfl
@[simp] theorem Block.hostAsked_handlerSp : (b.hostAsked f got).handlerSp = b.handlerSp := rfl
@[simp] theorem Block.hostAsked_mem : (b.hostAsked f got).mem = b.mem := rfl
@[simp] theorem Block.hostAsked_sst : (b.hostAsked f got).sst = b.sst := rfl
@[simp] theorem Block.hostAsked_dbg : (b.hostAsked f got).dbg = b.dbg := rfl
@[simp] theorem Block.hostAsked_act : (b.hostAsked f got).act = b.act := rfl
@[simp] theorem Block.hostAsked_host : (b.hostAsked f got).io.host = Config.hostNext (b.hostView f got) := rfl
@[simp] theorem Block.hostAsked_hostSeq : (b.hostAsked f got).io.hostSeq = b.io.hostSeq + 1 := rfl
@[simp] theorem Block.hostAsked_cmds : (b.hostAsked f got).io.cmds = b.io.cmds := rfl
@[simp] theorem Block.hostAsked_results : (b.hostAsked f got).io.results = b.io.results := rfl
@[simp] theorem Block.hostAsked_rxBytes : (b.hostAsked f got).io.rxBytes = b.io.rxBytes := rfl
@[simp] theorem Block.hostAsked_txBytes : (b.hostAsked f got).io.txBytes = b.io.txBytes := rfl
@[simp] theorem Block.hostAsked_valid (a : Word w) (n : Nat) : (b.hostAsked f got).valid a n = b.valid a n := rfl
@[simp] theorem Block.hostAsked_word (a : Word w) : (b.hostAsked f got).word a = b.word a := rfl
@[simp] theorem Block.hostAsked_dSlot (i : Word w) : (b.hostAsked f got).dSlot i = b.dSlot i := rfl
end hostAsked

end Sys2Proof.Machine
end

