-- ==== Sys2Proof/Laws/Memory.lean ====
section
/-! SUPPORT. What memory operations do: read after write, the bytes left alone, the canonical form kept, and the byte order
as a bijection between numbers and bytes. -/

namespace Sys2Proof

/-! ### Byte order -/

@[simp] theorem natToLe_length (n v : Nat) : (natToLe n v).length = n := by
  induction n generalizing v with
  | zero => rfl
  | succ n ih => simp [natToLe, ih]

theorem leToNat_natToLe (n v : Nat) : leToNat (natToLe n v) = v % 256 ^ n := by
  induction n generalizing v with
  | zero => simp [natToLe, leToNat, Nat.mod_one]
  | succ n ih =>
    have h : (256 : Nat) ^ (n + 1) = 256 * 256 ^ n := pow_succ' ..
    simp only [natToLe, leToNat, ih, BitVec.toNat_ofNat]
    rw [h, Nat.mod_mul]

theorem natToLe_leToNat (bs : List Byte) : natToLe bs.length (leToNat bs) = bs := by
  induction bs with
  | nil => rfl
  | cons x xs ih =>
    have hx : x.toNat < 256 := x.isLt
    have hq : (x.toNat + 256 * leToNat xs) / 256 = leToNat xs := by omega
    have hr : BitVec.ofNat 8 (x.toNat + 256 * leToNat xs) = x := by
      apply BitVec.eq_of_toNat_eq
      simp only [BitVec.toNat_ofNat]
      omega
    simp only [List.length_cons, natToLe, leToNat, hq, hr, ih]

@[simp] theorem scatter_length (o : ByteOrder) (n v : Nat) : (scatter o n v).length = n := by
  cases o <;> simp [scatter]

/-- What was scattered is assembled again, modulo its width (rule R42). -/
theorem assemble_scatter (o : ByteOrder) (n v : Nat) : assemble o (scatter o n v) = v % 256 ^ n := by
  cases o <;> simp [assemble, scatter, leToNat_natToLe]

theorem scatter_assemble (o : ByteOrder) (bs : List Byte) : scatter o bs.length (assemble o bs) = bs := by
  cases o
  · exact natToLe_leToNat bs
  · have h := natToLe_leToNat bs.reverse
    rw [List.length_reverse] at h
    simp [scatter, assemble, h]

theorem leToNat_lt (bs : List Byte) : leToNat bs < 256 ^ bs.length := by
  induction bs with
  | nil => simp [leToNat]
  | cons x xs ih =>
    have hx : x.toNat < 256 := x.isLt
    simp only [leToNat, List.length_cons, Nat.pow_succ']
    nlinarith

theorem assemble_lt (o : ByteOrder) (bs : List Byte) : assemble o bs < 256 ^ bs.length := by
  cases o
  · exact leToNat_lt bs
  · simpa [assemble] using leToNat_lt bs.reverse

theorem WordSize.pow_bytes (w : WordSize) : 256 ^ w.bytes = 2 ^ w.xlen := by
  cases w <;> rfl

theorem WordSize.two_pow_ge (w : WordSize) : 2 ^ 32 ≤ 2 ^ w.xlen := by
  cases w <;> decide

theorem WordSize.bytes_le (w : WordSize) : w.bytes ≤ 8 := by cases w <;> decide

theorem WordSize.bytes_pos (w : WordSize) : 0 < w.bytes := by cases w <;> decide

namespace Machine

variable {w : WordSize}

/-! ### One byte -/

@[simp] theorem Memory.get_nil (a : Nat) : Memory.get [] a = Memory.unlisted := rfl

theorem Memory.get_cons (k : Nat) (x : Byte) (m : Memory) (a : Nat) :
    Memory.get ((k, x) :: m) a = if k = a then x else Memory.get m a := rfl

/-- The entries of a canonical memory's tail have higher addresses. -/
theorem Memory.wf_cons (k : Nat) (x : Byte) (m : Memory) :
    Memory.wf ((k, x) :: m) = true ↔
      x ≠ Memory.unlisted ∧ Memory.wf m = true ∧ ∀ p ∈ m, k < p.1 := by
  induction m generalizing k x with
  | nil => simp [Memory.wf]
  | cons p m ih =>
    obtain ⟨l, y⟩ := p
    have h := ih l y
    constructor
    · intro hw
      simp only [Memory.wf, Bool.and_eq_true, decide_eq_true_eq, bne_iff_ne, ne_eq] at hw
      obtain ⟨⟨hkl, hx⟩, hm⟩ := hw
      refine ⟨hx, hm, ?_⟩
      intro q hq
      rcases List.mem_cons.1 hq with rfl | hq
      · exact hkl
      · exact Nat.lt_trans hkl ((h.1 hm).2.2 q hq)
    · rintro ⟨hx, hm, hlt⟩
      simp only [Memory.wf, Bool.and_eq_true, decide_eq_true_eq, bne_iff_ne, ne_eq]
      exact ⟨⟨hlt (l, y) (List.mem_cons_self ..), hx⟩, hm⟩

theorem Memory.get_below (m : Memory) (a : Nat) (h : ∀ p ∈ m, a < p.1) : m.get a = Memory.unlisted := by
  induction m with
  | nil => rfl
  | cons p m ih =>
    obtain ⟨k, x⟩ := p
    have hk : a < k := h (k, x) (List.mem_cons_self ..)
    rw [Memory.get_cons, if_neg (by omega)]
    exact ih fun q hq => h q (List.mem_cons_of_mem _ hq)

/-- A byte just written reads as written. -/
theorem Memory.get_set_same (m : Memory) (hm : m.wf = true) (a : Nat) (v : Byte) : (m.set a v).get a = v := by
  induction m with
  | nil =>
    by_cases hv : v = Memory.unlisted
    · simp [Memory.set, hv]
    · simp [Memory.set, hv, Memory.get]
  | cons p m ih =>
    obtain ⟨k, x⟩ := p
    obtain ⟨hx, hwf, hlt⟩ := (Memory.wf_cons k x m).1 hm
    have htail : ∀ c, c ≤ k → Memory.get m c = Memory.unlisted := fun c hc =>
      Memory.get_below m c fun q hq => Nat.lt_of_le_of_lt hc (hlt q hq)
    unfold Memory.set
    split_ifs with h1 h2 h3 h4
    · rw [Memory.get_cons, if_neg (by omega), htail a (by omega), h2]
    · simp [Memory.get]
    · rw [htail a (by omega), h4]
    · simp [Memory.get]
    · rw [Memory.get_cons, if_neg (by omega)]
      exact ih hwf

/-- Every other byte reads as before. -/
theorem Memory.get_set_other (m : Memory) (a : Nat) (v : Byte) (c : Nat) (h : c ≠ a) :
    (m.set a v).get c = m.get c := by
  induction m with
  | nil =>
    unfold Memory.set
    split_ifs with hv
    · rfl
    · rw [Memory.get_cons, if_neg (by omega)]
  | cons p m ih =>
    obtain ⟨k, x⟩ := p
    unfold Memory.set
    split_ifs with h1 h2 h3 h4
    · rfl
    · rw [Memory.get_cons, if_neg (by omega)]
    · rw [Memory.get_cons, if_neg (by omega)]
    · rw [Memory.get_cons, Memory.get_cons, if_neg (by omega), if_neg (by omega)]
    · rw [Memory.get_cons, Memory.get_cons, ih]

theorem Memory.mem_set (m : Memory) (a : Nat) (v : Byte) (p : Host.Cell) (hp : p ∈ m.set a v) :
    p = (a, v) ∨ p ∈ m := by
  induction m with
  | nil =>
    unfold Memory.set at hp
    split_ifs at hp <;> simp_all
  | cons q m ih =>
    obtain ⟨k, x⟩ := q
    unfold Memory.set at hp
    split_ifs at hp
    · exact .inr hp
    · simpa using hp
    · exact .inr (List.mem_cons_of_mem _ hp)
    · rcases List.mem_cons.1 hp with rfl | hp
      · exact .inl rfl
      · exact .inr (List.mem_cons_of_mem _ hp)
    · rcases List.mem_cons.1 hp with rfl | hp
      · exact .inr (List.mem_cons_self ..)
      · exact (ih hp).imp_right (List.mem_cons_of_mem _)

/-- A write keeps the canonical form. -/
theorem Memory.wf_set (m : Memory) (hm : m.wf = true) (a : Nat) (v : Byte) : (m.set a v).wf = true := by
  induction m with
  | nil =>
    unfold Memory.set
    split_ifs with hv
    · rfl
    · simp [Memory.wf, hv]
  | cons p m ih =>
    obtain ⟨k, x⟩ := p
    obtain ⟨hx, hwf, hlt⟩ := (Memory.wf_cons k x m).1 hm
    unfold Memory.set
    split_ifs with h1 h2 h3 h4
    · exact hm
    · refine (Memory.wf_cons ..).2 ⟨h2, hm, ?_⟩
      intro q hq
      rcases List.mem_cons.1 hq with rfl | hq
      · exact h1
      · exact Nat.lt_trans h1 (hlt q hq)
    · exact hwf
    · refine (Memory.wf_cons ..).2 ⟨h4, hwf, ?_⟩
      intro q hq
      have := hlt q hq
      omega
    · refine (Memory.wf_cons ..).2 ⟨hx, ih hwf, ?_⟩
      intro q hq
      rcases Memory.mem_set m a v q hq with rfl | hq
      · simp only; omega
      · exact hlt q hq

theorem Memory.get_ne_unlisted_of_mem (m : Memory) (hm : m.wf = true) (p : Host.Cell) (hp : p ∈ m) :
    m.get p.1 = p.2 ∧ p.2 ≠ Memory.unlisted := by
  induction m with
  | nil => cases hp
  | cons q m ih =>
    obtain ⟨k, x⟩ := q
    obtain ⟨hx, hwf, hlt⟩ := (Memory.wf_cons k x m).1 hm
    rcases List.mem_cons.1 hp with rfl | hp
    · exact ⟨by simp [Memory.get], hx⟩
    · have := hlt p hp
      rw [Memory.get_cons, if_neg (by omega)]
      exact ih hwf hp

/-- Canonical memories that read the same are the same data. -/
theorem Memory.ext_of_get (m n : Memory) (hm : m.wf = true) (hn : n.wf = true) (h : ∀ a, m.get a = n.get a) :
    m = n := by
  induction m generalizing n with
  | nil =>
    cases n with
    | nil => rfl
    | cons q n =>
      obtain ⟨h1, h2⟩ := Memory.get_ne_unlisted_of_mem _ hn q (List.mem_cons_self ..)
      exact absurd (h1.symm.trans (h q.1).symm) h2
  | cons p m ih =>
    obtain ⟨k, x⟩ := p
    obtain ⟨hx, hwf, hlt⟩ := (Memory.wf_cons k x m).1 hm
    cases n with
    | nil =>
      have := h k
      simp [Memory.get] at this
      exact absurd this hx
    | cons q n =>
      obtain ⟨l, y⟩ := q
      obtain ⟨hy, hwn, hln⟩ := (Memory.wf_cons l y n).1 hn
      have hkl : k = l := by
        rcases Nat.lt_trichotomy k l with hlt' | heq | hgt
        · have h1 := h k
          rw [Memory.get_cons, if_pos rfl, Memory.get_below] at h1
          · exact absurd h1 hx
          · intro q hq
            rcases List.mem_cons.1 hq with rfl | hq
            · exact hlt'
            · exact Nat.lt_trans hlt' (hln q hq)
        · exact heq
        · have h1 := h l
          rw [Memory.get_cons (k := l), if_pos rfl, Memory.get_below] at h1
          · exact absurd h1.symm hy
          · intro q hq
            rcases List.mem_cons.1 hq with rfl | hq
            · exact hgt
            · exact Nat.lt_trans hgt (hlt q hq)
      subst hkl
      have hxy : x = y := by simpa [Memory.get] using h k
      subst hxy
      congr 1
      refine ih n hwf hwn fun a => ?_
      by_cases ha : k = a
      · subst ha
        rw [Memory.get_below m k hlt, Memory.get_below n k hln]
      · simpa [Memory.get, ha] using h a

/-! ### A run of bytes -/

/-- The byte addresses of one access are distinct (an access has at most 8 bytes). -/
theorem byteAddr_inj (a : Word w) (i j : Nat) (hi : i < 2 ^ 32) (hj : j < 2 ^ 32)
    (h : byteAddr a i = byteAddr a j) : i = j := by
  have hw := WordSize.two_pow_ge w
  unfold byteAddr at h
  have h' := add_left_cancel (BitVec.eq_of_toNat_eq h)
  have h2 := congrArg BitVec.toNat h'
  simp only [BitVec.toNat_ofNat] at h2
  rwa [Nat.mod_eq_of_lt (by omega), Nat.mod_eq_of_lt (by omega)] at h2

theorem byteAddr_lt (a : Word w) (i : Nat) : byteAddr a i < 2 ^ w.xlen := (a + BitVec.ofNat w.xlen i).isLt

theorem putBytes_wf (a : Word w) (i : Nat) (bs : List Byte) (m : Memory) (hm : m.wf = true) :
    (putBytes a i bs m).wf = true := by
  induction bs generalizing i m with
  | nil => exact hm
  | cons x bs ih => exact ih (i + 1) _ (m.wf_set hm _ _)

/-- Bytes outside the run read as before. -/
theorem putBytes_get_other (a : Word w) (i : Nat) (bs : List Byte) (m : Memory) (c : Nat)
    (h : ∀ j, i ≤ j → j < i + bs.length → c ≠ byteAddr a j) : (putBytes a i bs m).get c = m.get c := by
  induction bs generalizing i m with
  | nil => rfl
  | cons x bs ih =>
    simp only [List.length_cons] at h
    rw [putBytes, ih (i + 1) _ fun j h1 h2 => h j (by omega) (by omega),
      Memory.get_set_other _ _ _ _ (h i (by omega) (by omega))]

/-- Bytes inside the run read as written. -/
theorem putBytes_get_same (a : Word w) (i : Nat) (bs : List Byte) (m : Memory) (hm : m.wf = true)
    (hb : i + bs.length < 2 ^ 32) (j : Nat) (hj : j < bs.length) :
    (putBytes a i bs m).get (byteAddr a (i + j)) = bs[j] := by
  induction bs generalizing i j m with
  | nil => cases hj
  | cons x bs ih =>
    simp only [List.length_cons] at hb hj
    cases j with
    | zero =>
      rw [putBytes, putBytes_get_other]
      · exact Memory.get_set_same m hm _ _
      · intro k h1 h2 h3
        have := byteAddr_inj a _ _ (by omega) (by omega) h3
        omega
    | succ j =>
      have := ih (i + 1) (m.set (byteAddr a i) x) (m.wf_set hm _ _) (by omega) j (by omega)
      rw [putBytes, show i + (j + 1) = i + 1 + j by omega, this]
      rfl

/-- A run of bytes reads back as written (the memory being canonical). -/
theorem Block.bytesAt_putAt (b : Block w) (hm : b.mem.wf = true) (a : Word w) (bs : List Byte)
    (hb : bs.length < 2 ^ 32) : (b.putAt a bs).bytesAt a bs.length = bs := by
  refine List.ext_getElem (by simp [Block.bytesAt]) fun j h1 h2 => ?_
  have := putBytes_get_same a 0 bs b.mem hm (by omega) j h2
  simpa [Block.bytesAt, Block.putAt] using this

/-- An access of `n` bytes reads back the low `8 * n` bits of what was stored (rules R40, R42). -/
theorem Block.peek_poke (b : Block w) (hm : b.mem.wf = true) (a : Word w) (n v : Nat) (hn : n < 2 ^ 32) :
    (b.poke a n v).peek a n = v % 256 ^ n := by
  have h := b.bytesAt_putAt hm a (scatter b.cfg.byteOrder n v) (by simpa using hn)
  rw [scatter_length] at h
  rw [Block.peek, Block.poke_cfg, Block.poke, h, assemble_scatter]

/-- A stored word reads back (rule R13). -/
theorem Block.word_storeWord (b : Block w) (hm : b.mem.wf = true) (a v : Word w) :
    (b.storeWord a v).word a = v := by
  have hw := w.bytes_le
  rw [Block.word, Block.storeWord, b.peek_poke hm a w.bytes v.toNat (by omega), w.pow_bytes]
  apply BitVec.eq_of_toNat_eq
  simp

/-- A poke leaves every byte outside its run alone. -/
theorem Block.poke_get_other (b : Block w) (a : Word w) (n v c : Nat) (h : ∀ i < n, c ≠ byteAddr a i) :
    (b.poke a n v).mem.get c = b.mem.get c := by
  refine putBytes_get_other a 0 _ _ c fun j _ hj => h j ?_
  simpa using hj

theorem Block.poke_wf (b : Block w) (hm : b.mem.wf = true) (a : Word w) (n v : Nat) :
    (b.poke a n v).mem.wf = true := putBytes_wf _ _ _ _ hm

theorem Block.storeWord_wf (b : Block w) (hm : b.mem.wf = true) (a v : Word w) :
    (b.storeWord a v).mem.wf = true := putBytes_wf _ _ _ _ hm

/-- Storing what is there changes nothing. -/
theorem Block.storeWord_word (b : Block w) (hm : b.mem.wf = true) (a : Word w) :
    b.storeWord a (b.word a) = b := by
  have hw := w.bytes_le
  have hbytes : scatter b.cfg.byteOrder w.bytes (b.word a).toNat = b.bytesAt a w.bytes := by
    have hlen : (b.bytesAt a w.bytes).length = w.bytes := by simp [Block.bytesAt]
    have hlt := assemble_lt b.cfg.byteOrder (b.bytesAt a w.bytes)
    rw [hlen, w.pow_bytes] at hlt
    have hs := scatter_assemble b.cfg.byteOrder (b.bytesAt a w.bytes)
    rw [hlen] at hs
    rw [Block.word, BitVec.toNat_ofNat, Block.peek, Nat.mod_eq_of_lt hlt, hs]
  have hmem : (b.storeWord a (b.word a)).mem = b.mem := by
    refine Memory.ext_of_get _ _ (b.storeWord_wf hm _ _) hm fun c => ?_
    by_cases hc : ∃ i < w.bytes, c = byteAddr a i
    · obtain ⟨i, hi, rfl⟩ := hc
      have hlen : (b.bytesAt a w.bytes).length = w.bytes := by simp [Block.bytesAt]
      have := putBytes_get_same a 0 (b.bytesAt a w.bytes) b.mem hm (by omega) i (by omega)
      rw [Block.storeWord, Block.poke, hbytes, Block.putAt, Block.setMem_mem]
      simpa [Block.bytesAt] using this
    · refine b.poke_get_other a w.bytes _ c fun i hi h => hc ⟨i, hi, h⟩
  show { b with mem := (b.storeWord a (b.word a)).mem } = b
  rw [hmem]

/-- A word stored over another leaves only the second. -/
theorem Block.storeWord_storeWord (b : Block w) (hm : b.mem.wf = true) (a u v : Word w) :
    (b.storeWord a u).storeWord a v = b.storeWord a v := by
  have hw := w.bytes_le
  have hmem : ((b.storeWord a u).storeWord a v).mem = (b.storeWord a v).mem := by
    have h1 := b.storeWord_wf hm a u
    refine Memory.ext_of_get _ _ (Block.storeWord_wf _ h1 _ _) (b.storeWord_wf hm _ _) fun c => ?_
    by_cases hc : ∃ i < w.bytes, c = byteAddr a i
    · obtain ⟨i, hi, rfl⟩ := hc
      have e1 := putBytes_get_same a 0 (scatter b.cfg.byteOrder w.bytes v.toNat) (b.storeWord a u).mem h1
        (by simp only [scatter_length]; omega) i (by simpa using hi)
      have e2 := putBytes_get_same a 0 (scatter b.cfg.byteOrder w.bytes v.toNat) b.mem hm
        (by simp only [scatter_length]; omega) i (by simpa using hi)
      rw [Nat.zero_add] at e1 e2
      exact e1.trans e2.symm
    · have hc' : ∀ i < w.bytes, c ≠ byteAddr a i := fun i hi h => hc ⟨i, hi, h⟩
      rw [Block.storeWord, Block.poke_get_other _ _ _ _ _ hc', Block.storeWord, Block.poke_get_other _ _ _ _ _ hc',
        Block.storeWord, Block.poke_get_other _ _ _ _ _ hc']
  show { b with mem := ((b.storeWord a u).storeWord a v).mem } = { b with mem := (b.storeWord a v).mem }
  rw [hmem]

/-! ### Words a multiple of `W` apart: stack slots, instruction words -/

/-- Two words that are a multiple of `W` apart are the same word or have no byte in common. -/
theorem byteAddr_ne_of_step {a c : Word w} (h : (a - c).toNat % w.bytes = 0) (hne : a ≠ c) {i j : Nat}
    (hi : i < w.bytes) (hj : j < w.bytes) : byteAddr a i ≠ byteAddr c j := by
  intro he
  have hb := w.bytes_le
  have hw := w.two_pow_ge
  have h1 : a + BitVec.ofNat w.xlen i = c + BitVec.ofNat w.xlen j := BitVec.eq_of_toNat_eq he
  have h2 : a - c = BitVec.ofNat w.xlen j - BitVec.ofNat w.xlen i := by
    rw [sub_eq_sub_iff_add_eq_add, h1, add_comm]
  have hi' : (BitVec.ofNat w.xlen i).toNat = i := by rw [BitVec.toNat_ofNat, Nat.mod_eq_of_lt (by omega)]
  have hj' : (BitVec.ofNat w.xlen j).toNat = j := by rw [BitVec.toNat_ofNat, Nat.mod_eq_of_lt (by omega)]
  rw [h2, BitVec.toNat_sub, hi', hj'] at h
  have hij : i = j := by
    cases w <;> simp only [WordSize.xlen_four, WordSize.xlen_eight, WordSize.bytes_four, WordSize.bytes_eight] at * <;>
      omega
  rw [hij, sub_self] at h2
  exact hne (sub_eq_zero.1 h2)

/-- Multiples of `W` stay multiples of `W` modulo 2^XLEN. -/
theorem mul_step_toNat_mod (x : Word w) : (x * w.step).toNat % w.bytes = 0 := by
  have hb : w.step.toNat = w.bytes := by
    rw [BitVec.toNat_ofNat, Nat.mod_eq_of_lt]
    cases w <;> decide
  rw [BitVec.toNat_mul, hb, Nat.mod_mod_of_dvd _ (by cases w <;> decide), Nat.mul_mod_left]

theorem Block.dSlot_sub (b : Block w) (i j : Word w) : (b.dSlot i - b.dSlot j).toNat % w.bytes = 0 := by
  rw [show b.dSlot i - b.dSlot j = (i - j) * w.step by unfold Block.dSlot; rw [add_sub_add_left_eq_sub, sub_mul]]
  exact mul_step_toNat_mod _

theorem Block.sSlot_sub (b : Block w) (i j : Word w) : (b.sSlot i - b.sSlot j).toNat % w.bytes = 0 := by
  rw [show b.sSlot i - b.sSlot j = (i - j) * w.step by unfold Block.sSlot; rw [add_sub_add_left_eq_sub, sub_mul]]
  exact mul_step_toNat_mod _

theorem WordSize.step_ne_zero (w : WordSize) : w.step ≠ 0 := by
  intro h
  have := congrArg BitVec.toNat h
  cases w <;> exact absurd this (by decide)

/-- Neighbouring slots are different words. -/
theorem Block.dSlot_succ_ne (b : Block w) (x : Word w) : b.dSlot x ≠ b.dSlot (x + 1) := by
  intro h
  unfold Block.dSlot at h
  have h1 := add_left_cancel h
  rw [add_mul, one_mul] at h1
  exact WordSize.step_ne_zero w (left_eq_add.1 h1)

theorem Block.sSlot_succ_ne (b : Block w) (x : Word w) : b.sSlot x ≠ b.sSlot (x + 1) := by
  intro h
  unfold Block.sSlot at h
  have h1 := add_left_cancel h
  rw [add_mul, one_mul] at h1
  exact WordSize.step_ne_zero w (left_eq_add.1 h1)

/-- A word is not changed by a store that shares no byte with it. -/
theorem Block.word_of_bytes {b r : Block w} {c : Word w} (hc : r.cfg = b.cfg)
    (h : ∀ j < w.bytes, r.mem.get (byteAddr c j) = b.mem.get (byteAddr c j)) : r.word c = b.word c := by
  have : r.bytesAt c w.bytes = b.bytesAt c w.bytes := by
    unfold Block.bytesAt
    exact List.map_congr_left fun j hj => h j (List.mem_range.1 hj)
  rw [Block.word, Block.word, Block.peek, Block.peek, this, hc]

/-- Storing in one slot leaves the word in another slot alone. -/
theorem Block.word_storeWord_other (b : Block w) {a c : Word w} (v : Word w) (h : (a - c).toNat % w.bytes = 0)
    (hne : a ≠ c) : (b.storeWord a v).word c = b.word c :=
  Block.word_of_bytes rfl fun _ hj => b.poke_get_other _ _ _ _ fun _ hi he =>
    byteAddr_ne_of_step h hne hi hj he.symm

/-- Storing in a slot twice, or in two slots, and reading either. -/
theorem Block.word_storeWord_slot (b : Block w) (hm : b.mem.wf = true) {a c : Word w} (v : Word w)
    (h : (a - c).toNat % w.bytes = 0) : (b.storeWord a v).word c = if a = c then v else b.word c := by
  split_ifs with he
  · subst he
    exact b.word_storeWord hm _ _
  · exact b.word_storeWord_other v h he

end Machine
end Sys2Proof
end

