-- ==== Sys2Proof/Laws/Ops.lean ====
section
/-! SUPPORT. What the shared operations do, said once: later proofs cite these and do not unfold the operations. -/

namespace Sys2Proof.Machine

variable {w : WordSize} {α β : Type}

/-! ### Running an operation -/

theorem Op.bind_run (x : Op w α) (f : α → Op w β) (b : Block w) :
    (x >>= f) b = match x b with
      | .ok a b' => f a b'
      | .error e b' => .error e b' := by
  show EStateM.bind x f b = _
  unfold EStateM.bind
  cases x b <;> rfl

@[simp] theorem Op.pure_run (a : α) (b : Block w) : (pure a : Op w α) b = .ok a b := rfl

@[simp] theorem Op.get_run (b : Block w) : (get : Op w (Block w)) b = .ok b b := rfl

@[simp] theorem update_run (f : Block w → Block w) (b : Block w) : update f b = .ok () (f b) := rfl

@[simp] theorem raise_run (e : ErrCode) (b : Block w) :
    (raise e : Op w α) b = .error (.raise (e.word w)) b := rfl

/-- The rest of an operation after a part that answers. -/
theorem Op.bind_ok {x : Op w α} {f : α → Op w β} {b b' : Block w} {a : α} (h : x b = .ok a b') :
    (x >>= f) b = f a b' := by
  rw [Op.bind_run, h]

/-- An operation ends where a part of it ends early. -/
theorem Op.bind_error {x : Op w α} {f : α → Op w β} {b b' : Block w} {e : Exit w} (h : x b = .error e b') :
    (x >>= f) b = .error e b' := by
  rw [Op.bind_run, h]

/-- A part of an operation that answers has answered. -/
theorem Op.bind_inv {x : Op w α} {f : α → Op w β} {b r : Block w} {v : β} (h : (x >>= f) b = .ok v r) :
    ∃ a b', x b = .ok a b' ∧ f a b' = .ok v r := by
  rw [Op.bind_run] at h
  cases hx : x b with
  | ok a b' => rw [hx] at h; exact ⟨a, b', rfl, h⟩
  | error e b' => rw [hx] at h; cases h

/-- An instruction whose pseudocode completes answers its effect. -/
theorem perform_ok {b r : Block w} {op : Op w Unit} (h : op b = .ok () r) : perform ⟨w, b⟩ op = .next ⟨w, r⟩ := by
  simp [perform, settle, LoopOut.toOut, h]

/-- An instruction whose pseudocode raises goes through `Raise` (rules R84, R232). -/
theorem perform_raise {b r : Block w} {op : Op w Unit} {c : Word w} (h : op b = .error (.raise c) r) :
    perform ⟨w, b⟩ op = (raiseCode c r).toOut := by
  simp [perform, settle, h]

/-- An instruction that stops the run loop (rule R82). -/
theorem perform_stop {b r : Block w} {op : Op w Unit} {c : Word w} (h : op b = .error (.stop c) r) :
    perform ⟨w, b⟩ op = .next ⟨w, r.stopRun c⟩ := by
  simp [perform, settle, LoopOut.toOut, h]

theorem perform_refuse {b r : Block w} {op : Op w Unit} {q : Refusal} (h : op b = .error (.refuse q) r) :
    perform ⟨w, b⟩ op = .refused q := by
  simp [perform, settle, LoopOut.toOut, h]

/-- A phase that answers. -/
theorem phase_ok {b r : Block w} {op : Op w Unit} (h : op b = .ok () r) : phase ⟨w, b⟩ op = .next ⟨w, r⟩ := by
  simp [phase, h]

/-! ### Alignment and word accesses -/

theorem checkAligned_ok {a : Word w} {n : Nat} (h : aligned a n = true) (b : Block w) :
    checkAligned a n b = .ok () b := by simp [checkAligned, h]

theorem checkAligned_raise {a : Word w} {n : Nat} (h : aligned a n = false) (b : Block w) :
    checkAligned a n b = .error (.raise (ErrCode.unalignedAddress.word w)) b := by simp [checkAligned, h]

theorem aligned_iff (a : Word w) (n : Nat) : aligned a n = true ↔ a.toNat % n = 0 := by simp [aligned]

@[simp] theorem aligned_one (a : Word w) : aligned a 1 = true := by simp [aligned, Nat.mod_one]

theorem readWord_ok {a : Word w} {b : Block w} (h : b.valid a w.bytes = true) :
    readWord a b = .ok (b.word a) b := by simp [readWord, h]

theorem readWord_refuse {a : Word w} {b : Block w} (h : b.valid a w.bytes = false) :
    readWord a b = .error (.refuse (.outsideMemValid a.toNat)) b := by simp [readWord, h]

theorem writeWord_ok {a v : Word w} {b : Block w} (h : b.valid a w.bytes = true) :
    writeWord a v b = .ok () (b.storeWord a v) := by simp [writeWord, h]

theorem writeWord_refuse {a v : Word w} {b : Block w} (h : b.valid a w.bytes = false) :
    writeWord a v b = .error (.refuse (.outsideMemValid a.toNat)) b := by simp [writeWord, h]

theorem memRead_ok {a : Word w} {n : Nat} {b : Block w} (h : b.valid a n = true) :
    memRead a n b = .ok (b.peek a n) b := by simp [memRead, h]

theorem memWrite_ok {a : Word w} {n v : Nat} {b : Block w} (h : b.valid a n = true) :
    memWrite a n v b = .ok () (b.poke a n v) := by simp [memWrite, h]

/-! ### The stack controller -/

/-- Everything `PopD` can do (rule R31, R47). -/
theorem popD_run (b : Block w) :
    popD b =
      if b.dp.toNat = 0 then .error (.raise (ErrCode.stackUnderflow.word w)) b
      else if b.dsize.toNat < b.dp.toNat then .error (.raise (ErrCode.stackOverflow.word w)) b
      else if b.valid (b.dAddr 0) w.bytes = true then .ok (b.dItem 0) (b.setDp (b.dp - 1))
      else .error (.refuse (.outsideMemValid (b.dAddr 0).toNat)) (b.setDp (b.dp - 1)) := by
  rfl

/-- Everything `PushD` can do (rules R30, R47). -/
theorem pushD_run (v : Word w) (b : Block w) :
    pushD v b =
      if b.dsize.toNat ≤ b.dp.toNat then .error (.raise (ErrCode.stackOverflow.word w)) b
      else if b.valid b.dFree w.bytes = true then .ok () ((b.storeWord b.dFree v).setDp (b.dp + 1))
      else .error (.refuse (.outsideMemValid b.dFree.toNat)) b := by
  unfold pushD writeWord Block.dFree
  split_ifs <;> rfl

/-- Everything `PopS` can do (rules R33, R47). -/
theorem popS_run (b : Block w) :
    popS b =
      if b.sp.toNat = 0 then .error (.raise (ErrCode.stackUnderflow.word w)) b
      else if b.ssize.toNat < b.sp.toNat then .error (.raise (ErrCode.stackOverflow.word w)) b
      else if b.valid (b.sAddr 0) w.bytes = true then .ok (b.sItem 0) (b.setSp (b.sp - 1))
      else .error (.refuse (.outsideMemValid (b.sAddr 0).toNat)) (b.setSp (b.sp - 1)) := by
  rfl

/-- Everything `PushS` can do (rules R32, R47). -/
theorem pushS_run (v : Word w) (b : Block w) :
    pushS v b =
      if b.ssize.toNat ≤ b.sp.toNat then .error (.raise (ErrCode.stackOverflow.word w)) b
      else if b.valid b.sFree w.bytes = true then .ok () ((b.storeWord b.sFree v).setSp (b.sp + 1))
      else .error (.refuse (.outsideMemValid b.sFree.toNat)) b := by
  unfold pushS writeWord Block.sFree
  split_ifs <;> rfl

theorem popD_ok {b : Block w} {k : Nat} (h : b.dHas (k + 1)) :
    popD b = .ok (b.dItem 0) (b.setDp (b.dp - 1)) := by
  obtain ⟨h1, h2, h3⟩ := h
  rw [popD_run, if_neg (by omega), if_neg (by omega), if_pos (h3 0 (by omega))]

theorem popD_empty {b : Block w} (h : b.dp.toNat = 0) :
    popD b = .error (.raise (ErrCode.stackUnderflow.word w)) b := by
  rw [popD_run, if_pos h]

theorem popD_over {b : Block w} (h : b.dsize.toNat < b.dp.toNat) :
    popD b = .error (.raise (ErrCode.stackOverflow.word w)) b := by
  rw [popD_run, if_neg (by omega), if_pos h]

theorem pushD_ok {b : Block w} (h : b.dRoom) (v : Word w) :
    pushD v b = .ok () ((b.storeWord b.dFree v).setDp (b.dp + 1)) := by
  rw [pushD_run, if_neg (by have := h.1; omega), if_pos h.2]

theorem pushD_full {b : Block w} (h : b.dsize.toNat ≤ b.dp.toNat) (v : Word w) :
    pushD v b = .error (.raise (ErrCode.stackOverflow.word w)) b := by
  rw [pushD_run, if_pos h]

theorem popS_ok {b : Block w} {k : Nat} (h : b.sHas (k + 1)) :
    popS b = .ok (b.sItem 0) (b.setSp (b.sp - 1)) := by
  obtain ⟨h1, h2, h3⟩ := h
  rw [popS_run, if_neg (by omega), if_neg (by omega), if_pos (h3 0 (by omega))]

theorem popS_empty {b : Block w} (h : b.sp.toNat = 0) :
    popS b = .error (.raise (ErrCode.stackUnderflow.word w)) b := by
  rw [popS_run, if_pos h]

theorem popS_over {b : Block w} (h : b.ssize.toNat < b.sp.toNat) :
    popS b = .error (.raise (ErrCode.stackOverflow.word w)) b := by
  rw [popS_run, if_neg (by omega), if_pos h]

theorem pushS_ok {b : Block w} {k : Nat} (h : b.sRoom (k + 1)) (v : Word w) :
    pushS v b = .ok () ((b.storeWord b.sFree v).setSp (b.sp + 1)) := by
  obtain ⟨h1, h2⟩ := h
  rw [pushS_run, if_neg (by omega), if_pos (by simpa using h2 0 (by omega))]

theorem pushS_full {b : Block w} (h : b.ssize.toNat ≤ b.sp.toNat) (v : Word w) :
    pushS v b = .error (.raise (ErrCode.stackOverflow.word w)) b := by
  rw [pushS_run, if_pos h]

/-! ### Depths -/

/-- A depth one less, when there is one. -/
theorem toNat_sub_one {v : Word w} (h : 0 < v.toNat) : (v - 1).toNat = v.toNat - 1 := by
  have hw := WordSize.two_pow_ge w
  have h1 : (1 : Word w).toNat = 1 := by
    rw [show (1 : Word w) = BitVec.ofNat w.xlen 1 from rfl, BitVec.toNat_ofNat, Nat.mod_eq_of_lt (by omega)]
  rw [BitVec.toNat_sub_of_le (by rw [BitVec.le_def, h1]; exact h), h1]

/-- A depth one more, below a capacity. -/
theorem toNat_add_one {u v : Word w} (h : v.toNat < u.toNat) : (v + 1).toNat = v.toNat + 1 := by
  have hw := WordSize.two_pow_ge w
  have h1 : (1 : Word w).toNat = 1 := by
    rw [show (1 : Word w) = BitVec.ofNat w.xlen 1 from rfl, BitVec.toNat_ofNat, Nat.mod_eq_of_lt (by omega)]
  have hu := u.isLt
  rw [BitVec.toNat_add, h1, Nat.mod_eq_of_lt (by omega)]

theorem sub_one_sub (v : Word w) (i : Nat) :
    v - 1 - BitVec.ofNat w.xlen (i + 1) = v - BitVec.ofNat w.xlen (i + 2) := by
  have : BitVec.ofNat w.xlen (i + 2) = 1 + BitVec.ofNat w.xlen (i + 1) := by
    rw [show i + 2 = 1 + (i + 1) by omega, BitVec.ofNat_add]; rfl
  rw [this, ← sub_sub]

theorem sub_two_add_one (v : Word w) : v - BitVec.ofNat w.xlen (1 + 1) + 1 = v - BitVec.ofNat w.xlen (0 + 1) := by
  rw [← sub_one_sub v 0]
  exact sub_add_cancel _ _

/-- The two top slots of a stack are different words. -/
theorem Block.dAddr_one_ne (b : Block w) : b.dAddr 1 ≠ b.dAddr 0 := by
  rw [Block.dAddr, Block.dAddr, ← sub_two_add_one]
  exact b.dSlot_succ_ne _

theorem Block.sAddr_one_ne (b : Block w) : b.sAddr 1 ≠ b.sAddr 0 := by
  rw [Block.sAddr, Block.sAddr, ← sub_two_add_one]
  exact b.sSlot_succ_ne _

/-- Below a popped word lie the items that were beneath it. -/
@[simp] theorem Block.dAddr_popped (b : Block w) (i : Nat) : (b.setDp (b.dp - 1)).dAddr i = b.dAddr (i + 1) := by
  simp only [Block.dAddr, Block.setDp_dSlot, Block.setDp_dp, sub_one_sub]

@[simp] theorem Block.sAddr_popped (b : Block w) (i : Nat) : (b.setSp (b.sp - 1)).sAddr i = b.sAddr (i + 1) := by
  simp only [Block.sAddr, Block.setSp_sSlot, Block.setSp_sp, sub_one_sub]

theorem Block.dHas_popped {b : Block w} {k : Nat} (h : b.dHas (k + 1)) : (b.setDp (b.dp - 1)).dHas k := by
  obtain ⟨h1, h2, h3⟩ := h
  refine ⟨?_, ?_, fun i hi => ?_⟩
  · rw [Block.setDp_dp, toNat_sub_one (by omega)]; omega
  · rw [Block.setDp_dp, toNat_sub_one (by omega), Block.setDp_dsize]; omega
  · rw [Block.dAddr_popped, Block.setDp_valid]; exact h3 (i + 1) (by omega)

theorem Block.sHas_popped {b : Block w} {k : Nat} (h : b.sHas (k + 1)) : (b.setSp (b.sp - 1)).sHas k := by
  obtain ⟨h1, h2, h3⟩ := h
  refine ⟨?_, ?_, fun i hi => ?_⟩
  · rw [Block.setSp_sp, toNat_sub_one (by omega)]; omega
  · rw [Block.setSp_sp, toNat_sub_one (by omega), Block.setSp_ssize]; omega
  · rw [Block.sAddr_popped, Block.setSp_valid]; exact h3 (i + 1) (by omega)

/-- The slot a pop has freed. -/
@[simp] theorem Block.dFree_popped (b : Block w) : (b.setDp (b.dp - 1)).dFree = b.dAddr 0 := rfl

@[simp] theorem Block.sFree_popped (b : Block w) : (b.setSp (b.sp - 1)).sFree = b.sAddr 0 := rfl

/-- A successful pop leaves room for a push (rule R101: "The push cannot fail after a successful pop"). -/
theorem Block.dRoom_popped {b : Block w} {k : Nat} (h : b.dHas (k + 1)) : (b.setDp (b.dp - 1)).dRoom := by
  obtain ⟨h1, h2, h3⟩ := h
  refine ⟨?_, ?_⟩
  · rw [Block.setDp_dp, toNat_sub_one (by omega), Block.setDp_dsize]; omega
  · rw [Block.dFree_popped, Block.setDp_valid]; exact h3 0 (by omega)

/-- The item a push has just stored. -/
@[simp] theorem Block.dAddr_pushed (b : Block w) : (b.setDp (b.dp + 1)).dAddr 0 = b.dFree := by
  simp only [Block.dAddr, Block.setDp_dSlot, Block.setDp_dp]
  congr 1
  exact add_sub_cancel_right _ _

@[simp] theorem Block.sAddr_pushed (b : Block w) : (b.setSp (b.sp + 1)).sAddr 0 = b.sFree := by
  simp only [Block.sAddr, Block.setSp_sSlot, Block.setSp_sp]
  congr 1
  exact add_sub_cancel_right _ _

/-! ### Frames of single writes -/

/-- A stored word is read back by whoever reads its slot, and nothing else in memory has changed. -/
theorem Block.storeWord_frame (b : Block w) (a v : Word w) : MemKeptBut a w.bytes b (b.storeWord a v) :=
  fun c hc => b.poke_get_other a _ _ c hc

theorem Block.poke_frame (b : Block w) (a : Word w) (n v : Nat) : MemKeptBut a n b (b.poke a n v) :=
  fun c hc => b.poke_get_other a _ _ c hc

@[simp] theorem Block.poke_reg (b : Block w) (a : Word w) (n v : Nat) (x : Reg) : (b.poke a n v).reg x = b.reg x := by
  cases x <;> rfl

@[simp] theorem Block.storeWord_reg (b : Block w) (a v : Word w) (x : Reg) : (b.storeWord a v).reg x = b.reg x := by
  cases x <;> rfl

theorem Block.setPc_reg (b : Block w) (v : Word w) (x : Reg) (h : x ≠ .pc) : (b.setPc v).reg x = b.reg x := by
  cases x <;> first | rfl | exact absurd rfl h

theorem Block.setDp_reg (b : Block w) (v : Word w) (x : Reg) (h : x ≠ .dp) : (b.setDp v).reg x = b.reg x := by
  cases x <;> first | rfl | exact absurd rfl h

theorem Block.setSp_reg (b : Block w) (v : Word w) (x : Reg) (h : x ≠ .sp) : (b.setSp v).reg x = b.reg x := by
  cases x <;> first | rfl | exact absurd rfl h

theorem Block.setHandlerSp_reg (b : Block w) (v : Word w) (x : Reg) (h : x ≠ .handlerSp) :
    (b.setHandlerSp v).reg x = b.reg x := by
  cases x <;> first | rfl | exact absurd rfl h

/-! ### The fetch (rule R81) -/

theorem fetch_ok {b : Block w} (ha : aligned b.pc w.bytes = true) (hv : b.valid b.pc w.bytes = true) :
    fetch b = .ok (b.word b.pc) (b.setPc (b.pc + w.step)) := by
  unfold fetch
  rw [Op.bind_ok (Op.get_run b), Op.bind_ok (checkAligned_ok ha b), Op.bind_ok (readWord_ok hv), Op.bind_ok (update_run _ b)]
  rfl

theorem fetch_misaligned {b : Block w} (ha : aligned b.pc w.bytes = false) :
    fetch b = .error (.raise (ErrCode.unalignedAddress.word w)) b := by
  unfold fetch
  rw [Op.bind_ok (Op.get_run b), Op.bind_error (checkAligned_raise ha b)]

/-! ### Raising and stopping -/

theorem raiseCode_stop {b : Block w} (h : b.handlerSp = 0) (c : Word w) :
    (raiseCode c b).toOut = .next ⟨w, b.stopRun c⟩ := by
  rw [raiseCode, if_pos h]
  rfl

theorem raiseCode_handler {b : Block w} (h : b.handlerSp ≠ 0) (c : Word w) : raiseCode c b = unwind c b := by
  rw [raiseCode, if_neg h]

/-- Step 1 of `Unwind` (rule R233): the code delivered, or dropped for want of room. -/
def Block.delivered (b : Block w) (c : Word w) : Block w :=
  if b.dp.toNat < b.dsize.toNat then (b.storeWord b.dFree c).setDp (b.dp + 1) else b

theorem deliver_ok {b : Block w} (hv : b.dp.toNat < b.dsize.toNat → b.valid b.dFree w.bytes = true) (c : Word w) :
    deliver c b = .ok () (b.delivered c) := by
  unfold deliver Block.delivered
  split_ifs with h
  · rw [show writeD b.dp c b = .ok () (b.storeWord b.dFree c) from writeWord_ok (hv h)]
  · rfl

/-- What `Unwind`'s steps do, the code having been delivered or dropped. -/
theorem unwindSteps_run {b : Block w} (c : Word w)
    (hv : b.dp.toNat < b.dsize.toNat → b.valid b.dFree w.bytes = true) :
    unwindSteps c b =
      match popS ((b.delivered c).setSp (b.delivered c).handlerSp) with
      | .error e r => .error e r
      | .ok a r =>
        match popS r with
        | .error e r' => .error e r'
        | .ok h r' => .ok () ((r'.setPc a).setHandlerSp h) := by
  unfold unwindSteps
  rw [Op.bind_ok (deliver_ok hv c), Op.bind_ok (update_run _ _), Op.bind_run]
  rcases popS _ with ⟨a, r⟩ | ⟨e, r⟩
  · simp only
    rw [Op.bind_run]
    rcases popS r with _ | _ <;> rfl
  · rfl

/-! ### The trap host (rules R160, R161) -/

/-- A function id the host knows runs the host's function (rule R161). -/
theorem trapCall_known {b : Block w} {f : Word w} {p : HostProg w} (h : b.cfg.trapHost.lookup f = some p) :
    trapCall f b = runHost f [] p b := by
  unfold Machine.trapCall
  rw [h]

/-- A function id the host does not know raises (rule R160). -/
theorem trapCall_unknown {b : Block w} {f : Word w} (h : b.cfg.trapHost.lookup f = none) :
    trapCall f b = .error (.raise (ErrCode.invalidFunction.word w)) b := by
  unfold Machine.trapCall
  rw [h]
  rfl

/-! ### Invariants and frames of operations -/

/-- The block after an operation, however it ends. -/
def Op.after (r : EStateM.Result (Exit w) (Block w) α) : Block w :=
  match r with
  | .ok _ b => b
  | .error _ b => b

/-- An operation moves the block only along `R`. -/
def Op.Within (R : Block w → Block w → Prop) (op : Op w α) : Prop := ∀ b, R b (Op.after (op b))

/-- A relation that what a trap function does respects (rule R161): a preorder that holds of a write of `dp`, of a store, and
of the host's own state. -/
structure AdmitsHost (R : Block w → Block w → Prop) : Prop where
  refl : ∀ b, R b b
  trans : ∀ {a b c}, R a b → R b c → R a c
  setDp : ∀ b v, R b (b.setDp v)
  poke : ∀ b a n v, R b (b.poke a n v)
  host : ∀ (b : Block w) h n, R b (b.setIo { b.io with host := h, hostSeq := n })

/-- … and of a write of `sp`: what an instruction that is no control transfer does. -/
structure AdmitsStacks (R : Block w → Block w → Prop) : Prop extends AdmitsHost R where
  setSp : ∀ b v, R b (b.setSp v)

/-- … and of a write of `pc`: what every instruction but `CATCH` and `RET` does. -/
structure AdmitsPc (R : Block w → Block w → Prop) : Prop extends AdmitsStacks R where
  setPc : ∀ b v, R b (b.setPc v)

/-- … and of a write of `handler_sp`: all that an instruction and the unwinding it causes can do. -/
structure Admits (R : Block w → Block w → Prop) : Prop extends AdmitsPc R where
  setHandlerSp : ∀ b v, R b (b.setHandlerSp v)

section Within
variable {R : Block w → Block w → Prop}

theorem Within.update {f : Block w → Block w} (h : ∀ b, R b (f b)) : Op.Within R (update f) := h

theorem Within.ite {c : Prop} [Decidable c] {x y : Op w α} (hx : Op.Within R x) (hy : Op.Within R y) :
    Op.Within R (if c then x else y) := by
  split <;> assumption

section Host
variable (H : AdmitsHost R)
include H

theorem Within.pure (a : α) : Op.Within R (Pure.pure a : Op w α) := fun b => H.refl b

theorem Within.get : Op.Within R (get : Op w (Block w)) := fun b => H.refl b

theorem Within.raise (e : ErrCode) : Op.Within R (raise e : Op w α) := fun b => H.refl b

theorem Within.bind {x : Op w α} {f : α → Op w β} (hx : Op.Within R x) (hf : ∀ a, Op.Within R (f a)) :
    Op.Within R (x >>= f) := by
  intro b
  have h := hx b
  rw [Op.bind_run]
  cases hxb : x b with
  | ok a b' => rw [hxb] at h; exact H.trans h (hf a b')
  | error e b' => rw [hxb] at h; exact h

theorem Within.readWord (a : Word w) : Op.Within R (readWord a) := by
  intro b
  unfold Machine.readWord
  split <;> exact H.refl b

theorem Within.memRead (a : Word w) (n : Nat) : Op.Within R (memRead a n) := by
  intro b
  unfold Machine.memRead
  split <;> exact H.refl b

theorem Within.writeWord (a v : Word w) : Op.Within R (writeWord a v) := by
  intro b
  unfold Machine.writeWord
  split
  · exact H.poke b a _ _
  · exact H.refl b

theorem Within.memWrite (a : Word w) (n v : Nat) : Op.Within R (memWrite a n v) := by
  intro b
  unfold Machine.memWrite
  split
  · exact H.poke b a _ _
  · exact H.refl b

theorem Within.checkAligned (a : Word w) (n : Nat) : Op.Within R (checkAligned a n) := by
  intro b
  unfold Machine.checkAligned
  split <;> exact H.refl b

theorem Within.readD (i : Word w) : Op.Within R (readD i) := fun b => Within.readWord H _ b

theorem Within.writeD (i v : Word w) : Op.Within R (writeD i v) := fun b => Within.writeWord H _ v b

theorem Within.readS (i : Word w) : Op.Within R (readS i) := fun b => Within.readWord H _ b

theorem Within.writeS (i v : Word w) : Op.Within R (writeS i v) := fun b => Within.writeWord H _ v b

theorem Within.throwCode (c : Word w) : Op.Within R (throwCode c) := fun b => H.refl b

theorem Within.stopLoop (c : Word w) : Op.Within R (stopLoop c) := fun b => H.refl b

theorem Within.popD : Op.Within R (popD : Op w (Word w)) := by
  intro b
  rw [popD_run]
  split_ifs <;> first | exact H.refl b | exact H.setDp b _

theorem Within.pushD (v : Word w) : Op.Within R (pushD v) := by
  intro b
  rw [pushD_run]
  split_ifs
  · exact H.refl b
  · exact H.trans (H.poke b _ _ _) (H.setDp _ _)
  · exact H.refl b

theorem Within.deliver (c : Word w) : Op.Within R (deliver c) := by
  intro b
  unfold Machine.deliver Machine.writeD Machine.writeWord
  split_ifs
  · exact H.trans (H.poke b _ _ _) (H.setDp _ _)
  · exact H.refl b
  · exact H.refl b

theorem Within.hostVal (f : Word w) (got : List (Word w)) (e : HostVal w) : Op.Within R (hostVal f got e) := by
  induction e with
  | lit v => exact Within.pure H v
  | got i => exact Within.pure H _
  | outside => exact fun b => H.host b _ _
  | sum x y hx hy =>
    exact Within.bind H hx fun _ => Within.bind H hy fun _ => Within.pure H _

theorem Within.runActs (l : List (HostAct w)) : Op.Within R (runActs l) := by
  induction l with
  | nil => exact Within.pure H _
  | cons x k ih =>
    cases x with
    | pop => exact Within.bind H (Within.popD H) fun _ => ih
    | push v => exact Within.bind H (Within.pushD H _) fun _ => ih
    | read a n => exact Within.bind H (Within.memRead H _ _) fun _ => ih
    | write a n v => exact Within.bind H (Within.memWrite H _ _ _) fun _ => ih
    | hang => exact fun b => H.refl b

theorem Within.runHost (f : Word w) (got : List (Word w)) (p : HostProg w) : Op.Within R (runHost f got p) := by
  induction p generalizing got with
  | done => exact Within.pure H _
  | hang => exact fun b => H.refl b
  | pop k ih => exact Within.bind H (Within.popD H) fun _ => ih _
  | push v k ih => exact Within.bind H (Within.hostVal H _ _ _) fun _ => Within.bind H (Within.pushD H _) fun _ => ih _
  | read a n k ih =>
    exact Within.bind H (Within.hostVal H _ _ _) fun _ => Within.bind H (Within.memRead H _ _) fun _ => ih _
  | write a n v k ih =>
    exact Within.bind H (Within.hostVal H _ _ _) fun _ => Within.bind H (Within.hostVal H _ _ _) fun _ =>
      Within.bind H (Within.memWrite H _ _ _) fun _ => ih _
  | ifEq x y p q ihp ihq =>
    exact Within.bind H (Within.hostVal H _ _ _) fun _ => Within.bind H (Within.hostVal H _ _ _) fun _ =>
      Within.ite (ihp _) (ihq _)
  | free => exact fun b => H.trans (H.host b _ _) (Within.runActs H _ _)

theorem Within.trapCall (f : Word w) : Op.Within R (trapCall f) := by
  intro b
  unfold Machine.trapCall
  split
  · exact Within.runHost H _ _ _ b
  · exact H.refl b

theorem Within.popCode : Op.Within R (popCode : Op w (Word w)) := by
  intro b
  have h := Within.popD H b
  unfold Machine.popCode
  split
  · rename_i he
    rw [he] at h
    exact h
  · exact h

end Host

section Stacks
variable (H : AdmitsStacks R)
include H

theorem Within.popS : Op.Within R (popS : Op w (Word w)) := by
  intro b
  rw [popS_run]
  split_ifs <;> first | exact H.refl b | exact H.setSp b _

theorem Within.pushS (v : Word w) : Op.Within R (pushS v) := by
  intro b
  rw [pushS_run]
  split_ifs
  · exact H.refl b
  · exact H.trans (H.poke b _ _ _) (H.setSp _ _)
  · exact H.refl b

end Stacks

section All
variable (H : Admits R)
include H

theorem Within.leaveRegion : Op.Within R (leaveRegion : Op w Unit) :=
  have h := H.toAdmitsHost
  Within.bind h (Within.popS H.toAdmitsStacks) fun _ =>
    Within.bind h (Within.update fun b => H.setHandlerSp b _) fun _ => Within.pushD h _

theorem Within.unwindSteps (c : Word w) : Op.Within R (unwindSteps c) :=
  have h := H.toAdmitsHost
  Within.bind h (Within.deliver h c) fun _ => Within.bind h (Within.update fun b => H.setSp b _) fun _ =>
    Within.bind h (Within.popS H.toAdmitsStacks) fun _ => Within.bind h (Within.popS H.toAdmitsStacks) fun _ =>
    Within.update fun b => H.trans (H.setPc b _) (H.setHandlerSp _ _)

theorem unwind_within {c : Word w} {b r : Block w} {v : Verdict w} (h : unwind c b = .next (v, r)) : R b r := by
  have hw := Within.unwindSteps H c b
  unfold unwind at h
  cases hu : unwindSteps c b with
  | ok a b' => rw [hu] at h hw; cases h; exact hw
  | error e b' => rw [hu] at h hw; cases e <;> cases h <;> exact hw

theorem raiseCode_within {c : Word w} {b r : Block w} {v : Verdict w} (h : raiseCode c b = .next (v, r)) : R b r := by
  unfold raiseCode at h
  split at h
  · cases h; exact H.refl b
  · exact unwind_within H h

theorem settle_within {op : Op w α} (hop : Op.Within R op) {b r : Block w} {v : Verdict w}
    (h : settle (op b) = .next (v, r)) : R b r := by
  have hb := hop b
  cases ho : op b with
  | ok a b' => rw [ho] at h hb; cases h; exact hb
  | error e b' =>
    rw [ho] at h hb
    cases e with
    | raise c => exact H.trans hb (raiseCode_within H h)
    | stop c => cases h; exact hb
    | refuse q => cases h
    | stuck f => cases h

end All

end Within

/-- With no handler before and after, whatever a piece of the run loop answers, the operation alone has done: nothing is
unwound (rule R232). -/
theorem settle_noHandler {op : Op w α} {b r : Block w} {v : Verdict w}
    (h0 : (Op.after (op b)).handlerSp = 0) (h : settle (op b) = .next (v, r)) : r = Op.after (op b) := by
  cases ho : op b with
  | ok a b' => rw [ho] at h; cases h; rfl
  | error e b' =>
    rw [ho] at h h0
    cases e with
    | raise c =>
      have : raiseCode c b' = .next (.stop c, b') := if_pos h0
      rw [show settle (.error (.raise c) b' : EStateM.Result (Exit w) (Block w) α) = _ from this] at h
      cases h
      rfl
    | stop c => cases h; rfl
    | refuse q => cases h
    | stuck f => cases h

/-- A piece of the run loop that answers: it went on, or it stopped and the run is over. -/
theorem toOut_next {x : LoopOut w} {t : State} (h : x.toOut = .next t) :
    ∃ r : Block w, (x = .next (.continue_, r) ∧ t = ⟨w, r⟩) ∨ ∃ c, x = .next (.stop c, r) ∧ t = ⟨w, r.stopRun c⟩ := by
  rcases x with ⟨_ | c, r⟩ | _ | _
  · cases h; exact ⟨r, .inl ⟨rfl, rfl⟩⟩
  · cases h; exact ⟨r, .inr ⟨c, rfl, rfl⟩⟩
  · cases h
  · cases h

end Sys2Proof.Machine
end

