-- ==== Sys2Proof/Laws/Phases.lean ====
section
/-! SUPPORT. What one step does in each activity, and what each phase of `STEP` does (rules R171 to R179), said once. -/

namespace Sys2Proof.Machine

variable {w : WordSize}

/-! ### Several steps -/

theorem run_succ (M : Host.Core) (k : Nat) {s t : M.State} (h : M.step s = .next t) :
    M.run (k + 1) s = M.run k t := by
  rw [Host.Core.run, h]

/-- A run whose first step answers a next state. -/
theorem run_step (k : Nat) {s t : State} (h : step s = .next t) :
    Host.Core.run Sys2Proof.core (k + 1) s = Host.Core.run Sys2Proof.core k t := run_succ Sys2Proof.core k h

/-! ### One step, by activity -/

theorem step_idle {b : Block w} (h : b.act = .idle) : step ⟨w, b⟩ = hostStep b := by
  unfold step; simp only [h]

theorem step_run {b : Block w} {c : Caller} (h : b.act = .run c) : step ⟨w, b⟩ = runStep ⟨w, b⟩ := by
  unfold step; simp only [h]

theorem step_sst {b : Block w} {p : SstPhase w} (h : b.act = .sst p) : step ⟨w, b⟩ = sstStep p b := by
  unfold step; simp only [h]

theorem step_dbg {b : Block w} {p : DbgPhase w} (h : b.act = .dbg p) : step ⟨w, b⟩ = dbgStep p b := by
  unfold step; simp only [h]

/-- One iteration of the run loop on a word that decodes (rules R81, R83, R84). -/
theorem execOne_decoded {b : Block w} {i : Instr} (ha : aligned b.pc w.bytes = true)
    (hv : b.valid b.pc w.bytes = true) (hd : decode w (b.word b.pc) = .ok i) :
    execOne b = exec i ⟨w, b.setPc (b.pc + w.step)⟩ := by
  unfold execOne
  rw [fetch_ok ha hv]
  simp only
  unfold dispatch
  rw [hd]

/-- What follows an iteration changes nothing unless a direct-mode `STEP` is still running (rule R183). -/
theorem endIteration_of_ne {s : State} (h : s.blk.act ≠ .run .direct) : endIteration s = s := by
  unfold endIteration
  split
  · contradiction
  · rfl

/-- The end of the run leaves everything but the activity and the results (rule R88). -/
theorem stopRun_kept (b : Block w) (c : Word w) :
    (∀ x : Reg, (b.stopRun c).reg x = b.reg x) ∧ (b.stopRun c).mem = b.mem ∧ (b.stopRun c).cfg = b.cfg ∧
      (b.stopRun c).sst = b.sst ∧ (b.stopRun c).dbg = b.dbg := by
  unfold Block.stopRun
  split <;> exact ⟨fun x => by cases x <;> rfl, rfl, rfl, rfl, rfl⟩

/-- The run is over once it has stopped, whoever started it (log 11). -/
theorem stopRun_act_ne (b : Block w) (c : Word w) (k : Caller) : (b.stopRun c).act ≠ .run k := by
  intro h
  unfold Block.stopRun at h
  split at h <;> cases h

/-! ### ARM and DISARM (rules R174, R175) -/

theorem armPatch_none {b : Block w} (h : b.sst.target = none) : armPatch b = .ok () b := by
  refine (Op.bind_ok (Op.get_run b)).trans ?_
  simp only [h]
  rfl

theorem armPatch_some {b : Block w} {t : Word w} (h : b.sst.target = some t) (hv : b.valid t w.bytes = true) :
    armPatch b = .ok () ((b.setSst { b.sst with savedWord := b.word t }).storeWord t (breakWord w)) := by
  refine (Op.bind_ok (Op.get_run b)).trans ?_
  simp only [h]
  refine (Op.bind_ok (readWord_ok hv)).trans ((Op.bind_ok (update_run _ b)).trans ?_)
  rw [← h]
  exact writeWord_ok (b := b.setSst { b.sst with savedWord := b.word t }) hv

theorem disarmPatch_none {b : Block w} (c : Word w) (h : b.sst.target = none) : disarmPatch c b = .ok () b := by
  refine (Op.bind_ok (Op.get_run b)).trans ?_
  simp only [h]
  rfl

theorem disarmPatch_some {b : Block w} {t : Word w} (c : Word w) (h : b.sst.target = some t)
    (hv : b.valid t w.bytes = true) :
    disarmPatch c b = .ok () (if c = ErrCode.break_.word w then (b.storeWord t b.sst.savedWord).setPc t
      else b.storeWord t b.sst.savedWord) := by
  refine (Op.bind_ok (Op.get_run b)).trans ?_
  simp only [h]
  exact (Op.bind_ok (writeWord_ok hv)).trans rfl

/-! ### FIXUP (rule R176) -/

theorem fixFrame_restores {b : Block w} (h : b.handlerSp = 0) :
    fixFrame b = .ok () (b.setHandlerSp b.sst.savedH) := by
  refine (Op.bind_ok (Op.get_run b)).trans ?_
  rw [h]
  rfl

theorem fixFrame_writes {b : Block w} (h : b.handlerSp ≠ 0)
    (hv : b.valid (b.sSlot (b.handlerSp - 2)) w.bytes = true) :
    fixFrame b = .ok () (b.storeWord (b.sSlot (b.handlerSp - 2)) b.sst.savedH) :=
  (Op.bind_ok (Op.get_run b)).trans ((congrFun (if_neg h) b).trans (writeWord_ok hv))

/-! ### The phases as steps -/

section Phases
variable {b r : Block w}

theorem step_predict {t : Option (Word w)} {q : Bool} (h : b.act = .sst .predict)
    (hp : predict b = .ok (t, q) b) :
    step ⟨w, b⟩ = .next ⟨w, (b.setSst { b.sst with target := t, isRet := q }).setAct (.sst .arm)⟩ :=
  (step_sst h).trans (phase_ok ((Op.bind_ok hp).trans rfl))

theorem step_arm (h : b.act = .sst .arm) (hp : armPatch b = .ok () r) :
    step ⟨w, b⟩ = .next ⟨w, r.setAct (.sst .launch)⟩ :=
  (step_sst h).trans (phase_ok ((Op.bind_ok hp).trans rfl))

theorem step_launch (h : b.act = .sst .launch) :
    step ⟨w, b⟩ =
      .next ⟨w, ((b.setSst { b.sst with savedH := b.handlerSp }).setHandlerSp 0).setAct (.run .sst)⟩ :=
  (step_sst h).trans rfl

theorem step_disarm {c : Word w} (h : b.act = .sst (.disarm c)) (hp : disarmPatch c b = .ok () r) :
    step ⟨w, b⟩ = .next ⟨w, r.setAct (.sst (.fixup c))⟩ :=
  (step_sst h).trans (phase_ok ((Op.bind_ok hp).trans rfl))

theorem step_fixup {c : Word w} (h : b.act = .sst (.fixup c)) (hp : fixFrame b = .ok () r) :
    step ⟨w, b⟩ = .next ⟨w, r.setAct (.sst (.replay c))⟩ :=
  (step_sst h).trans (phase_ok ((Op.bind_ok hp).trans rfl))

theorem step_replay {c : Word w} (h : b.act = .sst (.replay c)) : step ⟨w, b⟩ = sstReplay c b :=
  step_sst h

theorem step_done {c : Word w} (h : b.act = .sst (.done c)) :
    step ⟨w, b⟩ = .next ⟨w, (b.setAct .idle).answer (.word c)⟩ :=
  (step_sst h).trans rfl

end Phases

end Sys2Proof.Machine
end

