-- ==== Sys2Proof/Laws/Debug.lean ====
section
/-! SUPPORT. The text of the debug stub and its receiver (rules R191 to R198, R206, R207): hex text read back, what one
byte does in each receiver state, what the register text restores. -/

namespace Sys2Proof.Machine

variable {w : WordSize}

/-! ### Hex text (rule R197) -/

theorem hexVal_hexDigit {n : Nat} (h : n < 16) : hexVal (hexDigit n) = some n := by
  interval_cases n <;> decide

theorem hexVal_lt {b : Byte} {n : Nat} (h : hexVal b = some n) : n < 16 := by
  unfold hexVal at h
  split_ifs at h <;> cases h <;> omega

theorem unhex_hex2 (n : Nat) (t : List Byte) :
    unhex (hex2 n ++ t) = (unhex t).map fun bs => BitVec.ofNat 8 n :: bs := by
  have h : unhex (hexDigit (n / 16 % 16) :: hexDigit (n % 16) :: t) =
      (unhex t).map fun bs => BitVec.ofNat 8 n :: bs := by
    simp only [unhex, hexVal_hexDigit (Nat.mod_lt (n / 16) (by decide)), hexVal_hexDigit (Nat.mod_lt n (by decide))]
    have : BitVec.ofNat 8 (16 * (n / 16 % 16) + n % 16) = BitVec.ofNat 8 n := by
      apply BitVec.eq_of_toNat_eq
      simp only [BitVec.toNat_ofNat]
      omega
    cases unhex t with
    | none => rfl
    | some bs => exact congrArg (fun v => some (v :: bs)) this
  exact h

theorem hexText_cons (b : Byte) (bs : List Byte) : hexText (b :: bs) = hex2 b.toNat ++ hexText bs := rfl

theorem hexText_append (xs ys : List Byte) : hexText (xs ++ ys) = hexText xs ++ hexText ys := by
  simp [hexText]

theorem hexText_length (bs : List Byte) : (hexText bs).length = 2 * bs.length := by
  induction bs with
  | nil => rfl
  | cons b bs ih =>
    rw [hexText_cons, List.length_append, ih, List.length_cons]
    show 2 + 2 * bs.length = _
    omega

/-! ### One byte at the receiver (rule R193) -/

section Receive
variable {b : Block w} {x : Byte} {xs : List Byte}

/-- The block with the next input byte taken. -/
abbrev Block.taken (b : Block w) (xs : List Byte) : Block w := b.setIo { b.io with rxBytes := xs }

theorem step_recv (ha : b.act = .dbg .recv) (hb : b.io.rxBytes = x :: xs) :
    step ⟨w, b⟩ = .next ⟨w, receive x (b.taken xs)⟩ := by
  rw [step_dbg ha]
  unfold dbgStep dbgRecv Block.getByte
  rw [hb]

theorem receive_idle_start (h : b.dbg.rx = .idle) :
    receive (ascii '$') b = b.setDbg { b.dbg with buf := [], sum := 0, rx := .data } := by
  unfold receive
  rw [h]
  rfl

theorem receive_data_byte (h : b.dbg.rx = .data) (h1 : x ≠ ascii '$') (h2 : x ≠ ascii '#')
    (hl : b.dbg.len ≠ b.cfg.bufMax) :
    receive x b = b.setDbg { b.dbg with buf := b.dbg.buf ++ [x], sum := b.dbg.sum + x } := by
  unfold receive
  rw [h]
  simp only
  rw [if_neg h1, if_neg h2, if_neg hl]

theorem receive_data_end (h : b.dbg.rx = .data) : receive (ascii '#') b = b.setDbg { b.dbg with rx := .ck1 } := by
  unfold receive
  rw [h]
  rfl

theorem receive_ck1 (h : b.dbg.rx = .ck1) : receive x b = b.setDbg { b.dbg with rx := .ck2 (hexVal x) } := by
  unfold receive
  rw [h]

theorem receive_ck2_match {hi lo : Nat} (h : b.dbg.rx = .ck2 (some hi)) (hx : hexVal x = some lo)
    (hs : 16 * hi + lo = b.dbg.sum.toNat) : receive x b = (b.emit [ascii '+']).setAct (.dbg .dispatch) := by
  unfold receive
  rw [h, hx]
  exact if_pos hs

theorem receive_ck2_reject {hi : Option Nat} (h : b.dbg.rx = .ck2 hi)
    (hs : ∀ m l, hi = some m → hexVal x = some l → 16 * m + l ≠ b.dbg.sum.toNat) :
    receive x b = (b.setDbg { b.dbg with rx := .idle }).emit [ascii '-'] := by
  unfold receive
  rw [h]
  simp only
  split
  · rename_i e
    exact if_neg (hs _ _ rfl e)
  · rfl

end Receive

/-! ### The register text (rules R206, R207) -/

theorem Block.setReg_same (b : Block w) (x : Reg) : b.setReg x (b.reg x) = b := by
  cases x <;> rfl

/-- The bytes that `RegBlock` shows. -/
def Block.regBytes (b : Block w) (rs : List Reg) : List Byte :=
  rs.flatMap fun r => scatter b.cfg.byteOrder w.bytes (b.reg r).toNat

theorem Block.regBlock_eq (b : Block w) : b.regBlock = hexText (b.regBytes regOrder) := by
  unfold Block.regBlock Block.regBytes
  induction regOrder with
  | nil => rfl
  | cons r rs ih => rw [List.flatMap_cons, List.flatMap_cons, hexText_append, ih]

theorem Block.regBytes_length (b : Block w) (rs : List Reg) : (b.regBytes rs).length = rs.length * w.bytes := by
  unfold Block.regBytes
  induction rs with
  | nil => simp
  | cons r rs ih => rw [List.flatMap_cons, List.length_append, ih, scatter_length, List.length_cons]; ring

theorem Block.setRegs_regBytes (b : Block w) (rs : List Reg) : b.setRegs rs (b.regBytes rs) = b := by
  induction rs with
  | nil => rfl
  | cons r rs ih =>
    have hl : (scatter b.cfg.byteOrder w.bytes (b.reg r).toNat).length = w.bytes := scatter_length ..
    have ht : (b.regBytes (r :: rs)).take w.bytes = scatter b.cfg.byteOrder w.bytes (b.reg r).toNat :=
      List.take_left' hl
    have hd : (b.regBytes (r :: rs)).drop w.bytes = b.regBytes rs := List.drop_left' hl
    unfold Block.setRegs
    rw [ht, hd, assemble_scatter, w.pow_bytes, Nat.mod_eq_of_lt (b.reg r).isLt, BitVec.ofNat_toNat,
      BitVec.setWidth_eq, b.setReg_same, ih]

end Sys2Proof.Machine
end

