-- ==== Sys2Proof/Laws/Decode.lean ====
section
/-! SUPPORT. The fields of an instruction word as numbers, and the encoder's words as numbers: what the decoder and the
encoder do, without bit operations (rules R61 to R70). -/

namespace Sys2Proof

variable {w : WordSize}

/-! ### Fields -/

theorem tag_toNat (ir : Word w) : (ir.extractLsb' 0 2).toNat = ir.toNat % 4 := by simp

theorem tag2_toNat (ir : Word w) : (ir.extractLsb' 2 2).toNat = ir.toNat / 4 % 4 := by
  simp [BitVec.extractLsb'_toNat, Nat.shiftRight_eq_div_pow]

theorem opcode_toNat (ir : Word w) : (ir >>> 4).toNat = ir.toNat / 16 := by
  simp [Nat.shiftRight_eq_div_pow]

/-- Rule R64: the operand above a tag of `tag` bits is the floor of the word's signed value. -/
theorem operand_eq (ir : Word w) (tag : Nat) : operand ir tag = ir.toInt / 2 ^ tag := by
  simp [operand, BitVec.toInt_sshiftRight, Int.shiftRight_eq_div_pow]

/-! ### The opcode map -/

theorem insnOf_opcodeOf (i : Instr) (n : Nat) (h : opcodeOf i = some n) : insnOf n = some i := by
  cases i <;> cases h <;> rfl

theorem opcodeOf_insnOf : ∀ n ≤ 0x2D, ∃ i, insnOf n = some i ∧ opcodeOf i = some n := by decide

theorem insnOf_none (n : Nat) (h : 0x2D < n) : insnOf n = none := by
  unfold insnOf
  split <;> first | omega | rfl

theorem opcodeOf_le (i : Instr) (n : Nat) (h : opcodeOf i = some n) : n ≤ 0x2D := by
  cases i <;> cases h <;> decide

/-! ### What the decoder answers, by the number the word stands for -/

theorem decode_tag0 (ir : Word w) (h : ir.toNat % 4 = 0) : decode w ir = .ok (.calli (ir.toInt / 4)) := by
  simp only [decode, tag_toNat, h, operand_eq]; rfl

theorem decode_tag1 (ir : Word w) (h : ir.toNat % 4 = 1) : decode w ir = .ok (.pushi (ir.toInt / 4)) := by
  simp only [decode, tag_toNat, h, operand_eq]; rfl

theorem decode_tag2 (ir : Word w) (h : ir.toNat % 4 = 2) : decode w ir = .ok (.pushreli (ir.toInt / 4)) := by
  simp only [decode, tag_toNat, h, operand_eq]; rfl

theorem decode_tag3 (ir : Word w) (h : ir.toNat % 16 = 3) : decode w ir = .ok (.jumpi (ir.toInt / 16)) := by
  have h1 : ir.toNat % 4 = 3 := by omega
  have h2 : ir.toNat / 4 % 4 = 0 := by omega
  simp only [decode, tag_toNat, tag2_toNat, h1, h2, operand_eq]; rfl

theorem decode_tag7 (ir : Word w) (h : ir.toNat % 16 = 7) : decode w ir = .ok (.jumpzi (ir.toInt / 16)) := by
  have h1 : ir.toNat % 4 = 3 := by omega
  have h2 : ir.toNat / 4 % 4 = 1 := by omega
  simp only [decode, tag_toNat, tag2_toNat, h1, h2, operand_eq]; rfl

theorem decode_tagB (ir : Word w) (h : ir.toNat % 16 = 11) : decode w ir = .ok (.trap (ir.toInt / 16)) := by
  have h1 : ir.toNat % 4 = 3 := by omega
  have h2 : ir.toNat / 4 % 4 = 2 := by omega
  simp only [decode, tag_toNat, tag2_toNat, h1, h2, operand_eq]; rfl

/-- An `INSN` word: the map of rule R67 decides. -/
theorem decode_tagF (ir : Word w) (h : ir.toNat % 16 = 15) :
    decode w ir = match insnOf (ir.toNat / 16) with
      | some i => .ok i
      | none => .error (.invalidOpcode (ir.toNat / 16)) := by
  have h1 : ir.toNat % 4 = 3 := by omega
  have h2 : ir.toNat / 4 % 4 = 3 := by omega
  rcases hi : insnOf (ir.toNat / 16) with _ | _ <;>
    simp only [decode, tag_toNat, tag2_toNat, opcode_toNat, h1, h2, hi]

/-! ### What the encoder answers, as a number -/

/-- Placing an operand above a tag is multiplying and adding, modulo 2^XLEN (rule R70). -/
theorem place_eq (v : Int) (tag low : Nat) (h : low < 2 ^ tag) :
    place w v tag low = BitVec.ofInt w.xlen (v * 2 ^ tag + low) := by
  have hd : BitVec.ofInt w.xlen v <<< tag &&& BitVec.ofNat w.xlen low = 0 := by
    apply BitVec.eq_of_getLsbD_eq
    intro k hk
    simp only [BitVec.getLsbD_and, BitVec.getLsbD_shiftLeft, BitVec.getLsbD_ofNat]
    by_cases hkt : k < tag
    · simp [hkt]
    · have : low.testBit k = false :=
        Nat.testBit_lt_two_pow (lt_of_lt_of_le h (Nat.pow_le_pow_right (by decide) (by omega)))
      simp [this]
  rw [place, ← BitVec.add_eq_or_of_and_eq_zero _ _ hd, BitVec.ofInt_add]
  congr 1
  rw [BitVec.shiftLeft_eq_mul_twoPow, BitVec.ofInt_mul]
  congr 1
  apply BitVec.eq_of_toInt_eq
  rw [BitVec.toInt_ofInt]
  simp only [BitVec.toInt_eq_toNat_bmod, BitVec.toNat_twoPow]
  push_cast
  exact Int.emod_bmod ..

theorem encode_of_wf {i : Instr} (h : i.wf w = true) : encode w i = some (encodeFields w i) := if_pos h

theorem encode_of_not_wf {i : Instr} (h : i.wf w = false) : encode w i = none := by
  unfold encode
  rw [h]
  rfl

theorem fitsAbove_iff (tag : Nat) (n : Int) :
    fitsAbove w tag n = true ↔ -(2 : Int) ^ (w.xlen - tag - 1) ≤ n ∧ n < (2 : Int) ^ (w.xlen - tag - 1) := by
  simp [fitsAbove]

end Sys2Proof
end

