-- ==== Sys2Proof/Laws/Exec.lean ====
section
/-! SUPPORT. Once for all 52 instructions: each is its pseudocode run by `perform`, and moves the block only along any
relation that its single writes respect. Frames and invariants over all instructions follow from this. -/

namespace Sys2Proof.Machine

variable {w : WordSize} {R : Block w → Block w → Prop}

section Shapes
variable (h : AdmitsHost R)
include h

theorem Within.unary (f : Word w → Word w) : Op.Within R (unary f) :=
  Within.bind h (Within.popD h) fun _ => Within.pushD h _

theorem Within.binary (f : Word w → Word w → Word w) : Op.Within R (binary f) :=
  Within.bind h (Within.popD h) fun _ => Within.bind h (Within.popD h) fun _ => Within.pushD h _

theorem Within.division (f : Word w → Word w → Word w × Word w) : Op.Within R (division f) :=
  Within.bind h (Within.popD h) fun _ => Within.bind h (Within.popD h) fun _ =>
    Within.bind h (Within.pushD h _) fun _ => Within.pushD h _

theorem Within.loadN (n : Nat) : Op.Within R (loadN n : Op w Unit) :=
  Within.bind h (Within.popD h) fun _ => Within.bind h (Within.checkAligned h _ _) fun _ =>
    Within.bind h (Within.memRead h _ _) fun _ => Within.pushD h _

theorem Within.storeN (n : Nat) : Op.Within R (storeN n : Op w Unit) :=
  Within.bind h (Within.popD h) fun _ => Within.bind h (Within.popD h) fun _ =>
    Within.bind h (Within.checkAligned h _ _) fun _ => Within.memWrite h _ _ _

end Shapes

/-- The instructions that write `pc` or `handler_sp` themselves (rules R11, R16). -/
def Instr.isTransfer : Instr → Bool
  | .calli _ | .jumpi _ | .jumpzi _ | .jump | .jumpz | .call | .break_ | .catch_ | .ret => true
  | _ => false

/-- An instruction that is no control transfer is its pseudocode, and that only moves the stacks. -/
theorem exec_stacks (S : AdmitsStacks R) (i : Instr) (b : Block w) (hi : Instr.isTransfer i = false) :
    ∃ op : Op w Unit, exec i ⟨w, b⟩ = perform ⟨w, b⟩ op ∧ Op.Within R op := by
  have h := S.toAdmitsHost
  cases i with
  | calli n => cases hi
  | pushi n => exact ⟨_, rfl, Within.pushD h _⟩
  | pushreli n => exact ⟨_, rfl, Within.bind h (Within.get h) fun _ => Within.pushD h _⟩
  | jumpi n => cases hi
  | jumpzi n => cases hi
  | trap lib => exact ⟨_, rfl, Within.ite (Within.bind h (Within.popD h) fun _ => Within.trapCall h _) (Within.raise h _)⟩
  | nop => exact ⟨_, rfl, Within.pure h ()⟩
  | not => exact ⟨_, rfl, Within.unary h _⟩
  | and => exact ⟨_, rfl, Within.binary h _⟩
  | or => exact ⟨_, rfl, Within.binary h _⟩
  | xor => exact ⟨_, rfl, Within.binary h _⟩
  | lshift => exact ⟨_, rfl, Within.binary h _⟩
  | rshift => exact ⟨_, rfl, Within.binary h _⟩
  | arshift => exact ⟨_, rfl, Within.binary h _⟩
  | pop => exact ⟨_, rfl, Within.bind h (Within.popD h) fun _ => Within.pure h _⟩
  | dup => exact ⟨_, rfl, Within.bind h (Within.popD h) fun _ => Within.bind h (Within.get h) fun _ => Within.ite (Within.raise h _)
      (Within.bind h (Within.readD h _) fun _ => Within.pushD h _)⟩
  | set => exact ⟨_, rfl, Within.bind h (Within.popD h) fun _ => Within.bind h (Within.popD h) fun _ => Within.bind h (Within.get h) fun _ =>
      Within.ite (Within.raise h _) (Within.writeD h _ _)⟩
  | swap => exact ⟨_, rfl, Within.bind h (Within.popD h) fun _ => Within.bind h (Within.get h) fun _ => Within.ite (Within.raise h _)
      (Within.bind h (Within.readD h _) fun _ => Within.bind h (Within.readD h _) fun _ =>
        Within.bind h (Within.writeD h _ _) fun _ => Within.writeD h _ _)⟩
  | jump => cases hi
  | jumpz => cases hi
  | call => cases hi
  | ret => cases hi
  | load => exact ⟨_, rfl, Within.loadN h _⟩
  | store => exact ⟨_, rfl, Within.storeN h _⟩
  | load1 => exact ⟨_, rfl, Within.loadN h _⟩
  | store1 => exact ⟨_, rfl, Within.storeN h _⟩
  | load2 => exact ⟨_, rfl, Within.loadN h _⟩
  | store2 => exact ⟨_, rfl, Within.storeN h _⟩
  | load4 => exact ⟨_, rfl, Within.loadN h _⟩
  | store4 => exact ⟨_, rfl, Within.storeN h _⟩
  | negate => exact ⟨_, rfl, Within.unary h _⟩
  | add => exact ⟨_, rfl, Within.binary h _⟩
  | mul => exact ⟨_, rfl, Within.binary h _⟩
  | divmod => exact ⟨_, rfl, Within.division h _⟩
  | udivmod => exact ⟨_, rfl, Within.division h _⟩
  | eq => exact ⟨_, rfl, Within.binary h _⟩
  | lt => exact ⟨_, rfl, Within.binary h _⟩
  | ult => exact ⟨_, rfl, Within.binary h _⟩
  | pushs => exact ⟨_, rfl, Within.bind h (Within.popD h) fun _ => Within.pushS S _⟩
  | pops => exact ⟨_, rfl, Within.bind h (Within.popS S) fun _ => Within.pushD h _⟩
  | dups => exact ⟨_, rfl, Within.bind h (Within.get h) fun _ => Within.ite (Within.raise h _) (Within.ite (Within.raise h _)
      (Within.bind h (Within.readS h _) fun _ => Within.pushD h _))⟩
  | catch_ => cases hi
  | throw_ => exact ⟨_, rfl, Within.bind h (Within.popCode h) fun _ => Within.throwCode h _⟩
  | break_ => cases hi
  | wordBytes => exact ⟨_, rfl, Within.pushD h _⟩
  | getSsize => exact ⟨_, rfl, Within.bind h (Within.get h) fun _ => Within.pushD h _⟩
  | getSp => exact ⟨_, rfl, Within.bind h (Within.get h) fun _ => Within.pushD h _⟩
  | setSp => exact ⟨_, rfl, Within.bind h (Within.popD h) fun _ => Within.update fun b => S.setSp b _⟩
  | getDsize => exact ⟨_, rfl, Within.bind h (Within.get h) fun _ => Within.pushD h _⟩
  | getDp => exact ⟨_, rfl, Within.bind h (Within.get h) fun _ => Within.pushD h _⟩
  | setDp => exact ⟨_, rfl, Within.bind h (Within.popD h) fun _ => Within.update fun b => S.setDp b _⟩
  | getHandlerSp => exact ⟨_, rfl, Within.bind h (Within.get h) fun _ => Within.pushD h _⟩

/-- Every instruction but `CATCH` and `RET` is its pseudocode, and that writes no `handler_sp`. -/
theorem exec_plain (H : AdmitsPc R) (i : Instr) (b : Block w) (hc : i ≠ .catch_) (hr : i ≠ .ret) :
    ∃ op : Op w Unit, exec i ⟨w, b⟩ = perform ⟨w, b⟩ op ∧ Op.Within R op := by
  cases hi : Instr.isTransfer i with
  | false => exact exec_stacks H.toAdmitsStacks i b hi
  | true =>
    have S := H.toAdmitsStacks
    have h := H.toAdmitsHost
    cases i with
    | calli n => exact ⟨_, rfl, Within.bind h (Within.get h) fun _ => Within.bind h (Within.pushS S _) fun _ => Within.update fun b => H.setPc b _⟩
    | pushi n => cases hi
    | pushreli n => cases hi
    | jumpi n => exact ⟨_, rfl, Within.bind h (Within.get h) fun _ => Within.update fun b => H.setPc b _⟩
    | jumpzi n => exact ⟨_, rfl, Within.bind h (Within.popD h) fun _ => Within.bind h (Within.get h) fun _ => Within.update fun b => by
        split
        · exact H.setPc b _
        · exact H.refl b⟩
    | trap lib => cases hi
    | nop => cases hi
    | not => cases hi
    | and => cases hi
    | or => cases hi
    | xor => cases hi
    | lshift => cases hi
    | rshift => cases hi
    | arshift => cases hi
    | pop => cases hi
    | dup => cases hi
    | set => cases hi
    | swap => cases hi
    | jump => exact ⟨_, rfl, Within.bind h (Within.popD h) fun _ => Within.bind h (Within.checkAligned h _ _) fun _ => Within.update fun b => H.setPc b _⟩
    | jumpz => exact ⟨_, rfl, Within.bind h (Within.popD h) fun _ => Within.bind h (Within.popD h) fun _ => Within.ite
        (Within.bind h (Within.checkAligned h _ _) fun _ => Within.update fun b => H.setPc b _) (Within.pure h _)⟩
    | call => exact ⟨_, rfl, Within.bind h (Within.popD h) fun _ => Within.bind h (Within.checkAligned h _ _) fun _ => Within.bind h (Within.get h)
        fun _ => Within.bind h (Within.pushS S _) fun _ => Within.update fun b => H.setPc b _⟩
    | ret => exact absurd rfl hr
    | load => cases hi
    | store => cases hi
    | load1 => cases hi
    | store1 => cases hi
    | load2 => cases hi
    | store2 => cases hi
    | load4 => cases hi
    | store4 => cases hi
    | negate => cases hi
    | add => cases hi
    | mul => cases hi
    | divmod => cases hi
    | udivmod => cases hi
    | eq => cases hi
    | lt => cases hi
    | ult => cases hi
    | pushs => cases hi
    | pops => cases hi
    | dups => cases hi
    | catch_ => exact absurd rfl hc
    | throw_ => cases hi
    | break_ => exact ⟨_, rfl, Within.bind h (Within.update fun b => H.setPc b _) fun _ => Within.stopLoop h _⟩
    | wordBytes => cases hi
    | getSsize => cases hi
    | getSp => cases hi
    | setSp => cases hi
    | getDsize => cases hi
    | getDp => cases hi
    | setDp => cases hi
    | getHandlerSp => cases hi

/-- Every instruction is its pseudocode, and that moves the block along `R`. -/
theorem exec_pseudocode (H : Admits R) (i : Instr) (b : Block w) :
    ∃ op : Op w Unit, exec i ⟨w, b⟩ = perform ⟨w, b⟩ op ∧ Op.Within R op := by
  have S := H.toAdmitsStacks
  have h := H.toAdmitsHost
  by_cases hc : i = .catch_
  · subst hc
    exact ⟨_, rfl, Within.bind h (Within.popD h) fun _ => Within.bind h (Within.checkAligned h _ _) fun _ =>
        Within.bind h (Within.get h) fun _ => Within.ite (Within.raise h _) (Within.bind h (Within.pushS S _) fun _ =>
          Within.bind h (Within.pushS S _) fun _ => Within.update fun b => H.trans (H.setHandlerSp b _) (H.setPc _ _))⟩
  · by_cases hr : i = .ret
    · subst hr
      exact ⟨_, rfl, Within.bind h (Within.popS S) fun _ => Within.bind h (Within.checkAligned h _ _) fun _ =>
          Within.bind h (Within.update fun b => H.setPc b _) fun _ => Within.bind h (Within.get h) fun _ =>
          Within.ite (Within.leaveRegion H) (Within.pure h _)⟩
    · exact exec_plain H.toAdmitsPc i b hc hr

/-- An instruction that answers a next state has moved the block along `R`; if it stopped the run loop, what follows is
`Block.stopRun` (rules R82, R88). -/
theorem exec_within (H : Admits R) {i : Instr} {b : Block w} {t : State} (h : exec i ⟨w, b⟩ = .next t) :
    ∃ r : Block w, R b r ∧ (t = ⟨w, r⟩ ∨ ∃ c, t = ⟨w, r.stopRun c⟩) := by
  obtain ⟨op, hop, hw⟩ := exec_pseudocode H i b
  rw [hop] at h
  obtain ⟨r, ⟨hr, ht⟩ | ⟨c, hr, ht⟩⟩ := toOut_next h
  · exact ⟨r, settle_within H hw hr, .inl ht⟩
  · exact ⟨r, settle_within H hw hr, .inr ⟨c, ht⟩⟩

end Sys2Proof.Machine
end

