-- ==== Sys2Proof/Laws/Meaning.lean ====
section
/-! SUPPORT. What the shared shapes of an instruction do when their operands are there: one-operand, two-operand, division,
load, store, a plain push. -/

namespace Sys2Proof.Machine

variable {w : WordSize}

/-- A push into the slot a pop has just freed. -/
theorem pushD_popped {b : Block w} {k : Nat} (h : b.dHas (k + 1)) (v : Word w) :
    pushD v (b.setDp (b.dp - 1)) = .ok () (b.storeWord (b.dAddr 0) v) := by
  rw [pushD_ok (Block.dRoom_popped h)]
  simp only [Block.dFree_popped, Block.setDp_storeWord, Block.setDp_dp, Block.setDp_twice, sub_add_cancel]
  rfl

theorem unary_ok {b : Block w} (h : b.dHas 1) (f : Word w → Word w) :
    unary f b = .ok () (b.storeWord (b.dAddr 0) (f (b.dItem 0))) := by
  unfold unary
  rw [Op.bind_ok (popD_ok h)]
  exact pushD_popped h _

theorem popTwo_ok {α : Type} {b : Block w} (h : b.dHas 2) (f : Word w → Word w → Op w α) :
    (do let x ← popD; let y ← popD; f x y : Op w α) b =
      f (b.dItem 0) (b.dItem 1) (b.setDp (b.dp - 2)) := by
  rw [Op.bind_ok (popD_ok h), Op.bind_ok (popD_ok (Block.dHas_popped h))]
  simp only [Block.dItem, Block.dAddr_popped, Block.setDp_word, Block.setDp_twice, Block.setDp_dp]
  rw [show b.dp - 1 - 1 = b.dp - 2 from sub_one_sub b.dp 0]

theorem binary_ok {b : Block w} (h : b.dHas 2) (f : Word w → Word w → Word w) :
    binary f b = .ok () ((b.storeWord (b.dAddr 1) (f (b.dItem 1) (b.dItem 0))).setDp (b.dp - 1)) := by
  unfold binary
  have h1 := Block.dHas_popped h
  rw [Op.bind_ok (popD_ok h), Op.bind_ok (popD_ok h1), pushD_popped h1]
  simp only [Block.dItem, Block.dAddr_popped, Block.setDp_word, Block.setDp_storeWord]

theorem division_ok {b : Block w} (h : b.dHas 2) (f : Word w → Word w → Word w × Word w) :
    division f b = .ok () ((b.storeWord (b.dAddr 1) (f (b.dItem 1) (b.dItem 0)).1).storeWord (b.dAddr 0)
      (f (b.dItem 1) (b.dItem 0)).2) := by
  unfold division
  have h1 := Block.dHas_popped h
  rw [Op.bind_ok (popD_ok h), Op.bind_ok (popD_ok h1), Op.bind_ok (pushD_popped h1 _)]
  simp only [Block.dItem, Block.dAddr_popped, Block.setDp_word, Block.setDp_storeWord]
  have := pushD_popped (b := b.storeWord (b.dAddr 1) (f (b.dItem 1) (b.dItem 0)).1) (k := 1) h
    (f (b.dItem 1) (b.dItem 0)).2
  exact this

theorem loadN_ok {b : Block w} (h : b.dHas 1) {n : Nat} (ha : aligned (b.dItem 0) n = true)
    (hv : b.valid (b.dItem 0) n = true) :
    loadN n b = .ok () (b.storeWord (b.dAddr 0) (BitVec.ofNat w.xlen (b.peek (b.dItem 0) n))) := by
  unfold loadN
  rw [Op.bind_ok (popD_ok h), Op.bind_ok (checkAligned_ok ha _), Op.bind_ok (memRead_ok (b := b.setDp (b.dp - 1)) hv)]
  exact pushD_popped h _

theorem storeN_ok {b : Block w} (h : b.dHas 2) {n : Nat} (ha : aligned (b.dItem 0) n = true)
    (hv : b.valid (b.dItem 0) n = true) :
    storeN n b = .ok () ((b.poke (b.dItem 0) n (b.dItem 1).toNat).setDp (b.dp - 2)) := by
  unfold storeN
  rw [popTwo_ok h, Op.bind_ok (checkAligned_ok ha _), memWrite_ok (b := b.setDp (b.dp - 2)) hv]
  rfl

/-! ### Taking an exception (rule R233) -/

theorem sub_one_sub_one (x : Word w) : x - 1 - 1 = x - 2 := sub_one_sub x 0

theorem add_one_add_one (x : Word w) : x + 1 + 1 = x + 2 := by
  rw [add_assoc]
  congr 1
  rw [show (1 : Word w) = BitVec.ofNat w.xlen 1 from rfl, ← BitVec.ofNat_add]
  rfl

/-- The two pops of `Unwind`, on a frame that can be popped. -/
theorem popS_frame {b d : Block w} (he : d.handlerSp = b.handlerSp) (hz : d.ssize = b.ssize) (hs : d.s0 = b.s0)
    (hv : ∀ a n, d.valid a n = b.valid a n) (h2 : 2 ≤ b.handlerSp.toNat) (hle : b.handlerSp.toNat ≤ b.ssize.toNat)
    (v1 : b.valid (b.sSlot (b.handlerSp - 1)) w.bytes = true)
    (v2 : b.valid (b.sSlot (b.handlerSp - 2)) w.bytes = true) :
    popS (d.setSp d.handlerSp) = .ok (d.word (b.sSlot (b.handlerSp - 1))) (d.setSp (b.handlerSp - 1)) ∧
      popS (d.setSp (b.handlerSp - 1)) = .ok (d.word (b.sSlot (b.handlerSp - 2))) (d.setSp (b.handlerSp - 2)) := by
  have hd : ∀ x, d.sSlot x = b.sSlot x := fun x => by unfold Block.sSlot; rw [hs]
  have t := toNat_sub_one (v := b.handlerSp) (by omega)
  constructor
  · rw [popS_run, if_neg, if_neg, if_pos]
    · show EStateM.Result.ok (d.word (d.sSlot (d.handlerSp - 1))) (d.setSp (d.handlerSp - 1)) = _
      rw [hd, he]
    · show d.valid (d.sSlot (d.handlerSp - 1)) w.bytes = true
      rw [hd, he, hv]
      exact v1
    · show ¬ d.ssize.toNat < d.handlerSp.toNat
      rw [he, hz]
      omega
    · show ¬ d.handlerSp.toNat = 0
      rw [he]
      omega
  · rw [popS_run, if_neg, if_neg, if_pos]
    · show EStateM.Result.ok (d.word (d.sSlot (b.handlerSp - 1 - 1))) (d.setSp (b.handlerSp - 1 - 1)) = _
      rw [hd, sub_one_sub_one]
    · show d.valid (d.sSlot (b.handlerSp - 1 - 1)) w.bytes = true
      rw [hd, hv, sub_one_sub_one]
      exact v2
    · show ¬ d.ssize.toNat < (b.handlerSp - 1).toNat
      rw [hz]
      omega
    · show ¬ (b.handlerSp - 1).toNat = 0
      omega

/-- `Unwind` on a frame that can be popped: the code delivered or dropped, `sp` below the frame, `pc` and `handler_sp` from
the frame's two words. -/
theorem unwind_ok {b : Block w} (c : Word w) (hv : b.dp.toNat < b.dsize.toNat → b.valid b.dFree w.bytes = true)
    (h2 : 2 ≤ b.handlerSp.toNat) (hs : b.handlerSp.toNat ≤ b.ssize.toNat)
    (v1 : b.valid (b.sSlot (b.handlerSp - 1)) w.bytes = true)
    (v2 : b.valid (b.sSlot (b.handlerSp - 2)) w.bytes = true) :
    unwind c b = .next (.continue_,
      (((b.delivered c).setSp (b.handlerSp - 2)).setPc ((b.delivered c).word (b.sSlot (b.handlerSp - 1)))).setHandlerSp
        ((b.delivered c).word (b.sSlot (b.handlerSp - 2)))) := by
  have k := popS_frame (b := b) (d := b.delivered c) (by unfold Block.delivered; split <;> rfl)
    (by unfold Block.delivered; split <;> rfl) (by unfold Block.delivered; split <;> rfl)
    (by intro a n; unfold Block.delivered; split <;> rfl) h2 hs v1 v2
  unfold unwind
  rw [unwindSteps_run c hv, k.1]
  simp only
  rw [k.2]

/-! ### Two neighbouring words -/

theorem Block.dSlot_succ (b : Block w) (x : Word w) : b.dSlot (x + 1) = b.dSlot x + w.step := by
  unfold Block.dSlot
  rw [add_mul, one_mul, ← add_assoc]

theorem Block.sSlot_succ (b : Block w) (x : Word w) : b.sSlot (x + 1) = b.sSlot x + w.step := by
  unfold Block.sSlot
  rw [add_mul, one_mul, ← add_assoc]

theorem Block.storeWord_two_frame (b : Block w) (a u v : Word w) :
    MemKeptBut a (2 * w.bytes) b ((b.storeWord a u).storeWord (a + w.step) v) := by
  intro c hc
  rw [Block.storeWord_frame _ _ _ c, Block.storeWord_frame _ _ _ c]
  · exact fun i hi => hc i (by omega)
  · intro i hi he
    refine hc (w.bytes + i) (by omega) ?_
    rw [he, byteAddr, byteAddr, BitVec.ofNat_add, add_assoc]

/-! ### From an equation of the result to the words of the claims -/

theorem Pushes.of_exec {i : Instr} {b : Block w} {v : Word w} (hm : b.mem.wf = true)
    (h : exec i ⟨w, b⟩ = .next ⟨w, (b.storeWord b.dFree v).setDp (b.dp + 1)⟩) : Pushes i b v := by
  refine ⟨_, h, rfl, ?_, ⟨fun x hx => ?_, rfl, rfl, rfl, rfl, rfl⟩, b.storeWord_frame _ _⟩
  · have : ((b.storeWord b.dFree v).setDp (b.dp + 1)).dAddr 0 = b.dFree := b.dAddr_pushed
    rw [Block.dItem, this]
    exact b.word_storeWord hm _ _
  · rw [Block.setDp_reg _ _ _ (by simpa using hx), Block.storeWord_reg]

theorem ReplacesTop.of_exec {i : Instr} {b : Block w} {v : Word w} (hm : b.mem.wf = true)
    (h : exec i ⟨w, b⟩ = .next ⟨w, b.storeWord (b.dAddr 0) v⟩) : ReplacesTop i b v :=
  ⟨_, h, b.word_storeWord hm _ _, ⟨fun _ _ => b.storeWord_reg .., rfl, rfl, rfl, rfl, rfl⟩, b.storeWord_frame _ _⟩

theorem ReplacesTwo.of_exec {i : Instr} {b : Block w} {v : Word w} (hm : b.mem.wf = true)
    (h : exec i ⟨w, b⟩ = .next ⟨w, (b.storeWord (b.dAddr 1) v).setDp (b.dp - 1)⟩) : ReplacesTwo i b v := by
  refine ⟨_, h, rfl, ?_, ⟨fun x hx => ?_, rfl, rfl, rfl, rfl, rfl⟩, b.storeWord_frame _ _⟩
  · have : ((b.storeWord (b.dAddr 1) v).setDp (b.dp - 1)).dAddr 0 = b.dAddr 1 := b.dAddr_popped 0
    rw [Block.dItem, this]
    exact b.word_storeWord hm _ _
  · rw [Block.setDp_reg _ _ _ (by simpa using hx), Block.storeWord_reg]

/-! ### Stack faults -/

/-- An instruction that begins with a pop of the data stack. -/
theorem PopsOne.of_pop {i : Instr} {b : Block w} {f : Word w → Op w Unit}
    (h : exec i ⟨w, b⟩ = perform ⟨w, b⟩ (popD >>= f)) : PopsOne i b := by
  refine ⟨fun h0 => ?_, fun h1 => ?_⟩
  · rw [RaisesAt, h]
    exact perform_raise (Op.bind_error (popD_empty h0))
  · rw [RaisesAt, h]
    exact perform_raise (Op.bind_error (popD_over h1))

/-- An instruction that begins with two pops of the data stack. -/
theorem PopsTwo.of_pops {i : Instr} {b : Block w} {f : Word w → Word w → Op w Unit}
    (h : exec i ⟨w, b⟩ = perform ⟨w, b⟩ (popD >>= fun x => popD >>= f x)) : PopsTwo i b := by
  refine ⟨PopsOne.of_pop h, fun h1 hh => ?_⟩
  have h0 : b.dp - 1 = 0 := by
    apply BitVec.eq_of_toNat_eq
    rw [toNat_sub_one (by omega), h1]
    rfl
  have hz : (b.setDp 0).dp.toNat = 0 := by simp
  rw [RaisesAt, h]
  have hp := popD_ok (k := 0) hh
  rw [h0] at hp
  exact perform_raise ((Op.bind_ok hp).trans (Op.bind_error (popD_empty hz)))

end Sys2Proof.Machine
end

