-- ==== Sys2Proof/Laws/Operands.lean ====
section
/-! SUPPORT. The operand functions in integers: relative targets, shifts, divisions (rules R65, R105 to R107, R111, R112). -/

namespace Sys2Proof.Machine

variable {w : WordSize}

/-- Rule R65: `pc + W * n` modulo 2^XLEN. -/
theorem relTarget_eq (pc : Word w) (n : Int) : relTarget pc n = BitVec.ofInt w.xlen (pc.toNat + w.bytes * n) := by
  rw [relTarget, BitVec.ofInt_add, BitVec.ofInt_mul, BitVec.ofInt_natCast, BitVec.ofInt_natCast, BitVec.ofNat_toNat]
  simp

theorem shiftLeft_lt {v k : Word w} (h : k.toNat < w.xlen) :
    shiftLeft v k = BitVec.ofNat w.xlen (v.toNat * 2 ^ k.toNat) := by
  rw [shiftLeft, if_pos h]
  apply BitVec.eq_of_toNat_eq
  simp [Nat.shiftLeft_eq]

theorem shiftLeft_ge {v k : Word w} (h : w.xlen ≤ k.toNat) : shiftLeft v k = 0 := if_neg (by omega)

theorem shiftRight_lt {v k : Word w} (h : k.toNat < w.xlen) :
    shiftRight v k = BitVec.ofNat w.xlen (v.toNat / 2 ^ k.toNat) := by
  rw [shiftRight, if_pos h]
  apply BitVec.eq_of_toNat_eq
  have : v.toNat / 2 ^ k.toNat < 2 ^ w.xlen := lt_of_le_of_lt (Nat.div_le_self _ _) v.isLt
  simp [Nat.shiftRight_eq_div_pow, Nat.mod_eq_of_lt this]

theorem shiftRight_ge {v k : Word w} (h : w.xlen ≤ k.toNat) : shiftRight v k = 0 := if_neg (by omega)

theorem shiftArith_lt (o : Overshift) {v k : Word w} (h : k.toNat < w.xlen) :
    shiftArith o v k = BitVec.ofInt w.xlen (v.toInt / (2 : Int) ^ k.toNat) := by
  have : shiftArith o v k = v.sshiftRight k.toNat := if_pos h
  rw [this, ← BitVec.ofInt_toInt (x := v.sshiftRight k.toNat), BitVec.toInt_sshiftRight, Int.shiftRight_eq_div_pow]
  simp

theorem shiftArith_signfill {v k : Word w} (h : w.xlen ≤ k.toNat) :
    shiftArith .signfill v k = if v.toInt < 0 then -1 else 0 := if_neg (by omega)

theorem shiftArith_zero {v k : Word w} (h : w.xlen ≤ k.toNat) : shiftArith .zero v k = 0 := if_neg (by omega)

theorem divS_zero (n : Word w) : divS n 0 = (0, n) := by simp [divS]

theorem divS_overflow {n d : Word w} (h0 : d ≠ 0) (hn : n = BitVec.intMin w.xlen) (hd : d.toInt = -1) :
    divS n d = (BitVec.intMin w.xlen, 0) := by
  rw [divS, if_neg h0, if_pos ⟨hn, hd⟩]

theorem divS_trunc {n d : Word w} (h0 : d ≠ 0) (h : ¬(n = BitVec.intMin w.xlen ∧ d.toInt = -1)) :
    divS n d = (BitVec.ofInt w.xlen (n.toInt.tdiv d.toInt),
      BitVec.ofInt w.xlen (n.toInt - n.toInt.tdiv d.toInt * d.toInt)) := by
  rw [divS, if_neg h0, if_neg h]

theorem divU_zero (n : Word w) : divU n 0 = (0, n) := by simp [divU]

theorem divU_pos {n d : Word w} (h0 : d ≠ 0) :
    divU n d = (BitVec.ofNat w.xlen (n.toNat / d.toNat), BitVec.ofNat w.xlen (n.toNat % d.toNat)) := by
  rw [divU, if_neg h0]

end Sys2Proof.Machine
end

