-- ==== Sys2Proof/Laws/PerInstr.lean ====
section
/-! SUPPORT. Facts about every instruction as syntax, one lemma per constructor: the encoder has a word exactly for the
well-formed instructions (rules R70, R71). -/

namespace Sys2Proof.Laws

/-- The encoder answers exactly where `Instr.wf` holds, in both word sizes. -/
def EncodeDefined.Statement (i : Instr) : Prop := ∀ w : WordSize, (encode w i).isSome = i.wf w

theorem EncodeDefined.of_wf (i : Instr) : EncodeDefined.Statement i := by
  intro w
  cases h : i.wf w
  · rw [encode_of_not_wf h]; rfl
  · rw [encode_of_wf h]; rfl

theorem EncodeDefined.calli (n : Int) : EncodeDefined.Statement (.calli n) := EncodeDefined.of_wf _
theorem EncodeDefined.pushi (n : Int) : EncodeDefined.Statement (.pushi n) := EncodeDefined.of_wf _
theorem EncodeDefined.pushreli (n : Int) : EncodeDefined.Statement (.pushreli n) := EncodeDefined.of_wf _
theorem EncodeDefined.jumpi (n : Int) : EncodeDefined.Statement (.jumpi n) := EncodeDefined.of_wf _
theorem EncodeDefined.jumpzi (n : Int) : EncodeDefined.Statement (.jumpzi n) := EncodeDefined.of_wf _
theorem EncodeDefined.trap (lib : Int) : EncodeDefined.Statement (.trap lib) := EncodeDefined.of_wf _
theorem EncodeDefined.nop : EncodeDefined.Statement .nop := EncodeDefined.of_wf _
theorem EncodeDefined.not : EncodeDefined.Statement .not := EncodeDefined.of_wf _
theorem EncodeDefined.and : EncodeDefined.Statement .and := EncodeDefined.of_wf _
theorem EncodeDefined.or : EncodeDefined.Statement .or := EncodeDefined.of_wf _
theorem EncodeDefined.xor : EncodeDefined.Statement .xor := EncodeDefined.of_wf _
theorem EncodeDefined.lshift : EncodeDefined.Statement .lshift := EncodeDefined.of_wf _
theorem EncodeDefined.rshift : EncodeDefined.Statement .rshift := EncodeDefined.of_wf _
theorem EncodeDefined.arshift : EncodeDefined.Statement .arshift := EncodeDefined.of_wf _
theorem EncodeDefined.pop : EncodeDefined.Statement .pop := EncodeDefined.of_wf _
theorem EncodeDefined.dup : EncodeDefined.Statement .dup := EncodeDefined.of_wf _
theorem EncodeDefined.set : EncodeDefined.Statement .set := EncodeDefined.of_wf _
theorem EncodeDefined.swap : EncodeDefined.Statement .swap := EncodeDefined.of_wf _
theorem EncodeDefined.jump : EncodeDefined.Statement .jump := EncodeDefined.of_wf _
theorem EncodeDefined.jumpz : EncodeDefined.Statement .jumpz := EncodeDefined.of_wf _
theorem EncodeDefined.call : EncodeDefined.Statement .call := EncodeDefined.of_wf _
theorem EncodeDefined.ret : EncodeDefined.Statement .ret := EncodeDefined.of_wf _
theorem EncodeDefined.load : EncodeDefined.Statement .load := EncodeDefined.of_wf _
theorem EncodeDefined.store : EncodeDefined.Statement .store := EncodeDefined.of_wf _
theorem EncodeDefined.load1 : EncodeDefined.Statement .load1 := EncodeDefined.of_wf _
theorem EncodeDefined.store1 : EncodeDefined.Statement .store1 := EncodeDefined.of_wf _
theorem EncodeDefined.load2 : EncodeDefined.Statement .load2 := EncodeDefined.of_wf _
theorem EncodeDefined.store2 : EncodeDefined.Statement .store2 := EncodeDefined.of_wf _
theorem EncodeDefined.load4 : EncodeDefined.Statement .load4 := EncodeDefined.of_wf _
theorem EncodeDefined.store4 : EncodeDefined.Statement .store4 := EncodeDefined.of_wf _
theorem EncodeDefined.negate : EncodeDefined.Statement .negate := EncodeDefined.of_wf _
theorem EncodeDefined.add : EncodeDefined.Statement .add := EncodeDefined.of_wf _
theorem EncodeDefined.mul : EncodeDefined.Statement .mul := EncodeDefined.of_wf _
theorem EncodeDefined.divmod : EncodeDefined.Statement .divmod := EncodeDefined.of_wf _
theorem EncodeDefined.udivmod : EncodeDefined.Statement .udivmod := EncodeDefined.of_wf _
theorem EncodeDefined.eq : EncodeDefined.Statement .eq := EncodeDefined.of_wf _
theorem EncodeDefined.lt : EncodeDefined.Statement .lt := EncodeDefined.of_wf _
theorem EncodeDefined.ult : EncodeDefined.Statement .ult := EncodeDefined.of_wf _
theorem EncodeDefined.pushs : EncodeDefined.Statement .pushs := EncodeDefined.of_wf _
theorem EncodeDefined.pops : EncodeDefined.Statement .pops := EncodeDefined.of_wf _
theorem EncodeDefined.dups : EncodeDefined.Statement .dups := EncodeDefined.of_wf _
theorem EncodeDefined.catch_ : EncodeDefined.Statement .catch_ := EncodeDefined.of_wf _
theorem EncodeDefined.throw_ : EncodeDefined.Statement .throw_ := EncodeDefined.of_wf _
theorem EncodeDefined.break_ : EncodeDefined.Statement .break_ := EncodeDefined.of_wf _
theorem EncodeDefined.wordBytes : EncodeDefined.Statement .wordBytes := EncodeDefined.of_wf _
theorem EncodeDefined.getSsize : EncodeDefined.Statement .getSsize := EncodeDefined.of_wf _
theorem EncodeDefined.getSp : EncodeDefined.Statement .getSp := EncodeDefined.of_wf _
theorem EncodeDefined.setSp : EncodeDefined.Statement .setSp := EncodeDefined.of_wf _
theorem EncodeDefined.getDsize : EncodeDefined.Statement .getDsize := EncodeDefined.of_wf _
theorem EncodeDefined.getDp : EncodeDefined.Statement .getDp := EncodeDefined.of_wf _
theorem EncodeDefined.setDp : EncodeDefined.Statement .setDp := EncodeDefined.of_wf _
theorem EncodeDefined.getHandlerSp : EncodeDefined.Statement .getHandlerSp := EncodeDefined.of_wf _

end Sys2Proof.Laws
end

