-- ==== Sys2Proof/Tests/Slice0.lean ====
section
/-! SUPPORT. Small checks: the well-formedness smoke, decoding of words written out from 30_encoding.md and
95_test_vectors.md, one step of each instruction against the vectors of 95_test_vectors.md (a theorem's comment names the
vector), and for every statement of Obligations.lean with hypotheses a state and operands that meet them. -/

namespace Sys2Proof.Tests

open Sys2Proof.Machine

variable {w : WordSize}

/-! ### The test platform of rule R262 -/

/-- Words stored one after another from `a` up. -/
def put (b : Block w) (a : Word w) : List Int → Block w
  | [] => b
  | v :: vs => put (b.storeWord a (BitVec.ofInt w.xlen v)) (a + w.step) vs

/-- BEE-32 with code at 0x1000, `d0` = 0x2000, `s0` = 0x3000, capacities 8, memory backed from 0x1000 to 0x3FFF; the fetch of
the word at 0x1000 done, by the embedder's `RUN`; the stacks' items bottom first. -/
def block (d s : List Int) (h : Word .four := 0) : Block .four :=
  put (put { Block.fresh { Config.default .four with memValid := [⟨0x1000, 0x3000⟩] } ⟨0x1004, 0x2000, 8, 0x3000, 8⟩ with
    dp := BitVec.ofNat _ d.length
    sp := BitVec.ofNat _ s.length
    handlerSp := h
    act := .run .host } 0x2000 d) 0x3000 s

/-- The same, before the fetch of `ir` at 0x1000. -/
def fetching (ir : Int) (d s : List Int) (h : Word .four := 0) : Block .four :=
  (put (block d s h) 0x1000 [ir]).setPc 0x1000

/-- The bytes of section 7.2 of the vectors at 0x2800. -/
def block8 (d : List Int) : Block .four :=
  (block d []).putAt 0x2800 [0x44, 0x33, 0x22, 0x11, 0x88, 0x77, 0x66, 0x55]

/-- The data stack, bottom first, as signed numbers. -/
def data (b : Block w) : List Int :=
  (List.range b.dp.toNat).map fun i => (b.word (b.dSlot (BitVec.ofNat _ i))).toInt

/-- The return stack, bottom first. -/
def ret (b : Block w) : List Int :=
  (List.range b.sp.toNat).map fun i => (b.word (b.sSlot (BitVec.ofNat _ i))).toInt

/-- What the vectors show of a next state: data stack, return stack, `handler_sp`, `pc`, and the results on HOST. -/
def shown (o : Out) : Option (List Int × List Int × Nat × Nat × List (HostResult .four)) :=
  match o with
  | .next ⟨.four, r⟩ => some (data r, ret r, r.handlerSp.toNat, r.pc.toNat, r.io.results)
  | _ => none

/-- The eight bytes at 0x2800 after a step. -/
def bytes8 (o : Out) : Option (List Byte) :=
  match o with
  | .next s => some (s.blk.bytesAt (BitVec.ofNat _ 0x2800) 8)
  | _ => none

def after (i : Instr) (b : Block .four) := shown (exec i ⟨.four, b⟩)

/-! ### Well-formedness: an operand just outside its field is refused, the largest and the smallest are not (rule R70) -/

theorem test_wf_calli : Instr.wf .four (.calli 536870912) = false ∧ Instr.wf .four (.calli (-536870913)) = false ∧
    Instr.wf .four (.calli 536870911) = true ∧ Instr.wf .four (.calli (-536870912)) = true ∧
    Instr.wf .eight (.calli 2305843009213693952) = false ∧ Instr.wf .eight (.calli (-2305843009213693952)) = true ∧
    encode .four (.calli 536870912) = none := by decide

theorem test_wf_pushi : Instr.wf .four (.pushi 536870912) = false ∧ Instr.wf .four (.pushi (-536870913)) = false ∧
    Instr.wf .four (.pushi 536870911) = true ∧ Instr.wf .four (.pushi (-536870912)) = true ∧
    Instr.wf .eight (.pushi 2305843009213693952) = false ∧ Instr.wf .eight (.pushi (-2305843009213693952)) = true ∧
    encode .four (.pushi 536870912) = none := by decide

theorem test_wf_pushreli : Instr.wf .four (.pushreli 536870912) = false ∧ Instr.wf .four (.pushreli (-536870913)) = false ∧
    Instr.wf .four (.pushreli 536870911) = true ∧ Instr.wf .four (.pushreli (-536870912)) = true ∧
    Instr.wf .eight (.pushreli 2305843009213693952) = false ∧ Instr.wf .eight (.pushreli (-2305843009213693952)) = true ∧
    encode .four (.pushreli 536870912) = none := by decide

theorem test_wf_jumpi : Instr.wf .four (.jumpi 134217728) = false ∧ Instr.wf .four (.jumpi (-134217729)) = false ∧
    Instr.wf .four (.jumpi 134217727) = true ∧ Instr.wf .four (.jumpi (-134217728)) = true ∧
    Instr.wf .eight (.jumpi 576460752303423488) = false ∧ Instr.wf .eight (.jumpi (-576460752303423488)) = true ∧
    encode .four (.jumpi 134217728) = none := by decide

theorem test_wf_jumpzi : Instr.wf .four (.jumpzi 134217728) = false ∧ Instr.wf .four (.jumpzi (-134217729)) = false ∧
    Instr.wf .four (.jumpzi 134217727) = true ∧ Instr.wf .four (.jumpzi (-134217728)) = true ∧
    Instr.wf .eight (.jumpzi 576460752303423488) = false ∧ Instr.wf .eight (.jumpzi (-576460752303423488)) = true ∧
    encode .four (.jumpzi 134217728) = none := by decide

theorem test_wf_trap : Instr.wf .four (.trap 134217728) = false ∧ Instr.wf .four (.trap (-134217729)) = false ∧
    Instr.wf .four (.trap 134217727) = true ∧ Instr.wf .four (.trap (-134217728)) = true ∧
    Instr.wf .eight (.trap 576460752303423488) = false ∧ Instr.wf .eight (.trap (-576460752303423488)) = true ∧
    encode .four (.trap 134217728) = none := by decide

/-! ### Decoding of words written out from the spec -/

/-- Section 2: I2-CALLI. -/
theorem test_decode_calli :
    decode .four 0x00000000 = .ok (.calli 0) ∧
    decode .four 0xFFFFFFFC = .ok (.calli (-1)) ∧
    decode .four 0x7FFFFFFC = .ok (.calli 536870911) ∧
    decode .four 0x80000000 = .ok (.calli (-536870912)) := by
  decide

/-- Section 2: I2-PUSHI, both widths. -/
theorem test_decode_pushi :
    decode .four 0x00000001 = .ok (.pushi 0) ∧
    decode .four 0xFFFFFFF1 = .ok (.pushi (-4)) ∧
    decode .four 0x80000001 = .ok (.pushi (-536870912)) ∧
    decode .eight 0x00000000FFFFFFF1 = .ok (.pushi 1073741820) ∧
    decode .eight 0xFFFFFFFFFFFFFFE1 = .ok (.pushi (-8)) := by
  decide

/-- Section 2 and R92: I2-PUSHRELI. -/
theorem test_decode_pushreli :
    decode .four 0x00000002 = .ok (.pushreli 0) ∧
    decode .four 0xFFFFFFFE = .ok (.pushreli (-1)) ∧
    decode .four 0x00000016 = .ok (.pushreli 5) := by
  decide

/-- Section 2: I4-JUMPI. -/
theorem test_decode_jumpi :
    decode .four 0x00000013 = .ok (.jumpi 1) ∧
    decode .four 0xFFFFFFF3 = .ok (.jumpi (-1)) ∧
    decode .four 0x7FFFFFF3 = .ok (.jumpi 134217727) ∧
    decode .four 0x80000003 = .ok (.jumpi (-134217728)) ∧
    decode .eight 0xFFFFFFFFFFFFFFF3 = .ok (.jumpi (-1)) := by
  decide

/-- Section 2 and R94: I4-JUMPZI. -/
theorem test_decode_jumpzi :
    decode .four 0xFFFFFFE7 = .ok (.jumpzi (-2)) ∧
    decode .four 0x00000027 = .ok (.jumpzi 2) := by
  decide

/-- Section 2: I4-TRAP. -/
theorem test_decode_trap :
    decode .four 0x0000000B = .ok (.trap 0) ∧
    decode .four 0x0000001B = .ok (.trap 1) ∧
    decode .four 0xFFFFFFFB = .ok (.trap (-1)) := by
  decide

/-- Rule R67, the words 0x00F to 0x07F. -/
theorem test_decode_logic :
    decode .four 0x00F = .ok .nop ∧
    decode .four 0x01F = .ok .not ∧
    decode .four 0x02F = .ok .and ∧
    decode .four 0x03F = .ok .or ∧
    decode .four 0x04F = .ok .xor ∧
    decode .four 0x05F = .ok .lshift ∧
    decode .four 0x06F = .ok .rshift ∧
    decode .four 0x07F = .ok .arshift := by
  decide

/-- Rule R67, the words 0x18F to 0x1FF. -/
theorem test_decode_arith :
    decode .four 0x18F = .ok .negate ∧
    decode .four 0x19F = .ok .add ∧
    decode .four 0x1AF = .ok .mul ∧
    decode .four 0x1BF = .ok .divmod ∧
    decode .four 0x1CF = .ok .udivmod ∧
    decode .four 0x1DF = .ok .eq ∧
    decode .four 0x1EF = .ok .lt ∧
    decode .four 0x1FF = .ok .ult := by
  decide

/-- Rule R67, stack manipulation. -/
theorem test_decode_stack :
    decode .four 0x08F = .ok .pop ∧
    decode .four 0x09F = .ok .dup ∧
    decode .four 0x0AF = .ok .set ∧
    decode .four 0x0BF = .ok .swap ∧
    decode .four 0x20F = .ok .pushs ∧
    decode .four 0x21F = .ok .pops ∧
    decode .four 0x22F = .ok .dups := by
  decide

/-- Rule R67, control transfer. -/
theorem test_decode_control :
    decode .four 0x0CF = .ok .jump ∧
    decode .four 0x0DF = .ok .jumpz ∧
    decode .four 0x0EF = .ok .call ∧
    decode .four 0x0FF = .ok .ret ∧
    decode .four 0x23F = .ok .catch_ ∧
    decode .four 0x24F = .ok .throw_ ∧
    decode .four 0x25F = .ok .break_ ∧
    decode .eight 0x000000000000025F = .ok .break_ := by
  decide

/-- Rule R67, memory access. -/
theorem test_decode_memory :
    decode .four 0x10F = .ok .load ∧
    decode .four 0x11F = .ok .store ∧
    decode .four 0x12F = .ok .load1 ∧
    decode .four 0x13F = .ok .store1 ∧
    decode .four 0x14F = .ok .load2 ∧
    decode .four 0x15F = .ok .store2 ∧
    decode .four 0x16F = .ok .load4 ∧
    decode .four 0x17F = .ok .store4 := by
  decide

/-- Rule R67, registers. -/
theorem test_decode_registers :
    decode .four 0x26F = .ok .wordBytes ∧
    decode .four 0x27F = .ok .getSsize ∧
    decode .four 0x28F = .ok .getSp ∧
    decode .four 0x29F = .ok .setSp ∧
    decode .four 0x2AF = .ok .getDsize ∧
    decode .four 0x2BF = .ok .getDp ∧
    decode .four 0x2CF = .ok .setDp ∧
    decode .four 0x2DF = .ok .getHandlerSp := by
  decide

/-- Section 2: opcode numbers above 0x2D, the bits above the map's included. -/
theorem test_decode_invalid :
    decode .four 0x000002EF = .error (.invalidOpcode 0x2E) ∧
    decode .four 0xFFFFFFFF = .error (.invalidOpcode 0xFFFFFFF) ∧
    decode .four 0x8000000F = .error (.invalidOpcode 0x8000000) ∧
    decode .four 0x1000025F = .error (.invalidOpcode 0x1000025) ∧
    decode .eight 0x00000000FFFFFFFF = .error (.invalidOpcode 0xFFFFFFF) ∧
    decode .eight 0x000000010000025F = .error (.invalidOpcode 0x10000025) := by
  decide

/-- Too few bytes are no instruction (rule R60); the first `W` bytes are, and the rest is left. -/
theorem test_decodeBytes : decodeBytes .four .little [0x5F, 0x02, 0x00] = .error .truncated ∧
    decodeBytes .four .little [0x5F, 0x02, 0x00, 0x00, 0x07] = .ok (.break_, [0x07]) ∧
    decodeBytes .four .big [0x00, 0x00, 0x02, 0x5F] = .ok (.break_, []) := by decide

theorem test_decodeTableWord : decodeTableWord 16 0x025F = some .break_ ∧ decodeTableWord 32 0xFFFFFFF1 = some (.pushi (-4)) ∧
    decodeTableWord 16 0x02EF = none := by decide

/-! ### One step of each instruction -/

-- I10
theorem test_calli : after (.calli 2) (block [] []) = some ([], [0x1004], 0, 0x100C, []) := by decide

-- I13 on the platform's capacity
theorem test_calli_full : after (.calli 2) (block [] [1, 2, 3, 4, 5, 6, 7, 8]) = some ([], [1, 2, 3, 4, 5, 6, 7, 8], 0, 0x1004, [.word (-3)]) := by decide

-- I2
theorem test_pushi : after (.pushi (-4)) (block [] []) = some ([-4], [], 0, 0x1004, []) := by decide

-- S2 on the platform's capacity
theorem test_pushi_full : after (.pushi 7) (block [1, 2, 3, 4, 5, 6, 7, 8] []) = some ([1, 2, 3, 4, 5, 6, 7, 8], [], 0, 0x1004, [.word (-3)]) := by decide

-- I7
theorem test_pushreli : after (.pushreli (-1)) (block [] []) = some ([0x1000], [], 0, 0x1004, []) := by decide

-- I9
theorem test_pushreli_wraps : after (.pushreli (-1026)) (block [] []) = some ([-4], [], 0, 0x1004, []) := by decide

-- I14
theorem test_jumpi : after (.jumpi 3) (block [] []) = some ([], [], 0, 0x1010, []) := by decide

-- I15
theorem test_jumpi_self : after (.jumpi (-1)) (block [] []) = some ([], [], 0, 0x1000, []) := by decide

-- I17
theorem test_jumpzi : after (.jumpzi 3) (block [0] []) = some ([], [], 0, 0x1010, []) := by decide

-- I19
theorem test_jumpzi_not_taken : after (.jumpzi 3) (block [-1] []) = some ([], [], 0, 0x1004, []) := by decide

-- T5
theorem test_trap_unknown : after (.trap 0) (block [3, 5] [0, 0x1008] 2) = some ([3, -17], [], 0, 0x1008, []) := by decide

-- T3
theorem test_trap_library : after (.trap (-1)) (block [3, 5] []) = some ([3, 5], [], 0, 0x1004, [.word (-16)]) := by decide

-- A1
theorem test_nop : after .nop (block [3] []) = some ([3], [], 0, 0x1004, []) := by decide

-- A3: 0xF0F0F0F0
theorem test_not : after .not (block [0x0F0F0F0F] []) = some ([-0x0F0F0F10], [], 0, 0x1004, []) := by decide

-- A5
theorem test_and : after .and (block [0xFF00FF00, 0x0FF00FF0] []) = some ([0x0F000F00], [], 0, 0x1004, []) := by decide

-- A8
theorem test_and_one_item : after .and (block [5] []) = some ([], [], 0, 0x1004, [.word (-2)]) := by decide

-- A6: 0xFFF0FFF0
theorem test_or : after .or (block [0xFF00FF00, 0x0FF00FF0] []) = some ([-0x000F0010], [], 0, 0x1004, []) := by decide

-- A7: 0xF0F0F0F0
theorem test_xor : after .xor (block [0xFF00FF00, 0x0FF00FF0] []) = some ([-0x0F0F0F10], [], 0, 0x1004, []) := by decide

-- R105
theorem test_lshift : after .lshift (block [-1, 1] []) = some ([-2], [], 0, 0x1004, []) := by decide

-- R105
theorem test_lshift_xlen : after .lshift (block [1, 32] []) = some ([0], [], 0, 0x1004, []) := by decide

-- R106
theorem test_rshift : after .rshift (block [-1, 1] []) = some ([0x7FFFFFFF], [], 0, 0x1004, []) := by decide

-- R106
theorem test_rshift_xlen : after .rshift (block [-1, 32] []) = some ([0], [], 0, 0x1004, []) := by decide

-- R107
theorem test_arshift : after .arshift (block [-15, 2] []) = some ([-4], [], 0, 0x1004, []) := by decide

-- R107, signfill
theorem test_arshift_xlen : after .arshift (block [-1, 32] []) = some ([-1], [], 0, 0x1004, []) := by decide

-- R108
theorem test_negate : after .negate (block [-2147483648] []) = some ([-2147483648], [], 0, 0x1004, []) := by decide

-- A61
theorem test_add : after .add (block [1, 2, 3, 4, 5, 6, 7, 8] []) = some ([1, 2, 3, 4, 5, 6, 15], [], 0, 0x1004, []) := by decide

-- X16
theorem test_add_one_item : after .add (block [5] [0, 0x1008] 2) = some ([-2], [], 0, 0x1008, []) := by decide

-- R110
theorem test_mul : after .mul (block [6, -7] []) = some ([-42], [], 0, 0x1004, []) := by decide

-- R111
theorem test_divmod : after .divmod (block [-7, 2] []) = some ([-3, -1], [], 0, 0x1004, []) := by decide

-- A44
theorem test_divmod_min : after .divmod (block [-2147483648, -1] []) = some ([-2147483648, 0], [], 0, 0x1004, []) := by decide

-- A49
theorem test_udivmod : after .udivmod (block [-7, 2] []) = some ([0x7FFFFFFC, 1], [], 0, 0x1004, []) := by decide

-- A50
theorem test_udivmod_zero : after .udivmod (block [7, 0] []) = some ([0, 7], [], 0, 0x1004, []) := by decide

-- A53
theorem test_eq : after .eq (block [3, 4] []) = some ([0], [], 0, 0x1004, []) := by decide

-- A57
theorem test_lt : after .lt (block [-2147483648, 2147483647] []) = some ([1], [], 0, 0x1004, []) := by decide

-- A59
theorem test_ult : after .ult (block [1, -1] []) = some ([1], [], 0, 0x1004, []) := by decide

-- S4
theorem test_pop : after .pop (block [5, 6] []) = some ([5], [], 0, 0x1004, []) := by decide

-- X9
theorem test_pop_empty : after .pop (block [] [0, 0x1008, 2, 0x1020] 4) = some ([-2], [0, 0x1008], 2, 0x1020, []) := by decide

-- K3
theorem test_dup : after .dup (block [10, 20, 30, 2] []) = some ([10, 20, 30, 10], [], 0, 0x1004, []) := by decide

-- K4
theorem test_dup_too_deep : after .dup (block [10, 20, 30, 3] []) = some ([10, 20, 30], [], 0, 0x1004, [.word (-2)]) := by decide

-- K9
theorem test_set : after .set (block [10, 20, 30, 99, 2] []) = some ([99, 20, 30], [], 0, 0x1004, []) := by decide

-- K10
theorem test_set_too_deep : after .set (block [10, 20, 30, 99, 3] []) = some ([10, 20, 30], [], 0, 0x1004, [.word (-2)]) := by decide

-- K13
theorem test_swap : after .swap (block [-1, -4, 4, 1] []) = some ([4, -4, -1], [], 0, 0x1004, []) := by decide

-- K14
theorem test_swap_too_deep : after .swap (block [1, 2, 3, 2] []) = some ([1, 2, 3], [], 0, 0x1004, [.word (-2)]) := by decide

-- K17
theorem test_pushs : after .pushs (block [5, 6] []) = some ([5], [6], 0, 0x1004, []) := by decide

-- K23
theorem test_pops : after .pops (block [] [0, 0x1008] 2) = some ([0x1008], [0], 2, 0x1004, []) := by decide

-- K19
theorem test_dups : after .dups (block [5] [0x1234]) = some ([5, 0x1234], [0x1234], 0, 0x1004, []) := by decide

-- CT1
theorem test_jump : after .jump (block [0x1040] []) = some ([], [], 0, 0x1040, []) := by decide

-- CT2
theorem test_jump_misaligned : after .jump (block [0x1042] []) = some ([], [], 0, 0x1004, [.word (-4)]) := by decide

-- CT5
theorem test_jumpz : after .jumpz (block [0, 0x1040] []) = some ([], [], 0, 0x1040, []) := by decide

-- CT7
theorem test_jumpz_not_taken : after .jumpz (block [5, 0x1041] []) = some ([], [], 0, 0x1004, []) := by decide

-- CT10
theorem test_call : after .call (block [0x1040] []) = some ([], [0x1004], 0, 0x1040, []) := by decide

-- CT11
theorem test_call_misaligned : after .call (block [0x1042] []) = some ([], [], 0, 0x1004, [.word (-4)]) := by decide

-- CT17
theorem test_ret : after .ret (block [7] [0, 0x1008, 0x1044] 2) = some ([7], [0, 0x1008], 2, 0x1044, []) := by decide

-- CT19
theorem test_ret_leaves_region : after .ret (block [] [0, 0x1008, 2, 0x1020] 4) = some ([0], [0, 0x1008], 2, 0x1020, []) := by decide

-- CT21
theorem test_catch : after .catch_ (block [0x1040] [0, 0x1008] 2) = some ([], [0, 0x1008, 2, 0x1004], 4, 0x1040, []) := by decide

-- CT22 on the platform's capacity
theorem test_catch_no_room : after .catch_ (block [0x1040] [1, 2, 3, 4, 5, 6, 7]) = some ([], [1, 2, 3, 4, 5, 6, 7], 0, 0x1004, [.word (-3)]) := by decide

-- CT28
theorem test_throw : after .throw_ (block [7, -9] [0, 0x1008, 0x1044] 2) = some ([7, -9], [], 0, 0x1008, []) := by decide

-- CT25
theorem test_throw_stops : after .throw_ (block [0] []) = some ([], [], 0, 0x1004, [.word (0)]) := by decide

-- CT33
theorem test_break : after .break_ (block [3] [0, 0x1008] 2) = some ([3], [0, 0x1008], 2, 0x1000, [.word (-256)]) := by decide

-- M3
theorem test_load : after .load (block8 [0x2804]) = some ([0x55667788], [], 0, 0x1004, []) := by decide

-- M5
theorem test_load_misaligned : after .load (block8 [0x2802]) = some ([], [], 0, 0x1004, [.word (-4)]) := by decide

-- M7
theorem test_load1 : after .load1 (block8 [0x2804]) = some ([136], [], 0, 0x1004, []) := by decide

-- M9
theorem test_load2 : after .load2 (block8 [0x2804]) = some ([0x7788], [], 0, 0x1004, []) := by decide

-- M10
theorem test_load2_misaligned : after .load2 (block8 [0x2801]) = some ([], [], 0, 0x1004, [.word (-4)]) := by decide

-- M11
theorem test_load4 : after .load4 (block8 [0x2804]) = some ([0x55667788], [], 0, 0x1004, []) := by decide

-- M14
theorem test_store : bytes8 (exec .store ⟨.four, block8 [0x0A0B0C0D, 0x2804]⟩) = some [0x44, 0x33, 0x22, 0x11, 0x0D, 0x0C, 0x0B, 0x0A] := by decide

-- M16
theorem test_store_misaligned : bytes8 (exec .store ⟨.four, block8 [0x0A0B0C0D, 0x2806]⟩) = some [0x44, 0x33, 0x22, 0x11, 0x88, 0x77, 0x66, 0x55] := by decide

-- M17
theorem test_store1 : bytes8 (exec .store1 ⟨.four, block8 [0x1234, 0x2801]⟩) = some [0x44, 0x34, 0x22, 0x11, 0x88, 0x77, 0x66, 0x55] := by decide

-- M18
theorem test_store2 : bytes8 (exec .store2 ⟨.four, block8 [0xABCD1234, 0x2806]⟩) = some [0x44, 0x33, 0x22, 0x11, 0x88, 0x77, 0x34, 0x12] := by decide

-- M20
theorem test_store4 : bytes8 (exec .store4 ⟨.four, block8 [0xCAFEF00D, 0x2800]⟩) = some [0x0D, 0xF0, 0xFE, 0xCA, 0x88, 0x77, 0x66, 0x55] := by decide

-- RG1
theorem test_wordBytes : after .wordBytes (block [] []) = some ([4], [], 0, 0x1004, []) := by decide

-- RG3
theorem test_getSsize : after .getSsize ({ block [] [] with ssize := 5 }) = some ([5], [], 0, 0x1004, []) := by decide

-- RG4
theorem test_getDsize : after .getDsize ({ block [] [] with dsize := 6 }) = some ([6], [], 0, 0x1004, []) := by decide

-- RG5
theorem test_getSp : after .getSp (block [] [1, 2, 3]) = some ([3], [1, 2, 3], 0, 0x1004, []) := by decide

-- RG10
theorem test_setSp : after .setSp (block [1] [1, 2, 3]) = some ([], [1], 0, 0x1004, []) := by decide

-- RG6
theorem test_getDp : after .getDp (block [9, 9] []) = some ([9, 9, 2], [], 0, 0x1004, []) := by decide

-- RG13
theorem test_setDp : after .setDp (block [1, 2, 3, 2] []) = some ([1, 2], [], 0, 0x1004, []) := by decide

-- RG8
theorem test_getHandlerSp : after .getHandlerSp (block [] [0, 0x1008] 2) = some ([2], [0, 0x1008], 2, 0x1004, []) := by decide

/-! ### The run loop, the stub -/

-- X1, X6: the fetch fault leaves `pc`, the invalid opcode goes to the handler
theorem test_fetch_fault : shown (step ⟨.four, (block [] []).setPc 0x1002⟩) = some ([], [], 0, 0x1002, [.word (-4)]) := by
  decide

theorem test_invalid_opcode :
    shown (step ⟨.four, fetching 0x2EF [7] [0, 0x1008] 2⟩) = some ([7, -1], [], 0, 0x1008, []) := by decide

/-- The first step after reset with a word placed: `PUSHI 1` (I1). -/
theorem test_withFetchWord :
    shown (step (State.reset.withFetchWord 32 0x00000005)) = some ([1], [], 0, 0x1004, []) := by decide

-- R192, R203: the checksums and the register text that the rules print
theorem test_checksum : checksum [ascii 'O', ascii 'K'] = 0x9A ∧ checksum [ascii 'S', ascii '0', ascii '5'] = 0xB8 ∧
    checksum [] = 0 := by decide

theorem test_regBlock : ((block [] []).setPc 0x1000).regBlock =
    "0010000000200000080000000000000000300000080000000000000000000000".toList.map ascii := by decide

/-! ### Witnesses: every premise of a statement of Obligations.lean is met by some state, at the ends of its range -/

/-- Data stack full, return stack empty. -/
abbrev full : Block .four := block [1, 2, 3, 4, 5, 6, 7, 8] []

/-- One free slot on the data stack. -/
abbrev oneFree : Block .four := block [1, 2, 3, 4, 5, 6, 7] []

/-- Return stack full. -/
abbrev fullS (d : List Int) : Block .four := block d [1, 2, 3, 4, 5, 6, 7, 0x1008]

/-- The overflowed states of rule R270. -/
abbrev overD : Block .four := (block [] []).setDp 9

abbrev overS : Block .four := (block [] []).setSp 9

/-- The data stack outside memory. -/
abbrev farD (d : Nat) : Block .four := { block [] [] with d0 := 0x4000, dp := BitVec.ofNat _ d }

/-- The embedder's commands waiting. -/
abbrev idleWith (cs : List (HostCmd .four)) : Block .four :=
  { block [] [] with act := .idle, io := { (block [] []).io with cmds := cs } }

/-- The greatest opcode of the map and the one above it. -/
theorem witness_DecoderByTagAndField :
    (0x0000000C : Word .four).toNat % 4 = 0 ∧
    (0xFFFFFFF1 : Word .four).toNat % 4 = 1 ∧
    (0x00000016 : Word .four).toNat % 4 = 2 ∧
    (0xFFFFFFE3 : Word .four).toNat % 16 = 3 ∧
    (0x00000027 : Word .four).toNat % 16 = 7 ∧
    (0xFFFFFFFB : Word .four).toNat % 16 = 11 ∧
    ((0x2DF : Word .four).toNat % 16 = 15 ∧ (0x2DF : Word .four).toNat / 16 ≤ 0x2D) ∧
    ((0x2EF : Word .four).toNat % 16 = 15 ∧ 0x2D < (0x2EF : Word .four).toNat / 16) := by
  decide

theorem witness_EncodeThenDecode :
    -(2 : Int) ^ (WordSize.four.xlen - 3) ≤ -536870912 ∧
    (-536870912 : Int) < 2 ^ (WordSize.four.xlen - 3) ∧
    (536870911 : Int) < 2 ^ (WordSize.four.xlen - 3) ∧
    (2 : Int) ^ (WordSize.four.xlen - 3) ≤ 536870912 ∧
    (-536870913 : Int) < -2 ^ (WordSize.four.xlen - 3) ∧
    -(2 : Int) ^ (WordSize.four.xlen - 5) ≤ -134217728 ∧
    (134217727 : Int) < 2 ^ (WordSize.four.xlen - 5) ∧
    (2 : Int) ^ (WordSize.four.xlen - 5) ≤ 134217728 ∧
    opcodeOf .getHandlerSp = some 0x2D := by
  decide

theorem witness_DecodeThenEncode :
    decode .four 0x80000003 = .ok (.jumpi (-134217728)) := by
  decide

theorem witness_ByteOrderOfAccesses :
    (block [5] []).cfg.byteOrder = .little ∧
    (block [5] []).mem.wf = true ∧
    (3 : Nat) < widthBytes .four .word ∧
    ({ block [5] [] with cfg := { Config.default .four with byteOrder := .big } } : Block .four).cfg.byteOrder = .big := by
  decide

theorem witness_ReadReturnsLastWrite :
    (block [5] []).mem.wf = true := by
  decide

/-- The bytes just above and just below `MEM_VALID`. -/
theorem witness_OutsideMemValidIsRefused :
    (((block [] []).setPc 0x4000).act = .run .host ∧ aligned ((block [] []).setPc 0x4000).pc 4 = true ∧
      ((block [] []).setPc 0x4000).valid 0x4000 4 = false) ∧
    ((block [0x4000] []).dHas 1 ∧ aligned ((block [0x4000] []).dItem 0) 4 = true ∧
      (block [0x4000] []).valid ((block [0x4000] []).dItem 0) 4 = false) ∧
    ((block [0x0FFF] []).dHas 1 ∧ aligned ((block [0x0FFF] []).dItem 0) 1 = true ∧
      (block [0x0FFF] []).valid ((block [0x0FFF] []).dItem 0) 1 = false) ∧
    ((block [7, 0x4000] []).dHas 2 ∧ aligned ((block [7, 0x4000] []).dItem 0) 2 = true ∧
      (block [7, 0x4000] []).valid ((block [7, 0x4000] []).dItem 0) 2 = false) ∧
    ((farD 0).dp.toNat < (farD 0).dsize.toNat ∧ (farD 0).valid (farD 0).dFree 4 = false) ∧
    (0 < (farD 1).dp.toNat ∧ (farD 1).dp.toNat ≤ (farD 1).dsize.toNat ∧ (farD 1).valid ((farD 1).dAddr 0) 4 = false) := by
  decide

theorem witness_PushDRule :
    (full).mem.wf = true ∧
    full.dsize.toNat ≤ full.dp.toNat ∧
    (oneFree).mem.wf = true ∧
    oneFree.dRoom ∧
    overD.dsize.toNat ≤ overD.dp.toNat := by
  decide

/-- Also the premises of every `PopsOne`. -/
theorem witness_PopDRule :
    (block [] []).dp.toNat = 0 ∧
    overD.dsize.toNat < overD.dp.toNat ∧
    full.dHas 1 ∧
    (block [5] []).dHas 1 := by
  decide

/-- The premises of every `PopsTwo`. -/
theorem witness_PopsTwo :
    ((block [5] []).dp.toNat = 1 ∧ (block [5] []).dHas 1) ∧
    (block [] []).dp.toNat = 0 ∧
    overD.dsize.toNat < overD.dp.toNat := by
  decide

theorem witness_PushSRule :
    (fullS []).ssize.toNat ≤ (fullS []).sp.toNat ∧
    (fullS []).mem.wf = true ∧
    (block [] [1, 2, 3, 4, 5, 6, 7]).sRoom 1 ∧
    overS.ssize.toNat ≤ overS.sp.toNat := by
  decide

theorem witness_PopSRule :
    (block [] []).sp.toNat = 0 ∧
    overS.ssize.toNat < overS.sp.toNat ∧
    (fullS []).sHas 1 ∧
    (block [] [5]).sHas 1 := by
  decide

theorem witness_PushThenPopIsIdentity :
    (oneFree).mem.wf = true ∧
    oneFree.dRoom ∧
    (block [] [1, 2, 3, 4, 5, 6, 7]).sRoom 1 ∧
    (block [] []).dp = 0 ∧
    (block [] []).sp = 0 ∧
    full.dp = full.dsize ∧
    (fullS []).sp = (fullS []).ssize := by
  decide

theorem witness_ImmediatePushes :
    (oneFree).mem.wf = true ∧
    oneFree.dRoom ∧
    (full).mem.wf = true ∧
    full.dsize.toNat ≤ full.dp.toNat ∧
    -(2 : Int) ^ (WordSize.four.xlen - 3) ≤ -536870912 ∧
    (536870911 : Int) < 2 ^ (WordSize.four.xlen - 3) := by
  decide

theorem witness_ImmediateJumps :
    ((block [0] []).dHas 1 ∧ (block [0] []).dItem 0 = 0) ∧
    ((block [-1] []).dHas 1 ∧ (block [-1] []).dItem 0 ≠ 0) ∧
    -(2 : Int) ^ (WordSize.four.xlen - 5) ≤ -134217728 ∧
    (134217727 : Int) < 2 ^ (WordSize.four.xlen - 5) := by
  decide

theorem witness_CallsPushReturnAddress :
    (block [0x1040] [1, 2, 3, 4, 5, 6, 7]).mem.wf = true ∧
    (block [0x1040] [1, 2, 3, 4, 5, 6, 7]).sRoom 1 ∧
    (block [0x1040] [1, 2, 3, 4, 5, 6, 7]).dHas 1 ∧
    ((block [0x1040] []).dItem 0).toNat % 4 = 0 ∧
    ((block [0x1042] []).dHas 1 ∧ ((block [0x1042] []).dItem 0).toNat % 4 ≠ 0) ∧
    (fullS [0x1040]).ssize.toNat ≤ (fullS [0x1040]).sp.toNat ∧
    ((fullS [0x1040]).dHas 1 ∧ ((fullS [0x1040]).dItem 0).toNat % 4 = 0) := by
  decide

theorem witness_BitwiseResults :
    (block [12, 10] []).mem.wf = true ∧
    (block [5] []).dHas 1 ∧
    (block [12, 10] []).dHas 2 ∧
    full.dHas 2 := by
  decide

theorem witness_ShiftResults :
    ((block [-1, 31] []).dHas 2 ∧ ((block [-1, 31] []).dItem 0).toNat < WordSize.four.xlen) ∧
    ((block [-1, 32] []).dHas 2 ∧ WordSize.four.xlen ≤ ((block [-1, 32] []).dItem 0).toNat) ∧
    ((block [-1, 32] []).cfg.overshift = .signfill ∧ ((block [-1, 32] []).dItem 1).toInt < 0) ∧
    0 ≤ ((block [0, 32] []).dItem 1).toInt ∧
    ({ block [] [] with cfg := { Config.default .four with overshift := .zero } } : Block .four).cfg.overshift = .zero ∧
    (block [-1, 32] []).mem.wf = true := by
  decide

theorem witness_ArithmeticResults :
    (block [4, -4] []).mem.wf = true ∧
    (block [1] []).dHas 1 ∧
    (block [4, -4] []).dHas 2 := by
  decide

theorem witness_DivisionResults :
    (block [7, 0] []).mem.wf = true ∧
    ((block [7, 0] []).dHas 2 ∧ (block [7, 0] []).dItem 0 = 0) ∧
    ((block [-2147483648, -1] []).dItem 1 = BitVec.intMin WordSize.four.xlen ∧ ((block [-2147483648, -1] []).dItem 0).toInt = -1) ∧
    ((block [-7, 2] []).dHas 2 ∧ (block [-7, 2] []).dItem 0 ≠ 0) := by
  decide

theorem witness_ComparisonResults :
    (block [2, 2] []).mem.wf = true ∧
    ((block [2, 2] []).dHas 2 ∧ (block [2, 2] []).dItem 1 = (block [2, 2] []).dItem 0) ∧
    (block [1, -1] []).dItem 1 ≠ (block [1, -1] []).dItem 0 ∧
    ((block [-1, 1] []).dItem 1).toInt < ((block [-1, 1] []).dItem 0).toInt ∧
    ((block [1, -1] []).dItem 0).toInt ≤ ((block [1, -1] []).dItem 1).toInt ∧
    ((block [1, -1] []).dItem 1).toNat < ((block [1, -1] []).dItem 0).toNat ∧
    ((block [-1, 1] []).dItem 0).toNat ≤ ((block [-1, 1] []).dItem 1).toNat := by
  decide

/-- The deepest item and one below it (R121's examples). -/
theorem witness_PopAndDup :
    (block [5, 7, 1] []).mem.wf = true ∧
    (block [5, 7, 1] []).dHas 1 ∧
    ((block [5, 7, 1] []).dItem 0).toNat + 2 ≤ (block [5, 7, 1] []).dp.toNat ∧
    (block [5, 7, 1] []).valid ((block [5, 7, 1] []).dAddr 2) 4 = true ∧
    ((block [5, 7, 2] []).dHas 1 ∧ (block [5, 7, 2] []).dp.toNat < ((block [5, 7, 2] []).dItem 0).toNat + 2) := by
  decide

/-- The deepest item and one below it (R122's and R123's examples). -/
theorem witness_SetAndSwap :
    (block [5, 7, 9, 1] []).mem.wf = true ∧
    ((block [5, 7, 9, 1] []).dHas 2 ∧ ((block [5, 7, 9, 1] []).dItem 0).toNat + 3 ≤ (block [5, 7, 9, 1] []).dp.toNat) ∧
    (block [5, 7, 9, 1] []).valid ((block [5, 7, 9, 1] []).dAddr 3) 4 = true ∧
    ((block [5, 7, 9, 2] []).dHas 2 ∧ (block [5, 7, 9, 2] []).dp.toNat < ((block [5, 7, 9, 2] []).dItem 0).toNat + 3) ∧
    ((block [6, 0] []).dHas 1 ∧ (block [6, 0] []).dp.toNat < ((block [6, 0] []).dItem 0).toNat + 3) := by
  decide

theorem witness_ReturnStackMoves :
    (block [5] [6]).mem.wf = true ∧
    ((block [5] [1, 2, 3, 4, 5, 6, 7]).dHas 1 ∧ (block [5] [1, 2, 3, 4, 5, 6, 7]).sRoom 1) ∧
    ((fullS [9]).dHas 1 ∧ (fullS [9]).ssize.toNat ≤ (fullS [9]).sp.toNat) ∧
    ((block [1, 2, 3, 4, 5, 6, 7] [7]).sHas 1 ∧ (block [1, 2, 3, 4, 5, 6, 7] [7]).dRoom) ∧
    ((block [1, 2, 3, 4, 5, 6, 7, 8] [7]).sHas 1 ∧
      (block [1, 2, 3, 4, 5, 6, 7, 8] [7]).dsize.toNat ≤ (block [1, 2, 3, 4, 5, 6, 7, 8] [7]).dp.toNat) ∧
    (block [] []).sp.toNat = 0 ∧
    overS.ssize.toNat < overS.sp.toNat := by
  decide

theorem witness_JumpsThroughTheStack :
    ((block [0x1040] []).dHas 1 ∧ ((block [0x1040] []).dItem 0).toNat % 4 = 0) ∧
    ((block [0x1042] []).dHas 1 ∧ ((block [0x1042] []).dItem 0).toNat % 4 ≠ 0) ∧
    ((block [0, 0x1040] []).dHas 2 ∧ (block [0, 0x1040] []).dItem 1 = 0 ∧ ((block [0, 0x1040] []).dItem 0).toNat % 4 = 0) ∧
    ((block [5, 0x1041] []).dHas 2 ∧ (block [5, 0x1041] []).dItem 1 ≠ 0) ∧
    ((block [0, 0x1041] []).dHas 2 ∧ (block [0, 0x1041] []).dItem 1 = 0 ∧ ((block [0, 0x1041] []).dItem 0).toNat % 4 ≠ 0) := by
  decide

theorem witness_RetReturnsAndLeavesRegion :
    (block [] [0x1040]).mem.wf = true ∧
    ((block [] [0x1040]).sHas 1 ∧ ((block [] [0x1040]).sItem 0).toNat % 4 = 0 ∧
      (block [] [0x1040]).handlerSp.toNat ≤ (block [] [0x1040]).sp.toNat - 1) ∧
    ((block [] [0, 0x1008] 2).sHas 2 ∧ ((block [] [0, 0x1008] 2).sItem 0).toNat % 4 = 0 ∧ (block [] [0, 0x1008] 2).sp.toNat - 1 < (block [] [0, 0x1008] 2).handlerSp.toNat ∧ (block [] [0, 0x1008] 2).dRoom) ∧
    (block [] []).sp.toNat = 0 ∧
    overS.ssize.toNat < overS.sp.toNat ∧
    ((block [] [0x1042]).sHas 1 ∧ ((block [] [0x1042]).sItem 0).toNat % 4 ≠ 0) ∧
    ((block [] [0x1008] 1).sHas 1 ∧ ((block [] [0x1008] 1).sItem 0).toNat % 4 = 0 ∧ (block [] [0x1008] 1).sp.toNat = 1 ∧
      0 < (block [] [0x1008] 1).handlerSp.toNat) ∧
    ((block [1, 2, 3, 4, 5, 6, 7, 8] [0, 0x1008] 2).sHas 2 ∧ ((block [1, 2, 3, 4, 5, 6, 7, 8] [0, 0x1008] 2).sItem 0).toNat % 4 = 0 ∧
      full.dsize.toNat ≤ full.dp.toNat) := by
  decide

/-- Exactly two free slots, and one. -/
theorem witness_CatchInstallsFrame :
    (block [0x1040] [1, 2, 3, 4, 5, 6]).mem.wf = true ∧
    ((block [0x1040] [1, 2, 3, 4, 5, 6]).dHas 1 ∧ ((block [0x1040] [1, 2, 3, 4, 5, 6]).dItem 0).toNat % 4 = 0 ∧ (block [0x1040] [1, 2, 3, 4, 5, 6]).sRoom 2) ∧
    ((block [0x1042] []).dHas 1 ∧ ((block [0x1042] []).dItem 0).toNat % 4 ≠ 0) ∧
    ((block [0x1040] [1, 2, 3, 4, 5, 6, 7]).dHas 1 ∧ ((block [0x1040] [1, 2, 3, 4, 5, 6, 7]).dItem 0).toNat % 4 = 0 ∧ (block [0x1040] [1, 2, 3, 4, 5, 6, 7]).ssize.toNat < (block [0x1040] [1, 2, 3, 4, 5, 6, 7]).sp.toNat + 2) := by
  decide

theorem witness_ThrowDeliversCode :
    ((block [0] []).dHas 1 ∧ (block [0] []).handlerSp = 0 ∧ (block [0] []).act = .run .host) ∧
    (block [7, -9] [0, 0x1008, 0x1044] 2).mem.wf = true ∧
    ((block [7, -9] [0, 0x1008, 0x1044] 2).dHas 1 ∧ 2 ≤ (block [7, -9] [0, 0x1008, 0x1044] 2).handlerSp.toNat ∧ (block [7, -9] [0, 0x1008, 0x1044] 2).handlerSp.toNat ≤ (block [7, -9] [0, 0x1008, 0x1044] 2).ssize.toNat ∧
      (block [7, -9] [0, 0x1008, 0x1044] 2).valid ((block [7, -9] [0, 0x1008, 0x1044] 2).sSlot 1) 4 = true ∧ (block [7, -9] [0, 0x1008, 0x1044] 2).valid ((block [7, -9] [0, 0x1008, 0x1044] 2).sSlot 0) 4 = true) ∧
    (block [] []).dp.toNat = 0 ∧
    overD.dsize.toNat < overD.dp.toNat := by
  decide

theorem witness_BreakStopsOnItself :
    (block [] []).act = .run .host ∧
    ((block [] []).setAct (.run .direct)).act = .run .direct ∧
    ((block [] []).setAct (.run .sst)).act = .run .sst ∧
    ((block [] []).setAct (.run .debug)).act = .run .debug := by
  decide

/-- The last word and the last byte of memory. -/
theorem witness_LoadsReadMemory :
    (block8 [0x3FFC]).mem.wf = true ∧
    ((block8 [0x3FFC]).dHas 1 ∧ ((block8 [0x3FFC]).dItem 0).toNat % 4 = 0 ∧ (block8 [0x3FFC]).valid ((block8 [0x3FFC]).dItem 0) 4 = true) ∧
    ((block8 [0x3FFF]).dHas 1 ∧ (block8 [0x3FFF]).valid ((block8 [0x3FFF]).dItem 0) 1 = true) ∧
    ((block8 [0x2802]).dHas 1 ∧ ((block8 [0x2802]).dItem 0).toNat % 4 ≠ 0) := by
  decide

theorem witness_StoresWriteMemory :
    ((block8 [7, 0x3FFC]).dHas 2 ∧ ((block8 [7, 0x3FFC]).dItem 0).toNat % 4 = 0 ∧
      (block8 [7, 0x3FFC]).valid ((block8 [7, 0x3FFC]).dItem 0) 4 = true) ∧
    ((block8 [7, 0x2805]).dHas 2 ∧ ((block8 [7, 0x2805]).dItem 0).toNat % 2 ≠ 0) ∧
    (block8 [7, 0x3FFC]).mem.wf = true := by
  decide

theorem witness_GettersPushRegisters :
    (oneFree).mem.wf = true ∧
    oneFree.dRoom ∧
    full.dsize.toNat ≤ full.dp.toNat := by
  decide

theorem witness_SettersWriteDepths :
    (block [100] []).dHas 1 := by
  decide

theorem witness_NoInstructionMovesTheStacks : ∃ t, exec .swap ⟨.four, block [6, 7, 0] []⟩ = .next t := ⟨_, rfl⟩

/-- A host with three functions: 1 does nothing, 2 adds 5 to a word, 3 pushes a word from outside, 4 does what
the host decides. -/
abbrev trapping (d : List Int) : Block .four :=
  { block d [] with cfg := { (block [] []).cfg with
      trapHost := [(1, .done), (2, .pop (.push (.sum (.got 0) (.lit 5)) .done)), (3, .push .outside .done), (4, .free)] } }

theorem witness_TrapCallsTheHost :
    (trapping [1]).mem.wf = true ∧
    (1 : Int) ≠ 0 ∧
    ((trapping [9]).dHas 1 ∧ (trapping [9]).cfg.trapHost.lookup ((trapping [9]).dItem 0) = none) ∧
    ((trapping [1]).dHas 1 ∧ (trapping [1]).cfg.trapHost.lookup ((trapping [1]).dItem 0) = some .done) ∧
    ((trapping [4, 2]).dHas 2 ∧ (trapping [4, 2]).cfg.trapHost.lookup ((trapping [4, 2]).dItem 0) =
      some (.pop (.push (.sum (.got 0) (.lit 5)) .done))) ∧
    ((trapping [3]).dHas 1 ∧ (trapping [3]).cfg.trapHost.lookup ((trapping [3]).dItem 0) = some (.push .outside .done)) ∧
    ((trapping [4]).dHas 1 ∧ (trapping [4]).cfg.trapHost.lookup ((trapping [4]).dItem 0) = some .free) := by
  decide

theorem witness_TrapHostChangesNoRegisterButDp :
    (∃ r, runHost 2 [] (.pop (.push (.sum (.got 0) (.lit 5)) .done)) (block [4] []) = .ok () r) ∧
    ∃ r, runActs [.pop, .read 0x2000 .b1, .write 0x2004 .b4 7, .push 9] (block [4] []) = .ok () r := ⟨⟨_, rfl⟩, _, rfl⟩

/-- A host's acts under way: what a failing pop leaves (rule R161: it raises as the instruction's own would). -/
theorem test_host_acts : (match runActs [.push 9, .pop, .pop, .push 1] (block [] []) with
    | .error (.raise c) r => c == ErrCode.stackUnderflow.word .four && r.dp == 0
    | _ => false) = true := by decide

theorem witness_RaiseStopsOrUnwinds :
    ((block [] []).handlerSp = 0 ∧ (block [] []).act = .run .host) ∧
    (block [] [0, 0x1008] 2).handlerSp ≠ 0 := by
  decide

/-- The least and the greatest frame of a return stack of capacity 8. -/
theorem witness_UnwindEntersHandler :
    (block [1, 2, 3, 4, 5, 6, 7] [0, 0x1008] 2).mem.wf = true ∧
    (2 ≤ (block [1, 2, 3, 4, 5, 6, 7] [0, 0x1008] 2).handlerSp.toNat ∧ (block [1, 2, 3, 4, 5, 6, 7] [0, 0x1008] 2).handlerSp.toNat ≤ (block [1, 2, 3, 4, 5, 6, 7] [0, 0x1008] 2).ssize.toNat ∧ (block [1, 2, 3, 4, 5, 6, 7] [0, 0x1008] 2).valid ((block [1, 2, 3, 4, 5, 6, 7] [0, 0x1008] 2).sSlot 1) 4 = true ∧
      (block [1, 2, 3, 4, 5, 6, 7] [0, 0x1008] 2).valid ((block [1, 2, 3, 4, 5, 6, 7] [0, 0x1008] 2).sSlot 0) 4 = true ∧ (block [1, 2, 3, 4, 5, 6, 7] [0, 0x1008] 2).dRoom) ∧
    (block [1, 2, 3, 4, 5, 6, 7, 8] [1, 2, 3, 4, 5, 6, 0, 0x1008] 8).mem.wf = true ∧
    ((block [1, 2, 3, 4, 5, 6, 7, 8] [1, 2, 3, 4, 5, 6, 0, 0x1008] 8).handlerSp.toNat ≤ (block [1, 2, 3, 4, 5, 6, 7, 8] [1, 2, 3, 4, 5, 6, 0, 0x1008] 8).ssize.toNat ∧ (block [1, 2, 3, 4, 5, 6, 7, 8] [1, 2, 3, 4, 5, 6, 0, 0x1008] 8).valid ((block [1, 2, 3, 4, 5, 6, 7, 8] [1, 2, 3, 4, 5, 6, 0, 0x1008] 8).sSlot 7) 4 = true ∧
      (block [1, 2, 3, 4, 5, 6, 7, 8] [1, 2, 3, 4, 5, 6, 0, 0x1008] 8).dsize.toNat ≤ (block [1, 2, 3, 4, 5, 6, 7, 8] [1, 2, 3, 4, 5, 6, 0, 0x1008] 8).dp.toNat) := by
  decide

/-- X12 and X13. -/
theorem witness_FaultInsideUnwindStops :
    (block [] [0, 0x1008] 9).mem.wf = true ∧
    ((block [] [0, 0x1008] 9).dp.toNat < (block [] [0, 0x1008] 9).dsize.toNat ∧ (block [] [0, 0x1008] 9).valid (block [] [0, 0x1008] 9).dFree 4 = true ∧ (block [] [0, 0x1008] 9).ssize.toNat < (block [] [0, 0x1008] 9).handlerSp.toNat) ∧
    (block [] [0x1008] 1).mem.wf = true ∧
    ((block [] [0x1008] 1).handlerSp.toNat = 1 ∧ 1 ≤ (block [] [0x1008] 1).ssize.toNat ∧ (block [] [0x1008] 1).valid ((block [] [0x1008] 1).sSlot 0) 4 = true ∧
      (block [] [0x1008] 1).valid (block [] [0x1008] 1).dFree 4 = true) ∧
    full.dsize.toNat ≤ full.dp.toNat := by
  decide

theorem witness_CatchThenRetIsTransparent :
    (block [0x1040] [1, 2, 3, 4, 5, 6]).mem.wf = true ∧
    ((block [0x1040] [1, 2, 3, 4, 5, 6]).dHas 1 ∧ ((block [0x1040] [1, 2, 3, 4, 5, 6]).dItem 0).toNat % 4 = 0 ∧ (block [0x1040] [1, 2, 3, 4, 5, 6]).pc.toNat % 4 = 0 ∧ (block [0x1040] [1, 2, 3, 4, 5, 6]).sRoom 2) := by
  decide

theorem witness_CatchThenThrowReachesHandler :
    (block [-9, 0x1040] [1, 2, 3, 4, 5, 6]).mem.wf = true ∧
    ((block [-9, 0x1040] [1, 2, 3, 4, 5, 6]).dHas 2 ∧ ((block [-9, 0x1040] [1, 2, 3, 4, 5, 6]).dItem 0).toNat % 4 = 0 ∧ (block [-9, 0x1040] [1, 2, 3, 4, 5, 6]).sRoom 2) := by
  decide

theorem witness_OnlyCatchInstallsHandlers :
    (block [] [0x1040]).handlerSp = 0 ∧ Instr.ret ≠ .catch_ ∧
      ∃ t, exec .ret ⟨.four, block [] [0x1040]⟩ = .next t := ⟨rfl, by decide, _, rfl⟩

theorem witness_InstructionsKeepPcAligned :
    (block [0x1040] []).handlerSp = 0 ∧ aligned (block [0x1040] []).pc 4 = true ∧
      ∃ t, exec .jump ⟨.four, block [0x1040] []⟩ = .next t := ⟨rfl, by decide, _, rfl⟩

theorem witness_StepRunsDecodedInstruction :
    ((fetching 0x19F [4, -4] []).act = .run .host ∧ Caller.host ≠ .direct) ∧
    (fetching 0x19F [4, -4] []).pc.toNat % 4 = 0 ∧
    (fetching 0x19F [4, -4] []).valid (fetching 0x19F [4, -4] []).pc 4 = true ∧
    decode .four ((fetching 0x19F [4, -4] []).word (fetching 0x19F [4, -4] []).pc) = .ok .add := by
  decide

/-- A direct-mode `STEP` of an instruction that goes on, and of one that ends the run. -/
theorem witness_StepRunsDecodedInstruction_direct :
    (∃ r : Block .four, exec .add ⟨.four, (((fetching 0x19F [4, -4] []).setAct (.run .direct)).setPc 0x1004)⟩ = .next ⟨.four, r⟩ ∧
      r.act = .run .direct) ∧
    (∃ r : Block .four, exec .break_ ⟨.four, (((fetching 0x19F [4, -4] []).setAct (.run .direct)).setPc 0x1004)⟩ = .next ⟨.four, r⟩ ∧
      r.act ≠ .run .direct) := ⟨⟨_, rfl, rfl⟩, _, rfl, by decide⟩

theorem witness_FetchAndDecodeFaults :
    (((block [] []).setPc 0x1002).act = .run .host ∧ ((block [] []).setPc 0x1002).pc.toNat % 4 ≠ 0) ∧
    ((fetching 0x2EF [7] []).act = .run .host ∧ (fetching 0x2EF [7] []).pc.toNat % 4 = 0 ∧ (fetching 0x2EF [7] []).valid (fetching 0x2EF [7] []).pc 4 = true) ∧
    (((fetching 0x2EF [7] []).word (fetching 0x2EF [7] []).pc).toNat % 16 = 15 ∧ 0x2D < ((fetching 0x2EF [7] []).word (fetching 0x2EF [7] []).pc).toNat / 16) := by
  decide

/-- Direct mode: no handler; a handler that takes the exception; a frame that cannot be popped; a frame outside memory. -/
theorem witness_FetchAndDecodeFaults_direct :
    ((((block [] []).setPc 0x1002).setAct (.run .direct)).handlerSp = 0 ∧
      (((block [] []).setPc 0x1002).setAct (.run .direct)).pc.toNat % 4 ≠ 0) ∧
    (fetching 0x2EF [7] [0, 0x1008] 2).handlerSp ≠ 0 ∧
    (∃ r, unwind (-1) (((fetching 0x2EF [7] [0, 0x1008] 2).setAct (.run .direct)).setPc 0x1004) = .next (.continue_, r)) ∧
    (∃ r, unwind (-1) (((fetching 0x2EF [7] [0x1008] 1).setAct (.run .direct)).setPc 0x1004) = .next (.stop (-2), r)) ∧
    ∃ x, unwind (-1) ({ ((fetching 0x2EF [7] [0, 0x1008] 2).setAct (.run .direct)).setPc 0x1004 with s0 := 0xFFFF0000 }) =
      .refused x := ⟨by decide, by decide, ⟨_, rfl⟩, ⟨_, rfl⟩, _, rfl⟩

theorem witness_StepKeepsInvariant :
    State.Inv ⟨.four, fetching 0x19F [4, -4] []⟩ ∧ ∃ t, step ⟨.four, fetching 0x19F [4, -4] []⟩ = .next t := ⟨⟨by decide, by decide, by decide, by decide, trivial, trivial⟩, _, rfl⟩

theorem witness_InitResetsTheBlock :
    (idleWith [.init ⟨0x1000, 0x2000, 8, 0x3000, 8⟩, .run]).act = .idle ∧
    (idleWith [.init ⟨0x1000, 0x2000, 8, 0x3000, 8⟩, .run]).io.cmds = .init ⟨0x1000, 0x2000, 8, 0x3000, 8⟩ :: [.run] := by
  decide

theorem witness_HostRegisterAccess :
    (idleWith [.regRead .sp]).act = .idle ∧
    (idleWith [.regRead .sp]).io.cmds = .regRead .sp :: [] ∧
    (idleWith [.regWrite .pc 0x1002]).io.cmds = .regWrite .pc 0x1002 :: [] ∧
    (idleWith [.run]).io.cmds = .run :: [] := by
  decide

/-- An instruction that completes: `JUMP` to 0x1040. -/
theorem witness_PredictionIsRight :
    (fetching 0x0CF [0x1040] []).act = .run .host ∧ (fetching 0x0CF [0x1040] []).handlerSp = 0 ∧ (fetching 0x0CF [0x1040] []).pc.toNat % 4 = 0 ∧ (fetching 0x0CF [0x1040] []).valid (fetching 0x0CF [0x1040] []).pc 4 = true ∧
      decode .four ((fetching 0x0CF [0x1040] []).word (fetching 0x0CF [0x1040] []).pc) = .ok .jump ∧
      ∃ r : Block .four, exec .jump ⟨.four, (fetching 0x0CF [0x1040] []).setPc 0x1004⟩ = .next ⟨.four, r⟩ ∧ r.act = .run .host :=
  ⟨rfl, rfl, by decide, by decide, by decide, _, rfl, rfl⟩

/-- A block in a phase of `STEP`, with a predicted target. -/
abbrev stepping (p : SstPhase .four) (t : Option (Word .four)) (h : Word .four) : Block .four :=
  { fetching 0x33 [] [0, 0x1008] h with act := .sst p, sst := { target := t, savedWord := 0, savedH := 2, isRet := false } }

theorem witness_SstArmsAndDisarms :
    ((stepping .arm (some 0x3FFC) 0).act = .sst .arm ∧ (stepping .arm (some 0x3FFC) 0).sst.target = some 0x3FFC ∧
      (stepping .arm (some 0x3FFC) 0).valid 0x3FFC 4 = true) ∧
    ((stepping .arm none 0).act = .sst .arm ∧ (stepping .arm none 0).sst.target = none) ∧
    ((stepping (.disarm (-256)) (some 0x1004) 0).act = .sst (.disarm (-256)) ∧
      (stepping (.disarm (-256)) (some 0x1004) 0).sst.target = some 0x1004 ∧
      (stepping (.disarm (-256)) (some 0x1004) 0).valid 0x1004 4 = true) ∧
    (-256 : Word .four) = BitVec.ofInt WordSize.four.xlen (-256) ∧
    (-2 : Word .four) ≠ BitVec.ofInt WordSize.four.xlen (-256) ∧
    ((stepping (.disarm (-2)) none 0).act = .sst (.disarm (-2)) ∧ (stepping (.disarm (-2)) none 0).sst.target = none) ∧
    (stepping .arm none 0).mem.wf = true := by
  decide

theorem witness_SstSavesAndRestoresHandler :
    (stepping .launch none 2).mem.wf = true ∧
    (stepping .launch none 2).act = .sst .launch ∧
    ((stepping (.fixup (-256)) none 0).act = .sst (.fixup (-256)) ∧ (stepping (.fixup (-256)) none 0).handlerSp = 0) ∧
    ((stepping (.fixup (-256)) none 2).act = .sst (.fixup (-256)) ∧ (stepping (.fixup (-256)) none 2).handlerSp ≠ 0 ∧
      (stepping (.fixup (-256)) none 2).valid ((stepping (.fixup (-256)) none 2).sSlot 0) 4 = true) := by
  decide

theorem witness_PatchedStepOverJump :
    (stepping .predict none 2).mem.wf = true ∧
    ((stepping .predict none 2).act = .sst .predict ∧ (stepping .predict none 2).pc.toNat % 4 = 0 ∧ (stepping .predict none 2).valid (stepping .predict none 2).pc 4 = true) ∧
    decode .four ((stepping .predict none 2).word (stepping .predict none 2).pc) = .ok (.jumpi 3) ∧
    (stepping .predict none 2).valid (BitVec.ofInt WordSize.four.xlen ((stepping .predict none 2).pc.toNat + 4 * (3 + 1))) 4 = true := by
  decide

/-- A block whose stub is receiving. -/
abbrev receiving (rx : RxState) (input : List Byte) : Block .four :=
  { block [] [] with act := .dbg .recv, dbg := { (block [] []).dbg with rx := rx }, io := { (block [] []).io with rxBytes := input } }

theorem witness_ReceiverTakesFrame :
    ((receiving .idle (frame [ascii '?'] (checksum [ascii '?']) ++ [0x2B])).act = .dbg .recv ∧
      (receiving .idle (frame [ascii '?'] (checksum [ascii '?']) ++ [0x2B])).dbg.rx = .idle) ∧
    (ascii '$' ∉ [ascii '?'] ∧ ascii '#' ∉ [ascii '?'] ∧ [ascii '?'].length ≤ (block [] []).cfg.bufMax) ∧
    (receiving .idle (frame [ascii '?'] (checksum [ascii '?']) ++ [0x2B])).io.rxBytes = frame [ascii '?'] (checksum [ascii '?']) ++ [0x2B] := by
  decide

/-- The digits of the sum 0x00 are awaited: a second digit that is none, one that makes 0x01, and a first digit that was none. -/
theorem witness_BadChecksumIsRejected :
    ((receiving (.ck2 (some 0)) [ascii 'g']).act = .dbg .recv ∧ (receiving (.ck2 (some 0)) [ascii 'g']).dbg.rx = .ck2 (some 0) ∧
      (receiving (.ck2 (some 0)) [ascii 'g']).io.rxBytes = ascii 'g' :: []) ∧
    (∀ h l, (some 0 : Option Nat) = some h → hexVal (ascii 'g') = some l →
      16 * h + l ≠ (receiving (.ck2 (some 0)) [ascii 'g']).dbg.sum.toNat) ∧
    (∀ h l, (some 0 : Option Nat) = some h → hexVal (ascii '1') = some l →
      16 * h + l ≠ (receiving (.ck2 (some 0)) [ascii '1']).dbg.sum.toNat) ∧
    ((receiving (.ck2 none) [ascii '0']).dbg.rx = .ck2 none ∧ ∀ h l, (none : Option Nat) = some h →
      hexVal (ascii '0') = some l → 16 * h + l ≠ (receiving (.ck2 none) [ascii '0']).dbg.sum.toNat) := by
  refine ⟨by decide, fun h l _ hl => ?_, fun h l _ hl => ?_, rfl, fun h l hh => nomatch hh⟩
  · rw [show hexVal (ascii 'g') = none by decide] at hl
    cases hl
  · rw [show hexVal (ascii '1') = some 1 by decide] at hl
    cases hl
    rw [show (receiving (.ck2 (some 0)) [ascii '1']).dbg.sum.toNat = 0 by decide]
    omega

/-- The command completes with the block then having the property. -/
abbrev leaves (payload : List Byte) (p : Block .four → Bool) : Bool :=
  match command payload (block [] []) with
  | .ok _ r => p r
  | .error _ _ => false

/-- `M2004,1:be`, a `G` that writes, `c1010`. -/
theorem witness_StubWritesOnlyOnCommand :
    leaves [0x4D, 0x32, 0x30, 0x30, 0x34, 0x2C, 0x31, 0x3A, 0x62, 0x65] (fun r => decide (r.mem ≠ (block [] []).mem)) = true ∧
    leaves (ascii 'G' :: overS.regBlock) (fun r => decide (r.sp ≠ (block [] []).sp)) = true ∧
    leaves [0x63, 0x31, 0x30, 0x31, 0x30] (fun r => decide (r.pc ≠ (block [] []).pc)) = true := by decide

theorem witness_StopIsReportedAsSignal :
    ((block [] []).setAct (.dbg (.stopped 0))).act = .dbg (.stopped 0) ∧
    ((block [] []).setAct (.dbg (.stopped (-256)))).act = .dbg (.stopped (-256)) ∧
    (-256 : Word .four) ≠ 0 ∧
    ((block [] []).cfg.sigMap = Config.defaultSigMap ∧ (block [] []).cfg.sigDefault = 6#8) ∧
    (-256 : Word .four).toInt = -256 ∧
    (-1 : Word .four).toInt = -1 ∧
    (-2 : Word .four).toInt = -2 ∧
    (-3 : Word .four).toInt = -3 ∧
    (-4 : Word .four).toInt = -4 ∧
    (-16 : Word .four).toInt = -16 ∧
    (-17 : Word .four).toInt = -17 ∧
    (7 : Word .four).toInt ∉ ([-256, -1, -2, -3, -4, -16, -17] : List Int) := by
  decide

end Sys2Proof.Tests
end

section
/-! SUPPORT. The invariant of the machine (rules R6, R17, R40, R183, R193, R218): every update of the block that a step makes
keeps it, so every instruction, every phase of `STEP`, every step of the stub and every operation of the embedder does. -/

namespace Sys2Proof.Machine

variable {w : WordSize} {m : SstMode}

/-! ### The invariant, with `SST_MODE` named -/

/-- The invariant of a block whose `SST_MODE` is `m`. The parameter is named here because a phase of `STEP` that begins the
next one relies on it and does not look at it. -/
structure Block.InvIn (m : SstMode) (b : Block w) : Prop where
  canonical : b.mem.wf = true
  inSpace : ∀ p ∈ b.mem, p.1 < 2 ^ w.xlen
  legal : Config.wf b.cfg
  buffer : b.dbg.len ≤ b.cfg.bufMax
  digit : b.dbg.rx.fits
  activity : b.act.fits m
  mode : b.cfg.sstMode = m

/-- Whatever the invariant says of `b` it says of `r`. -/
def KeepsInv (m : SstMode) (b r : Block w) : Prop := b.InvIn m → r.InvIn m

theorem Block.Inv.invIn {b : Block w} (h : b.Inv) : b.InvIn b.cfg.sstMode := by
  obtain ⟨hwf, hlt, hcfg, hlen, hrx, hact⟩ := h
  exact ⟨hwf, hlt, hcfg, hlen, hrx, hact, rfl⟩

theorem Block.InvIn.inv {b : Block w} (h : b.InvIn m) : b.Inv :=
  ⟨h.canonical, h.inSpace, h.legal, h.buffer, h.digit, h.mode ▸ h.activity⟩

/-! ### Updates of the block -/

/-- Every byte of an access has an address below `2 ^ XLEN` (rule R40). -/
theorem putBytes_inSpace (a : Word w) (i : Nat) (bs : List Byte) (mem : Memory) (h : ∀ p ∈ mem, p.1 < 2 ^ w.xlen) :
    ∀ p ∈ putBytes a i bs mem, p.1 < 2 ^ w.xlen := by
  induction bs generalizing i mem with
  | nil => exact h
  | cons x bs ih =>
    refine ih (i + 1) _ fun p hp => ?_
    rcases Memory.mem_set mem _ x p hp with rfl | hp
    · exact byteAddr_lt a i
    · exact h p hp

namespace Block.InvIn
variable {b : Block w} (h : b.InvIn m)
include h

theorem poke (a : Word w) (n v : Nat) : (b.poke a n v).InvIn m :=
  { h with canonical := b.poke_wf h.canonical a n v, inSpace := putBytes_inSpace a 0 _ _ h.inSpace }

theorem setAct {a : Activity w} (ha : a.fits m) : (b.setAct a).InvIn m := { h with activity := ha }

theorem setDbg {d : DbgRegs} (hlen : d.len ≤ b.cfg.bufMax) (hrx : d.rx.fits) : (b.setDbg d).InvIn m :=
  { h with buffer := hlen, digit := hrx }

theorem setSst (r : SstRegs w) : (b.setSst r).InvIn m := { h with }

theorem setIo (p : Ports w) : (b.setIo p).InvIn m := { h with }

theorem setReg (r : Reg) (v : Word w) : (b.setReg r v).InvIn m := by
  cases r <;> exact { h with }

theorem answer (r : HostResult w) : (b.answer r).InvIn m := h.setIo _

/-- The run loop hands control back to its caller; to SST only where SST has started it (rules R88, R175). -/
theorem stopRun (c : Word w) : (b.stopRun c).InvIn m := by
  unfold Block.stopRun
  split
  next hact =>
    have hsst : (Activity.run .sst : Activity w).fits m := hact ▸ h.activity
    exact h.setAct hsst
  next => exact h.setAct trivial
  next => exact (h.setAct trivial).answer _

end Block.InvIn

/-- All that an instruction and the unwinding it causes can do keeps the invariant. -/
theorem KeepsInv.admits (m : SstMode) : Admits (KeepsInv (w := w) m) where
  refl _ h := h
  trans hab hbc h := hbc (hab h)
  setDp _ v h := h.setReg .dp v
  poke _ a n v h := h.poke a n v
  host _ _ _ h := h.setIo _
  setSp _ v h := h.setReg .sp v
  setPc _ v h := h.setReg .pc v
  setHandlerSp _ v h := h.setReg .handlerSp v

theorem KeepsInv.admitsHost (m : SstMode) : AdmitsHost (KeepsInv (w := w) m) := (KeepsInv.admits m).toAdmitsHost

/-! ### The run loop (rules R81 to R85) -/

/-- A piece of the run loop whose block keeps the invariant answers a state that does. -/
theorem toOut_keepsInv {x : LoopOut w} {t : State} (hx : ∀ v r, x = .next (v, r) → r.InvIn m)
    (ht : x.toOut = .next t) : t.blk.InvIn m := by
  obtain ⟨r, ⟨hr, rfl⟩ | ⟨c, hr, rfl⟩⟩ := toOut_next ht
  · exact hx _ _ hr
  · exact (hx _ _ hr).stopRun c

theorem exec_keepsInv {i : Instr} {b : Block w} {t : State} (h : b.InvIn m) (ht : exec i ⟨w, b⟩ = .next t) :
    t.blk.InvIn m := by
  obtain ⟨r, hr, rfl | ⟨c, rfl⟩⟩ := exec_within (KeepsInv.admits m) ht
  · exact hr h
  · exact (hr h).stopRun c

theorem dispatch_keepsInv {ir : Word w} {b : Block w} {t : State} (h : b.InvIn m) (ht : dispatch ir b = .next t) :
    t.blk.InvIn m := by
  unfold dispatch at ht
  split at ht
  · exact exec_keepsInv h ht
  · exact toOut_keepsInv (fun _ _ hr => settle_within (KeepsInv.admits m)
      (Within.raise (KeepsInv.admitsHost m) _) hr h) ht

theorem fetch_within {R : Block w → Block w → Prop} (H : AdmitsPc R) : Op.Within R (fetch : Op w (Word w)) :=
  have h := H.toAdmitsHost
  Within.bind h (Within.get h) fun _ => Within.bind h (Within.checkAligned h _ _) fun _ =>
    Within.bind h (Within.readWord h _) fun _ => Within.bind h (Within.update fun b => H.setPc b _) fun _ =>
    Within.pure h _

/-- What an early end means to the run loop does not depend on what the operation would have answered. -/
theorem settle_error {α β : Type} (e : Exit w) (b : Block w) :
    settle (.error e b : EStateM.Result (Exit w) (Block w) α) =
      settle (.error e b : EStateM.Result (Exit w) (Block w) β) := by
  cases e <;> rfl

theorem execOne_keepsInv {b : Block w} {t : State} (h : b.InvIn m) (ht : execOne b = .next t) : t.blk.InvIn m := by
  have hfetch := fetch_within (KeepsInv.admits m).toAdmitsPc b h
  unfold execOne at ht
  split at ht
  next ir b' hok =>
    rw [hok] at hfetch
    exact dispatch_keepsInv hfetch ht
  next e b' herr =>
    refine toOut_keepsInv (fun v r hr => ?_) ht
    rw [settle_error (β := Word w), ← herr] at hr
    exact settle_within (KeepsInv.admits m) (fetch_within (KeepsInv.admits m).toAdmitsPc) hr h

theorem endIteration_keepsInv {s : State} (h : s.blk.InvIn m) : (endIteration s).blk.InvIn m := by
  by_cases hact : s.blk.act = .run .direct
  · unfold endIteration
    rw [hact]
    exact h.stopRun _
  · rwa [endIteration_of_ne hact]

theorem runStep_keepsInv {b : Block w} {t : State} (h : b.InvIn m) (ht : runStep ⟨w, b⟩ = .next t) :
    t.blk.InvIn m := by
  unfold runStep at ht
  split at ht
  next hone =>
    cases ht
    exact endIteration_keepsInv (execOne_keepsInv h hone)
  next => cases ht
  next => cases ht

/-! ### Phases -/

/-- A phase that answers a next state has moved the block along what its operation respects. -/
theorem phase_within {R : Block w → Block w → Prop} {op : Op w Unit} (hop : Op.Within R op) {b : Block w} {t : State}
    (ht : phase ⟨w, b⟩ op = .next t) : ∃ r : Block w, R b r ∧ t = ⟨w, r⟩ := by
  have hb := hop b
  unfold phase at ht
  cases ho : op b with
  | ok a r => rw [ho] at ht hb; cases ht; exact ⟨r, hb, rfl⟩
  | error e r => rw [ho] at ht hb; cases e <;> cases ht <;> exact ⟨r, hb, rfl⟩

theorem phase_keepsInv {op : Op w Unit} (hop : Op.Within (KeepsInv m) op) {b : Block w} {t : State} (h : b.InvIn m)
    (ht : phase ⟨w, b⟩ op = .next t) : t.blk.InvIn m := by
  obtain ⟨r, hr, rfl⟩ := phase_within hop ht
  exact hr h

/-! ### The phases of `STEP` (rules R171 to R179) -/

section Predict
variable {R : Block w → Block w → Prop} (H : AdmitsHost R)
include H

/-- `Predict()` reads a stack slot or nothing (rule R172). -/
theorem predictTarget_within (i : Instr) (next : Word w) : Op.Within R (predictTarget i next) := by
  refine Within.bind H (Within.get H) fun b => ?_
  cases i
  case jumpzi n =>
    exact Within.ite (Within.bind H (Within.readD H _) fun _ => Within.pure H _) (Within.pure H _)
  case jump | call | catch_ =>
    exact Within.ite (Within.bind H (Within.readD H _) fun _ => Within.pure H _) (Within.pure H _)
  case jumpz =>
    exact Within.ite (Within.bind H (Within.readD H _) fun _ =>
      Within.ite (Within.bind H (Within.readD H _) fun _ => Within.pure H _) (Within.pure H _)) (Within.pure H _)
  case ret =>
    exact Within.ite (Within.bind H (Within.readS H _) fun _ => Within.pure H _) (Within.pure H _)
  all_goals exact Within.pure H _

theorem predict_within : Op.Within R (predict : Op w (Option (Word w) × Bool)) := by
  refine Within.bind H (Within.get H) fun b => Within.ite (Within.bind H (Within.readWord H _) fun ir => ?_)
    (Within.pure H _)
  cases decode w ir with
  | ok i => exact Within.bind H (predictTarget_within H i _) fun _ => Within.pure H _
  | error e => exact Within.pure H _

end Predict

theorem armPatch_keepsInv : Op.Within (KeepsInv m) (armPatch : Op w Unit) := by
  have H := KeepsInv.admitsHost (w := w) m
  refine Within.bind H (Within.get H) fun b => ?_
  cases b.sst.target with
  | none => exact Within.pure H _
  | some t =>
    exact Within.bind H (Within.readWord H _) fun _ =>
      Within.bind H (Within.update fun _ h => h.setSst _) fun _ => Within.writeWord H _ _

theorem disarmPatch_keepsInv (code : Word w) : Op.Within (KeepsInv m) (disarmPatch code) := by
  have H := KeepsInv.admitsHost (w := w) m
  refine Within.bind H (Within.get H) fun b => ?_
  cases b.sst.target with
  | none => exact Within.pure H _
  | some t =>
    refine Within.bind H (Within.writeWord H _ _) fun _ => Within.update fun b' h => ?_
    split
    · exact h.setReg .pc t
    · exact h

theorem fixFrame_keepsInv : Op.Within (KeepsInv m) (fixFrame : Op w Unit) :=
  have H := KeepsInv.admitsHost m
  Within.bind H (Within.get H) fun _ =>
    Within.ite (Within.update fun _ h => h.setReg .handlerSp _) (Within.writeS H _ _)

theorem sstVerdict_keepsInv {x : LoopOut w} {t : State} (hx : ∀ v r, x = .next (v, r) → r.InvIn .patch)
    (ht : sstVerdict x = .next t) : t.blk.InvIn .patch := by
  unfold sstVerdict at ht
  split at ht
  next => cases ht; exact (hx _ _ rfl).setAct rfl
  next => cases ht; exact (hx _ _ rfl).setAct rfl
  next => cases ht
  next => cases ht

theorem sstReplay_keepsInv {code : Word w} {b : Block w} {t : State} (h : b.InvIn .patch)
    (ht : sstReplay code b = .next t) : t.blk.InvIn .patch := by
  have H := KeepsInv.admits (w := w) .patch
  unfold sstReplay at ht
  split_ifs at ht
  · exact sstVerdict_keepsInv (fun _ _ hr => settle_within H (Within.leaveRegion H) hr h) ht
  · cases ht; exact h.setAct rfl
  · cases ht; exact h.setAct rfl
  · exact sstVerdict_keepsInv (fun _ _ hr => unwind_within H hr h) ht

/-- Each phase begins the next one, which patch mode allows (rule R171). -/
theorem sstStep_keepsInv {p : SstPhase w} {b : Block w} {t : State} (h : b.InvIn .patch)
    (ht : sstStep p b = .next t) : t.blk.InvIn .patch := by
  have H := KeepsInv.admitsHost (w := w) .patch
  cases p with
  | predict =>
    exact phase_keepsInv (Within.bind H (predict_within H) fun _ =>
      Within.update fun _ h => (h.setSst _).setAct rfl) h ht
  | arm => exact phase_keepsInv (Within.bind H armPatch_keepsInv fun _ => Within.update fun _ h => h.setAct rfl) h ht
  | launch =>
    exact phase_keepsInv (Within.update fun _ h => ((h.setSst _).setReg .handlerSp 0).setAct rfl) h ht
  | disarm code =>
    exact phase_keepsInv (Within.bind H (disarmPatch_keepsInv code) fun _ => Within.update fun _ h => h.setAct rfl) h ht
  | fixup code =>
    exact phase_keepsInv (Within.bind H fixFrame_keepsInv fun _ => Within.update fun _ h => h.setAct rfl) h ht
  | replay code => exact sstReplay_keepsInv h ht
  | done code => exact phase_keepsInv (Within.update fun _ h => (h.setAct trivial).answer _) h ht

/-! ### The debug stub (rules R190 to R219) -/

namespace Block.InvIn
variable {b : Block w} (h : b.InvIn m)
include h

/-- A reply that fits the buffer (rule R218). -/
theorem reply {p : List Byte} (hp : p.length ≤ b.cfg.bufMax) : (b.reply p).InvIn m :=
  { h with buffer := hp, activity := trivial }

/-- The short replies fit every legal buffer: `DBG_BUFMAX` is at least `16 * W + 1` (rule R6). -/
theorem reply_short {p : List Byte} (hp : p.length ≤ 16) : (b.reply p).InvIn m := by
  have hlegal : 16 * w.bytes + 1 ≤ b.cfg.bufMax := h.legal
  have hbytes : 1 ≤ w.bytes := by cases w <;> decide
  exact h.reply (by omega)

theorem listen : b.listen.InvIn m := (h.setDbg (Nat.zero_le _) trivial).setAct trivial

theorem leave (r : HostResult w) : (b.leave r).InvIn m := (h.setAct trivial).answer r

theorem setRegs (rs : List Reg) (bs : List Byte) : (b.setRegs rs bs).InvIn m := by
  induction rs generalizing b bs with
  | nil => exact h
  | cons r rs ih => exact ih (h.setReg r _) _

/-- One byte through the receiver: a payload byte is stored only while the buffer has room, and the first checksum digit is
`HexVal` of a byte (rules R193, R197, R218). -/
theorem receive (x : Byte) : (receive x b).InvIn m := by
  unfold Machine.receive
  split
  next =>
    split_ifs
    · exact h.setDbg (Nat.zero_le _) trivial
    · exact h
  next =>
    split_ifs with _ _ hfull
    · exact h.setDbg (Nat.zero_le _) h.digit
    · exact h.setDbg h.buffer trivial
    · exact h.setDbg h.buffer trivial
    · refine h.setDbg ?_ h.digit
      have hlen : b.dbg.len ≤ b.cfg.bufMax := h.buffer
      simp only [DbgRegs.len, List.length_append, List.length_singleton] at hlen hfull ⊢
      omega
  next =>
    refine h.setDbg h.buffer ?_
    cases hx : hexVal x with
    | none => trivial
    | some d => exact hexVal_lt hx
  next =>
    have hreject : (b.setDbg { b.dbg with rx := .idle }).InvIn m := h.setDbg h.buffer trivial
    split
    · split_ifs
      · exact (h.setIo _).setAct trivial
      · exact hreject.setIo _
    · exact hreject.setIo _

end Block.InvIn

/-- `RegBlock()` is `16 * W` digits (rule R206). -/
theorem Block.regBlock_length (b : Block w) : b.regBlock.length = 16 * w.bytes := by
  rw [b.regBlock_eq, hexText_length, b.regBytes_length]
  show 2 * (8 * w.bytes) = 16 * w.bytes
  omega

/-- `S<nn>` is three bytes (rule R201). -/
theorem msgStop_length (sig : Byte) : (msgStop sig).length = 3 := rfl

/-- Reading bytes changes nothing, and yields as many as were asked for (rule R208). -/
theorem readBytes_run (addr : Word w) (n k : Nat) (b : Block w) :
    (∃ bs, readBytes addr n k b = .ok bs b ∧ bs.length = n) ∨ ∃ e, readBytes addr n k b = .error e b := by
  induction n generalizing k with
  | zero => exact .inl ⟨[], rfl, rfl⟩
  | succ n ih =>
    unfold readBytes
    rcases hv : b.valid (addr + BitVec.ofNat w.xlen k) 1 with _ | _
    · exact .inr ⟨_, Op.bind_error (if_neg (by simp [hv]))⟩
    · rw [Op.bind_ok (memRead_ok hv)]
      rcases ih (k + 1) with ⟨bs, hbs, hlen⟩ | ⟨e, he⟩
      · exact .inl ⟨_, (Op.bind_ok hbs).trans rfl, congrArg (· + 1) hlen⟩
      · exact .inr ⟨e, Op.bind_error he⟩

theorem writeBytes_within {R : Block w → Block w → Prop} (H : AdmitsHost R) (addr : Word w) (bs : List Byte) (k : Nat) :
    Op.Within R (writeBytes addr bs k) := by
  induction bs generalizing k with
  | nil => exact Within.pure H _
  | cons x bs ih => exact Within.bind H (Within.memWrite H _ _ _) fun _ => ih _

/-- A command whose whole effect is a short reply. -/
theorem update_reply_keepsInv {p : List Byte} (hp : p.length ≤ 16) :
    Op.Within (KeepsInv m) (update fun b : Block w => b.reply p) :=
  Within.update fun _ h => h.reply_short hp

theorem cmdWriteRegs_keepsInv (args : List Byte) : Op.Within (KeepsInv m) (cmdWriteRegs args : Op w Unit) := by
  unfold cmdWriteRegs
  split
  · exact Within.ite (Within.update fun _ h => (h.setRegs _ _).reply_short (by decide))
      (update_reply_keepsInv (by decide))
  · exact update_reply_keepsInv (by decide)

/-- The reply is no longer than the buffer, for `m` has compared the two (rule R208). -/
theorem cmdReadMem_keepsInv (args : List Byte) : Op.Within (KeepsInv m) (cmdReadMem args : Op w Unit) := by
  intro b h
  unfold cmdReadMem
  rw [Op.bind_ok (Op.get_run b)]
  rcases parseSpan w args with _ | ⟨addr, len, _ | ⟨c, rest⟩⟩
  case some.nil =>
    by_cases hmax : b.cfg.bufMax < 2 * len.toNat
    · simp only [if_pos hmax]
      exact h.reply_short (by decide)
    · simp only [if_neg hmax]
      rcases readBytes_run addr len.toNat 0 b with ⟨bs, hbs, hlen⟩ | ⟨e, he⟩
      · rw [Op.bind_ok hbs]
        exact h.reply (by rw [hexText_length]; omega)
      · rw [Op.bind_error he]
        exact h
  all_goals exact h.reply_short (by decide)

theorem cmdWriteMem_keepsInv (args : List Byte) : Op.Within (KeepsInv m) (cmdWriteMem args : Op w Unit) := by
  have H := KeepsInv.admitsHost (w := w) m
  unfold cmdWriteMem
  split
  · exact update_reply_keepsInv (by decide)
  split
  · exact update_reply_keepsInv (by decide)
  split
  · exact update_reply_keepsInv (by decide)
  · exact Within.ite (Within.bind H (writeBytes_within H _ _ _) fun _ => update_reply_keepsInv (by decide))
      (update_reply_keepsInv (by decide))

theorem cmdContinue_keepsInv (args : List Byte) : Op.Within (KeepsInv m) (cmdContinue args : Op w Unit) := by
  unfold cmdContinue
  split
  · exact Within.update fun _ h => h.setAct trivial
  split
  · exact Within.update fun _ h => (h.setReg .pc _).setAct trivial
  · exact update_reply_keepsInv (by decide)

theorem command_keepsInv (payload : List Byte) : Op.Within (KeepsInv m) (command payload : Op w Unit) := by
  cases payload with
  | nil => exact update_reply_keepsInv (by decide)
  | cons c args =>
    unfold command
    refine Within.ite ?lastSignal <| Within.ite ?logging <| Within.ite ?readRegs <|
      Within.ite (cmdWriteRegs_keepsInv args) <| Within.ite (cmdReadMem_keepsInv args) <|
      Within.ite (cmdWriteMem_keepsInv args) <| Within.ite (cmdContinue_keepsInv args) <|
      Within.ite ?kill <| update_reply_keepsInv (by decide)
    case lastSignal => exact Within.update fun _ h => h.reply_short (by simp [msgStop_length])
    case logging =>
      refine Within.update fun b h => Block.InvIn.reply_short (b := b.setDbg _) (h.setDbg ?_ ?_) (by decide)
      · exact h.buffer
      · exact h.digit
    case readRegs =>
      refine Within.update fun b h => h.reply ?_
      have hlegal : 16 * w.bytes + 1 ≤ b.cfg.bufMax := h.legal
      rw [b.regBlock_length]
      omega
    case kill => exact Within.update fun _ h => h.leave _

/-- A byte is taken from the input, and nothing else changes (rule R190). -/
theorem getByte_keepsInv {b b' : Block w} {x : Byte} (h : b.InvIn m) (hget : b.getByte = some (x, b')) :
    b'.InvIn m := by
  unfold Block.getByte at hget
  split at hget <;> cases hget
  exact h.setIo _

theorem dbgRecv_keepsInv {b : Block w} (h : b.InvIn m) : (dbgRecv b).InvIn m := by
  unfold dbgRecv
  split
  next hget => exact (getByte_keepsInv h hget).receive _
  next => exact h

theorem dbgAck_keepsInv {b : Block w} (h : b.InvIn m) : (dbgAck b).InvIn m := by
  unfold dbgAck
  split
  next hget =>
    have h' := getByte_keepsInv h hget
    split_ifs
    · exact h'.listen
    · exact h'.setAct trivial
  next => exact h

theorem dbgStopped_keepsInv {b : Block w} (h : b.InvIn m) (code : Word w) : (dbgStopped code b).InvIn m := by
  unfold dbgStopped
  split_ifs
  · exact h.leave _
  · have hsignal : (b.setDbg { b.dbg with lastSignal := signalOf b.cfg code }).InvIn m := h.setDbg h.buffer h.digit
    exact hsignal.reply_short (by simp [msgStop_length])

theorem dbgStep_keepsInv {p : DbgPhase w} {b : Block w} {t : State} (h : b.InvIn m) (ht : dbgStep p b = .next t) :
    t.blk.InvIn m := by
  cases p with
  | recv => cases ht; exact dbgRecv_keepsInv h
  | dispatch => exact phase_keepsInv (command_keepsInv _) h ht
  | send => cases ht; exact (h.setIo _).setAct trivial
  | ack => cases ht; exact dbgAck_keepsInv h
  | stopped code => cases ht; exact dbgStopped_keepsInv h code

/-! ### The embedder's operations (rules R80, R260, R263) -/

/-- `INIT` empties the stub's buffer and accesses no memory (rule R260). -/
theorem init_keepsInv {b : Block w} (h : b.InvIn m) (p : InitParams w) : (b.init p).InvIn m :=
  { h with buffer := Nat.zero_le _, digit := trivial }

theorem loadObject_keepsInv (base : Word w) (object : List Byte) : Op.Within (KeepsInv m) (loadObject base object) := by
  unfold loadObject
  split
  · exact writeBytes_within (KeepsInv.admitsHost m) _ _ _
  · exact fun _ h => h

/-- `STEP` begins patch mode's first phase, or one iteration of the run loop, as `SST_MODE` says (rules R171, R183). -/
theorem hostCmd_keepsInv (c : HostCmd w) : Op.Within (KeepsInv m) (hostCmd c) := by
  have H := KeepsInv.admitsHost (w := w) m
  cases c with
  | init p => exact Within.update fun _ h => init_keepsInv h p
  | run => exact Within.update fun _ h => h.setAct trivial
  | step =>
    refine Within.update fun b h => ?_
    split
    next hmode => exact h.setAct (h.mode.symm.trans hmode)
    next hmode => exact h.setAct (h.mode.symm.trans hmode)
  | debug => exact Within.update fun _ h => h.listen
  | regRead r => exact Within.update fun _ h => h.answer _
  | regWrite r v => exact Within.update fun _ h => h.setReg r v
  | memRead a => exact Within.bind H (Within.memRead H _ _) fun _ => Within.update fun _ h => h.answer _
  | memWrite a v => exact Within.memWrite H _ _ _
  | load base object => exact loadObject_keepsInv base object

theorem hostStep_keepsInv {b : Block w} {t : State} (h : b.InvIn m) (ht : hostStep b = .next t) : t.blk.InvIn m := by
  unfold hostStep at ht
  split at ht
  · cases ht; exact h
  · exact phase_keepsInv (hostCmd_keepsInv _) (h.setIo _) ht

/-! ### Every step -/

theorem step_keepsInv {b : Block w} {t : State} (h : b.InvIn m) (ht : step ⟨w, b⟩ = .next t) : t.blk.InvIn m := by
  cases hact : b.act with
  | idle => exact hostStep_keepsInv h (step_idle hact ▸ ht)
  | run c => exact runStep_keepsInv h (step_run hact ▸ ht)
  | sst p =>
    obtain rfl : m = .patch := by
      have hfits := h.activity
      rwa [hact] at hfits
    exact sstStep_keepsInv h (step_sst hact ▸ ht)
  | dbg p => exact dbgStep_keepsInv h (step_dbg hact ▸ ht)

/-- Settles O47: by the activity, each kind of step keeps the invariant under its own `SST_MODE`. -/
theorem stepKeepsInvariant : Obligations.StepKeepsInvariant := by
  unfold Obligations.StepKeepsInvariant
  intro s t hs ht
  exact (step_keepsInv (Block.Inv.invIn hs) ht).inv

/-- Settles O48: memory lists nothing, the stub's buffer is empty and nothing is in progress. -/
theorem resetHasInvariant : Obligations.ResetHasInvariant := by
  unfold Obligations.ResetHasInvariant
  have hmem : State.reset.blk.mem = [] := rfl
  have hlegal : Config.wf State.reset.blk.cfg := by decide
  exact ⟨rfl, by simp [hmem], hlegal, Nat.zero_le _, trivial, trivial⟩

end Sys2Proof.Machine
end

section
/-! SUPPORT. Where no handler is active: every instruction but `CATCH` leaves none active (rules R16, R22, R133), and the
machine after reset has none (rules R20, R260). -/

namespace Sys2Proof.Machine

variable {w : WordSize}

/-! ### No handler, no protected region -/

/-- Where no handler was active, none is active afterwards (rule R16). -/
def KeepsNoHandler (b r : Block w) : Prop := b.handlerSp = 0 → r.handlerSp = 0

/-- Neither the stacks, nor memory, nor `pc` activate a handler: of the writes an instruction makes, only that of `handler_sp`
can. -/
theorem KeepsNoHandler.admitsPc : AdmitsPc (KeepsNoHandler (w := w)) where
  refl _ h := h
  trans hab hbc h := hbc (hab h)
  setDp _ _ h := h
  poke _ _ _ _ h := h
  host _ _ _ h := h
  setSp _ _ h := h
  setPc _ _ h := h

/-- No stack depth lies below a `handler_sp` of 0. -/
theorem not_inRegion_of_noHandler {b : Block w} (h : b.handlerSp = 0) : ¬ b.sp.toNat < b.handlerSp.toNat := by
  simp [h]

/-- With no handler active a `RET` is a plain return: the tail that would take `handler_sp` from the stack does not run
(rule R133). -/
theorem exec_ret_keepsNoHandler (b : Block w) :
    ∃ op : Op w Unit, exec .ret ⟨w, b⟩ = perform ⟨w, b⟩ op ∧ Op.Within KeepsNoHandler op := by
  have H := KeepsNoHandler.admitsPc (w := w)
  have h := H.toAdmitsHost
  refine ⟨_, rfl, Within.bind h (Within.popS H.toAdmitsStacks) fun a => Within.bind h (Within.checkAligned h _ _) fun _ =>
    Within.bind h (Within.update fun b => H.setPc b a) fun _ b hb => ?_⟩
  rw [Op.bind_ok (Op.get_run b), if_neg (not_inRegion_of_noHandler hb)]
  exact hb

/-- Every instruction but `CATCH` is its pseudocode, and that activates no handler. -/
theorem exec_keepsNoHandler (i : Instr) (b : Block w) (hc : i ≠ .catch_) :
    ∃ op : Op w Unit, exec i ⟨w, b⟩ = perform ⟨w, b⟩ op ∧ Op.Within KeepsNoHandler op := by
  by_cases hr : i = .ret
  · exact hr ▸ exec_ret_keepsNoHandler b
  · exact exec_plain KeepsNoHandler.admitsPc i b hc hr

/-- Control going back to whoever started the run loop leaves `handler_sp` alone (rules R82, R88). -/
@[simp] theorem Block.stopRun_handlerSp (b : Block w) (c : Word w) : (b.stopRun c).handlerSp = b.handlerSp := by
  unfold Block.stopRun
  split <;> rfl

/-- Settles O43: the pseudocode activates no handler, so nothing it raises is unwound, and the instruction ends in the block
that its pseudocode left. -/
theorem onlyCatchInstallsHandlers : Obligations.OnlyCatchInstallsHandlers := by
  unfold Obligations.OnlyCatchInstallsHandlers
  intro w b i t hb hc ht
  obtain ⟨op, hexec, hop⟩ := exec_keepsNoHandler i b hc
  have hafter : (Op.after (op b)).handlerSp = 0 := hop b hb
  rw [hexec] at ht
  obtain ⟨r, ⟨hr, rfl⟩ | ⟨c, hr, rfl⟩⟩ := toOut_next ht
  · obtain rfl := settle_noHandler hafter hr
    exact hafter
  · obtain rfl := settle_noHandler hafter hr
    exact (Block.stopRun_handlerSp _ c).trans hafter

/-! ### Reset -/

/-- Settles O49: the depths, `handler_sp`, memory and the hidden registers are those of `Block.fresh`, the capacities those of
`InitParams.default`, the signal that of `Config.default`. -/
theorem resetValues : Obligations.ResetValues := by
  unfold Obligations.ResetValues
  have hdsize : State.reset.blk.dsize.toNat = 4096 := by decide
  have hssize : State.reset.blk.ssize.toNat = 4096 := by decide
  exact ⟨rfl, rfl, rfl, hdsize, hssize, rfl, rfl, rfl, rfl, rfl, rfl⟩

end Sys2Proof.Machine
end

section
/-! SUPPORT. The stack controller (rules R30 to R33, R37): what a push and a pop leave unchanged, and that a pop after a push
answers the word pushed. -/

namespace Sys2Proof.Machine

variable {w : WordSize}

/-! ### Frames of a push and of a pop -/

theorem KeptBut.refl (b : Block w) : KeptBut [] b b := ⟨fun _ _ => rfl, rfl, rfl, rfl, rfl, rfl⟩

theorem Block.storeWord_kept (b : Block w) (a v : Word w) : KeptBut [] b (b.storeWord a v) :=
  ⟨fun x _ => b.storeWord_reg a v x, rfl, rfl, rfl, rfl, rfl⟩

/-- Moving the depth of the data stack adds `dp` to what has changed. -/
theorem KeptBut.setDp {b r : Block w} (h : KeptBut [] b r) (v : Word w) : KeptBut [.dp] b (r.setDp v) := by
  obtain ⟨hreg, hrest⟩ := h
  refine ⟨fun x hx => ?_, hrest⟩
  rw [Block.setDp_reg _ _ _ (List.ne_of_not_mem_cons hx), hreg x List.not_mem_nil]

/-- Moving the depth of the return stack adds `sp` to what has changed. -/
theorem KeptBut.setSp {b r : Block w} (h : KeptBut [] b r) (v : Word w) : KeptBut [.sp] b (r.setSp v) := by
  obtain ⟨hreg, hrest⟩ := h
  refine ⟨fun x hx => ?_, hrest⟩
  rw [Block.setSp_reg _ _ _ (List.ne_of_not_mem_cons hx), hreg x List.not_mem_nil]

/-! ### A pop after a push -/

/-- A push into a free slot leaves an item to pop: below the capacity the depth does not wrap. -/
theorem Block.dHas_pushed {b : Block w} (h : b.dRoom) : (b.setDp (b.dp + 1)).dHas 1 := by
  obtain ⟨hroom, hvalid⟩ := h
  have hdepth : (b.dp + 1).toNat = b.dp.toNat + 1 := toNat_add_one hroom
  refine ⟨?_, ?_, fun i hi => ?_⟩
  · rw [Block.setDp_dp]; omega
  · rw [Block.setDp_dp, Block.setDp_dsize]; omega
  · obtain rfl : i = 0 := by omega
    rw [Block.dAddr_pushed, Block.setDp_valid]
    exact hvalid

theorem Block.sHas_pushed {b : Block w} (h : b.sRoom 1) : (b.setSp (b.sp + 1)).sHas 1 := by
  obtain ⟨hroom, hvalid⟩ := h
  have hdepth : (b.sp + 1).toNat = b.sp.toNat + 1 := toNat_add_one (u := b.ssize) (by omega)
  refine ⟨?_, ?_, fun i hi => ?_⟩
  · rw [Block.setSp_sp]; omega
  · rw [Block.setSp_sp, Block.setSp_ssize]; omega
  · obtain rfl : i = 0 := by omega
    rw [Block.sAddr_pushed, Block.setSp_valid]
    simpa using hvalid 0 (by omega)

/-- `PopD` on the block that `PushD(v)` has left answers `v` and takes the depth back. -/
theorem popD_pushed {b : Block w} (hm : b.mem.wf = true) (h : b.dRoom) (v : Word w) :
    popD ((b.storeWord b.dFree v).setDp (b.dp + 1)) = .ok v (b.storeWord b.dFree v) := by
  have hroom : (b.storeWord b.dFree v).dRoom := h
  have hslot : ((b.storeWord b.dFree v).setDp (b.dp + 1)).dAddr 0 = b.dFree := Block.dAddr_pushed (b.storeWord b.dFree v)
  have hpop := popD_ok (Block.dHas_pushed hroom)
  rw [Block.storeWord_dp] at hpop
  rw [hpop, Block.dItem, hslot, Block.setDp_word, b.word_storeWord hm, Block.setDp_dp, add_sub_cancel_right]
  rfl

/-- `PopS` on the block that `PushS(v)` has left answers `v` and takes the depth back. -/
theorem popS_pushed {b : Block w} (hm : b.mem.wf = true) (h : b.sRoom 1) (v : Word w) :
    popS ((b.storeWord b.sFree v).setSp (b.sp + 1)) = .ok v (b.storeWord b.sFree v) := by
  have hroom : (b.storeWord b.sFree v).sRoom 1 := h
  have hslot : ((b.storeWord b.sFree v).setSp (b.sp + 1)).sAddr 0 = b.sFree := Block.sAddr_pushed (b.storeWord b.sFree v)
  have hpop := popS_ok (Block.sHas_pushed hroom)
  rw [Block.storeWord_sp] at hpop
  rw [hpop, Block.sItem, hslot, Block.setSp_word, b.word_storeWord hm, Block.setSp_sp, add_sub_cancel_right]
  rfl

/-! ### The rules of the stack controller -/

/-- Settles O9: a full stack answers before any write; a free slot is stored into, then the depth moves. -/
theorem pushDRule : Obligations.PushDRule := by
  unfold Obligations.PushDRule
  intro w b v hm
  refine ⟨fun hfull => pushD_full hfull v, fun hroom => ⟨_, pushD_ok hroom v, ?_, rfl, ?_, ?_⟩⟩
  · rw [Block.setDp_word, b.word_storeWord hm]
  · exact KeptBut.setDp (b.storeWord_kept _ _) _
  · exact b.storeWord_frame _ _

/-- Settles O10: both faults answer before the depth moves; otherwise only the depth moves. -/
theorem popDRule : Obligations.PopDRule := by
  unfold Obligations.PopDRule
  intro w b
  refine ⟨popD_empty, popD_over, fun hitem => ⟨_, popD_ok hitem, rfl, ?_, ?_⟩⟩
  · exact KeptBut.setDp (KeptBut.refl b) _
  · exact fun _ => rfl

/-- Settles O11: a full stack answers before any write; a free slot is stored into, then the depth moves. -/
theorem pushSRule : Obligations.PushSRule := by
  unfold Obligations.PushSRule
  intro w b v hm
  refine ⟨fun hfull => pushS_full hfull v, fun hroom => ⟨_, pushS_ok hroom v, ?_, rfl, ?_, ?_⟩⟩
  · rw [Block.setSp_word, b.word_storeWord hm]
  · exact KeptBut.setSp (b.storeWord_kept _ _) _
  · exact b.storeWord_frame _ _

/-- Settles O12: both faults answer before the depth moves; otherwise only the depth moves. -/
theorem popSRule : Obligations.PopSRule := by
  unfold Obligations.PopSRule
  intro w b
  refine ⟨popS_empty, popS_over, fun hitem => ⟨_, popS_ok hitem, rfl, ?_, ?_⟩⟩
  · exact KeptBut.setSp (KeptBut.refl b) _
  · exact fun _ => rfl

/-- Settles O13: `popD_pushed` and `popS_pushed` after the successful pushes, and the faults at the two ends of each stack. -/
theorem pushThenPopIsIdentity : Obligations.PushThenPopIsIdentity := by
  unfold Obligations.PushThenPopIsIdentity
  intro w b v hm
  refine ⟨fun hroom => ?_, fun hroom => ?_, fun hd => ?_, fun hs => ?_, fun hd => ?_, fun hs => ?_⟩
  · exact ⟨_, _, pushD_ok hroom v, popD_pushed hm hroom v, rfl⟩
  · exact ⟨_, _, pushS_ok hroom v, popS_pushed hm hroom v, rfl⟩
  · exact popD_empty (by simp [hd])
  · exact popS_empty (by simp [hs])
  · exact pushD_full (by rw [hd]) v
  · exact pushS_full (by rw [hs]) v

end Sys2Proof.Machine
end

section
/-! SUPPORT. Memory accesses (rules R40, R42, R47, R50): the two byte orders as sums and as quotients, what a write of any width
leaves unchanged, and the refusal of an access outside `MEM_VALID`. -/

namespace Sys2Proof

/-! ### The two byte orders, byte by byte (rule R42) -/

theorem two_pow_byte_succ (k : Nat) : 2 ^ (8 * (k + 1)) = 256 * 2 ^ (8 * k) := by
  rw [Nat.mul_succ, pow_add, Nat.mul_comm]
  rfl

/-- Least significant byte first: byte `i` has the weight `2 ^ (8 * i)`. -/
theorem leToNat_map_range (f : Nat → Byte) (n : Nat) :
    leToNat ((List.range n).map f) = ((List.range n).map fun i => (f i).toNat * 2 ^ (8 * i)).sum := by
  induction n generalizing f with
  | zero => rfl
  | succ n ih =>
    have hweight : ∀ i, (f (i + 1)).toNat * 2 ^ (8 * (i + 1)) = 256 * ((f (i + 1)).toNat * 2 ^ (8 * i)) := by
      intro i
      rw [two_pow_byte_succ, Nat.mul_left_comm]
    simp only [List.range_succ_eq_map, List.map_cons, List.map_map, Function.comp_def, leToNat, ih, List.sum_cons,
      Nat.succ_eq_add_one, hweight, List.sum_map_mul_left]
    simp

/-- Least significant byte last: byte `i` of `n` has the weight `2 ^ (8 * (n - 1 - i))`. -/
theorem leToNat_reverse_map_range (f : Nat → Byte) (n : Nat) :
    leToNat ((List.range n).map f).reverse =
      ((List.range n).map fun i => (f i).toNat * 2 ^ (8 * (n - 1 - i))).sum := by
  induction n with
  | zero => rfl
  | succ n ih =>
    have hweight : ((List.range n).map fun i => (f i).toNat * 2 ^ (8 * (n + 1 - 1 - i))) =
        (List.range n).map fun i => 256 * ((f i).toNat * 2 ^ (8 * (n - 1 - i))) := by
      refine List.map_congr_left fun i hi => ?_
      have hin : i < n := List.mem_range.1 hi
      rw [show n + 1 - 1 - i = n - 1 - i + 1 by omega, two_pow_byte_succ, Nat.mul_left_comm]
    rw [List.range_succ, List.map_append, List.reverse_append, List.map_append, List.sum_append, hweight,
      List.sum_map_mul_left, ← ih]
    simp [leToNat, Nat.add_comm]

theorem natToLe_getElem (n v i : Nat) (h : i < (natToLe n v).length) :
    (natToLe n v)[i] = BitVec.ofNat 8 (v / 2 ^ (8 * i)) := by
  induction n generalizing v i with
  | zero => cases h
  | succ n ih =>
    cases i with
    | zero => simp [natToLe]
    | succ i =>
      have hq : v / 256 / 2 ^ (8 * i) = v / 2 ^ (8 * (i + 1)) := by
        rw [Nat.div_div_eq_div_mul, two_pow_byte_succ]
      simp only [natToLe, List.getElem_cons_succ, ih, hq]

namespace Machine

variable {w : WordSize}

/-- An access has at most 8 bytes (rule R40). -/
theorem widthBytes_le (w : WordSize) (width : Width) : widthBytes w width ≤ 8 := by
  cases width with
  | b1 | b2 | b4 => simp [widthBytes]
  | word => exact w.bytes_le

theorem Block.peek_little {b : Block w} (ho : b.cfg.byteOrder = .little) (a : Word w) (n : Nat) :
    b.peek a n = ((List.range n).map fun i => (b.mem.get (byteAddr a i)).toNat * 2 ^ (8 * i)).sum := by
  rw [Block.peek, ho]
  exact leToNat_map_range _ n

theorem Block.peek_big {b : Block w} (ho : b.cfg.byteOrder = .big) (a : Word w) (n : Nat) :
    b.peek a n = ((List.range n).map fun i => (b.mem.get (byteAddr a i)).toNat * 2 ^ (8 * (n - 1 - i))).sum := by
  rw [Block.peek, ho]
  exact leToNat_reverse_map_range _ n

/-- The byte at `a + i` after a write is the `i`-th of the bytes scattered. -/
theorem Block.poke_get_same {b : Block w} (hm : b.mem.wf = true) (a : Word w) {n i : Nat} (v : Nat) (hn : n < 2 ^ 32)
    (hi : i < n) :
    (b.poke a n v).mem.get (byteAddr a i) =
      (scatter b.cfg.byteOrder n v)[i]'(by rw [scatter_length]; exact hi) := by
  have h := putBytes_get_same a 0 (scatter b.cfg.byteOrder n v) b.mem hm (by rw [scatter_length]; omega) i
    (by rw [scatter_length]; exact hi)
  rwa [Nat.zero_add] at h

/-- Settles O6: the sums of `leToNat_map_range` and its mirror image for the read; for the write, the `i`-th byte scattered. -/
theorem byteOrderOfAccesses : Obligations.ByteOrderOfAccesses := by
  unfold Obligations.ByteOrderOfAccesses
  intro w b a width v
  have hle := widthBytes_le w width
  refine ⟨fun ho => Block.peek_little ho a _, fun ho => Block.peek_big ho a _, fun hm i hi => ⟨fun ho => ?_, fun ho => ?_⟩⟩
  · rw [Block.poke_get_same hm a v (by omega) hi]
    simp only [ho, scatter, natToLe_getElem]
  · rw [Block.poke_get_same hm a v (by omega) hi]
    simp only [ho, scatter, List.getElem_reverse, natToLe_getElem, natToLe_length]

/-! ### A write, whole (rules R40, R50) -/

theorem Block.poke_kept (b : Block w) (a : Word w) (n v : Nat) : KeptBut [] b (b.poke a n v) :=
  ⟨fun x _ => b.poke_reg a n v x, rfl, rfl, rfl, rfl, rfl⟩

/-- Settles O7: `Block.peek_poke` for the bytes of the access, and the frames of a single write. -/
theorem readReturnsLastWrite : Obligations.ReadReturnsLastWrite := by
  unfold Obligations.ReadReturnsLastWrite
  intro w b a width v hm
  have hle := widthBytes_le w width
  refine ⟨?_, b.poke_frame a _ v, b.poke_kept a _ v, b.poke_wf hm a _ v⟩
  rw [b.peek_poke hm a _ v (by omega), show (256 : Nat) = 2 ^ 8 from rfl, ← pow_mul]

/-! ### Outside `MEM_VALID` (rule R47) -/

theorem memRead_refuse {a : Word w} {n : Nat} {b : Block w} (h : b.valid a n = false) :
    memRead a n b = .error (.refuse (.outsideMemValid a.toNat)) b := by
  simp [memRead, h]

theorem memWrite_refuse {a : Word w} {n v : Nat} {b : Block w} (h : b.valid a n = false) :
    memWrite a n v b = .error (.refuse (.outsideMemValid a.toNat)) b := by
  simp [memWrite, h]

/-- A pop whose tests of the depth pass has moved the depth before it reads. -/
theorem popD_refuse {b : Block w} (h0 : 0 < b.dp.toNat) (h1 : b.dp.toNat ≤ b.dsize.toNat)
    (hv : b.valid (b.dAddr 0) w.bytes = false) :
    popD b = .error (.refuse (.outsideMemValid (b.dAddr 0).toNat)) (b.setDp (b.dp - 1)) := by
  rw [popD_run, if_neg (by omega), if_neg (by omega), if_neg (by simp [hv])]

theorem pushD_refuse {b : Block w} (h : b.dp.toNat < b.dsize.toNat) (hv : b.valid b.dFree w.bytes = false) (v : Word w) :
    pushD v b = .error (.refuse (.outsideMemValid b.dFree.toNat)) b := by
  rw [pushD_run, if_neg (by omega), if_neg (by simp [hv])]

theorem fetch_refuse {b : Block w} (ha : aligned b.pc w.bytes = true) (hv : b.valid b.pc w.bytes = false) :
    fetch b = .error (.refuse (.outsideMemValid b.pc.toNat)) b := by
  unfold fetch
  rw [Op.bind_ok (Op.get_run b), Op.bind_ok (checkAligned_ok ha b), Op.bind_error (readWord_refuse hv)]

/-- The address is popped and aligned; the access it names is not backed. -/
theorem loadN_refuse {b : Block w} (h : b.dHas 1) {n : Nat} (ha : aligned (b.dItem 0) n = true)
    (hv : b.valid (b.dItem 0) n = false) :
    loadN n b = .error (.refuse (.outsideMemValid (b.dItem 0).toNat)) (b.setDp (b.dp - 1)) := by
  unfold loadN
  rw [Op.bind_ok (popD_ok h), Op.bind_ok (checkAligned_ok ha _),
    Op.bind_error (memRead_refuse (b := b.setDp (b.dp - 1)) hv)]

theorem storeN_refuse {b : Block w} (h : b.dHas 2) {n : Nat} (ha : aligned (b.dItem 0) n = true)
    (hv : b.valid (b.dItem 0) n = false) :
    storeN n b = .error (.refuse (.outsideMemValid (b.dItem 0).toNat)) (b.setDp (b.dp - 2)) := by
  unfold storeN
  rw [popTwo_ok h, Op.bind_ok (checkAligned_ok ha _), memWrite_refuse (b := b.setDp (b.dp - 2)) hv]

/-- An iteration whose fetch is refused is refused (rules R81, R84). -/
theorem step_fetch_refuse {b : Block w} {c : Caller} (hc : b.act = .run c) (ha : aligned b.pc w.bytes = true)
    (hv : b.valid b.pc w.bytes = false) : step ⟨w, b⟩ = .refused (.outsideMemValid b.pc.toNat) := by
  have hone : execOne b = .refused (.outsideMemValid b.pc.toNat) := by
    unfold execOne
    rw [fetch_refuse ha hv]
    rfl
  rw [step_run hc]
  unfold runStep
  rw [hone]

/-- The loads of rules R140 to R147, with the number of bytes each reads. -/
theorem exec_load_shape {i : Instr} {n : Nat}
    (h : (i, n) ∈ ([(.load, w.bytes), (.load1, 1), (.load2, 2), (.load4, 4)] : List (Instr × Nat))) (b : Block w) :
    exec i ⟨w, b⟩ = perform ⟨w, b⟩ (loadN n) := by
  simp only [List.mem_cons, Prod.mk.injEq, List.not_mem_nil, or_false] at h
  rcases h with ⟨rfl, rfl⟩ | ⟨rfl, rfl⟩ | ⟨rfl, rfl⟩ | ⟨rfl, rfl⟩ <;> rfl

/-- The stores of rules R140 to R147, with the number of bytes each writes. -/
theorem exec_store_shape {i : Instr} {n : Nat}
    (h : (i, n) ∈ ([(.store, w.bytes), (.store1, 1), (.store2, 2), (.store4, 4)] : List (Instr × Nat))) (b : Block w) :
    exec i ⟨w, b⟩ = perform ⟨w, b⟩ (storeN n) := by
  simp only [List.mem_cons, Prod.mk.injEq, List.not_mem_nil, or_false] at h
  rcases h with ⟨rfl, rfl⟩ | ⟨rfl, rfl⟩ | ⟨rfl, rfl⟩ | ⟨rfl, rfl⟩ <;> rfl

/-- Settles O8: in each of the five, the access is what the checks before it leave to do, and it ends the step. -/
theorem outsideMemValidIsRefused : Obligations.OutsideMemValidIsRefused := by
  unfold Obligations.OutsideMemValidIsRefused
  intro w b
  refine ⟨fun c hc ha hv => step_fetch_refuse hc ha hv, fun p hp hitem ha hv => ?_, fun p hp hitems ha hv => ?_,
    fun n hroom hv => ?_, fun h0 h1 hv => ?_⟩
  · exact (exec_load_shape hp b).trans (perform_refuse (loadN_refuse hitem ha hv))
  · exact (exec_store_shape hp b).trans (perform_refuse (storeN_refuse hitems ha hv))
  · exact perform_refuse (pushD_refuse hroom hv (literal w n))
  · exact perform_refuse (Op.bind_error (popD_refuse h0 h1 hv))

end Machine
end Sys2Proof
end

section
/-! SUPPORT. Alignment of `pc` (rule R46): every instruction run with no handler active ends with `pc` a multiple of `W`. An
instruction that raises ends in the block it has left (rule R232); `CATCH`, which activates a handler, raises only before. -/

namespace Sys2Proof.Machine

variable {w : WordSize} {α β : Type}

/-! ### Aligned addresses (rules R44, R65) -/

/-- `W` divides `2 ^ XLEN`, so moving an address by a multiple of `W` keeps it aligned even where it wraps. -/
theorem aligned_add {a d : Word w} (ha : aligned a w.bytes = true) (hd : d.toNat % w.bytes = 0) :
    aligned (a + d) w.bytes = true := by
  have hdvd : w.bytes ∣ 2 ^ w.xlen := by cases w <;> decide
  rw [aligned_iff] at ha ⊢
  rw [BitVec.toNat_add, Nat.mod_mod_of_dvd _ hdvd, Nat.add_mod, ha, hd, Nat.zero_add, Nat.zero_mod]

theorem aligned_relTarget {pc : Word w} (h : aligned pc w.bytes = true) (n : Int) :
    aligned (relTarget pc n) w.bytes = true :=
  aligned_add h (by rw [mul_comm]; exact mul_step_toNat_mod _)

theorem aligned_sub_step {pc : Word w} (h : aligned pc w.bytes = true) : aligned (pc - w.step) w.bytes = true := by
  rw [sub_eq_add_neg, ← neg_one_mul]
  exact aligned_add h (mul_step_toNat_mod _)

/-! ### What an instruction keeps while no handler is active -/

/-- No handler is active and `pc` is aligned. -/
structure Block.Quiet (b : Block w) : Prop where
  noHandler : b.handlerSp = 0
  pcAligned : aligned b.pc w.bytes = true

/-- Where no handler was active and `pc` was aligned, the same holds afterwards. -/
def KeepsQuiet (b r : Block w) : Prop := b.Quiet → r.Quiet

/-- Neither the stacks nor memory touch `pc` or `handler_sp`. -/
theorem KeepsQuiet.admitsStacks : AdmitsStacks (KeepsQuiet (w := w)) where
  refl _ h := h
  trans hab hbc h := hbc (hab h)
  setDp _ _ h := { h with }
  poke _ _ _ _ h := { h with }
  host _ _ _ h := { h with }
  setSp _ _ h := { h with }

theorem Block.Quiet.setPc {b : Block w} (h : b.Quiet) {a : Word w} (ha : aligned a w.bytes = true) :
    (b.setPc a).Quiet := { h with pcAligned := ha }

/-- Begun with no handler active and `pc` aligned, the operation completes with `pc` aligned, or ends early with still no
handler active, so that nothing is unwound. -/
def Op.EndsAligned (op : Op w α) : Prop :=
  ∀ b : Block w, b.Quiet →
    match op b with
    | .ok _ r => aligned r.pc w.bytes = true
    | .error _ r => r.Quiet

theorem EndsAligned.of_within {op : Op w α} (h : Op.Within KeepsQuiet op) : Op.EndsAligned op := by
  intro b hb
  have hafter := h b hb
  cases ho : op b with
  | ok a r => rw [ho] at hafter; exact hafter.pcAligned
  | error e r => rw [ho] at hafter; exact hafter

theorem EndsAligned.bind {x : Op w α} {f : α → Op w β} (hx : Op.Within KeepsQuiet x) (hf : ∀ a, Op.EndsAligned (f a)) :
    Op.EndsAligned (x >>= f) := by
  intro b hb
  have hafter := hx b hb
  rw [Op.bind_run]
  cases ho : x b with
  | ok a r => rw [ho] at hafter; exact hf a r hafter
  | error e r => rw [ho] at hafter; exact hafter

/-- What follows a read of the block may rely on what holds of the block. -/
theorem EndsAligned.get_bind {f : Block w → Op w β} (hf : ∀ b : Block w, b.Quiet → Op.EndsAligned (f b)) :
    Op.EndsAligned (get >>= f) := by
  intro b hb
  rw [Op.bind_ok (Op.get_run b)]
  exact hf b hb b hb

/-- What follows a check of an address may rely on its alignment (rule R44). -/
theorem EndsAligned.checkAligned_bind {a : Word w} {f : Unit → Op w β}
    (hf : aligned a w.bytes = true → Op.EndsAligned (f ())) : Op.EndsAligned (checkAligned a w.bytes >>= f) := by
  intro b hb
  cases ha : aligned a w.bytes with
  | true =>
    rw [Op.bind_ok (checkAligned_ok ha b)]
    exact hf ha b hb
  | false =>
    rw [Op.bind_error (checkAligned_raise ha b)]
    exact hb

/-- A last write may activate a handler: nothing is raised after it. -/
theorem EndsAligned.update {f : Block w → Block w} (h : ∀ b : Block w, b.Quiet → aligned (f b).pc w.bytes = true) :
    Op.EndsAligned (update f) := h

theorem EndsAligned.setPc {a : Word w} (ha : aligned a w.bytes = true) :
    Op.EndsAligned (Machine.update fun b => b.setPc a) := EndsAligned.update fun _ _ => ha

theorem EndsAligned.ite {c : Prop} [Decidable c] {x y : Op w α} (hx : Op.EndsAligned x) (hy : Op.EndsAligned y) :
    Op.EndsAligned (if c then x else y) := by
  split <;> assumption

/-- However the run loop takes the end of such an operation, `pc` is aligned (rules R84, R232). -/
theorem EndsAligned.settle {op : Op w α} (hop : Op.EndsAligned op) {b r : Block w} {v : Verdict w} (hb : b.Quiet)
    (h : settle (op b) = .next (v, r)) : aligned r.pc w.bytes = true := by
  have hend := hop b hb
  cases ho : op b with
  | ok a b' => rw [ho] at h hend; cases h; exact hend
  | error e b' =>
    rw [ho] at hend
    obtain rfl : r = b' := by
      have hafter : (Op.after (op b)).handlerSp = 0 := by rw [ho]; exact hend.noHandler
      rw [settle_noHandler hafter h, ho]
      rfl
    exact hend.pcAligned

/-! ### Every instruction -/

/-- The control transfers: a target from a stack is checked (R43), every other lies a multiple of `W` from `pc` (R65, R136). -/
theorem exec_transfer_endsAligned {i : Instr} (hi : Instr.isTransfer i = true) (b : Block w) :
    ∃ op : Op w Unit, exec i ⟨w, b⟩ = perform ⟨w, b⟩ op ∧ Op.EndsAligned op := by
  have S := KeepsQuiet.admitsStacks (w := w)
  have h := S.toAdmitsHost
  cases i
  case calli n =>
    exact ⟨_, rfl, EndsAligned.get_bind fun _ hq => EndsAligned.bind (Within.pushS S _) fun _ =>
      EndsAligned.setPc (aligned_relTarget hq.pcAligned n)⟩
  case jumpi n =>
    exact ⟨_, rfl, EndsAligned.get_bind fun _ hq => EndsAligned.setPc (aligned_relTarget hq.pcAligned n)⟩
  case jumpzi n =>
    refine ⟨_, rfl, EndsAligned.bind (Within.popD h) fun flag => EndsAligned.get_bind fun _ hq =>
      EndsAligned.update fun r hr => ?_⟩
    split
    · exact aligned_relTarget hq.pcAligned n
    · exact hr.pcAligned
  case jump =>
    exact ⟨_, rfl, EndsAligned.bind (Within.popD h) fun _ => EndsAligned.checkAligned_bind fun ha => EndsAligned.setPc ha⟩
  case jumpz =>
    exact ⟨_, rfl, EndsAligned.bind (Within.popD h) fun _ => EndsAligned.bind (Within.popD h) fun _ =>
      EndsAligned.ite (EndsAligned.checkAligned_bind fun ha => EndsAligned.setPc ha)
        (EndsAligned.of_within (Within.pure h _))⟩
  case call =>
    exact ⟨_, rfl, EndsAligned.bind (Within.popD h) fun _ => EndsAligned.checkAligned_bind fun ha =>
      EndsAligned.bind (Within.get h) fun _ => EndsAligned.bind (Within.pushS S _) fun _ => EndsAligned.setPc ha⟩
  case ret =>
    refine ⟨_, rfl, EndsAligned.bind (Within.popS S) fun _ => EndsAligned.checkAligned_bind fun ha =>
      EndsAligned.bind (Within.update fun _ hq => hq.setPc ha) fun _ => EndsAligned.get_bind fun _ hq => ?_⟩
    rw [if_neg (not_inRegion_of_noHandler hq.noHandler)]
    exact EndsAligned.of_within (Within.pure h _)
  case catch_ =>
    exact ⟨_, rfl, EndsAligned.bind (Within.popD h) fun _ => EndsAligned.checkAligned_bind fun ha =>
      EndsAligned.bind (Within.get h) fun _ => EndsAligned.ite (EndsAligned.of_within (Within.raise h _))
        (EndsAligned.bind (Within.pushS S _) fun _ => EndsAligned.bind (Within.pushS S _) fun _ =>
          EndsAligned.update fun _ _ => ha)⟩
  case break_ =>
    exact ⟨_, rfl, EndsAligned.bind (Within.update fun _ hq => hq.setPc (aligned_sub_step hq.pcAligned)) fun _ =>
      EndsAligned.of_within (Within.stopLoop h _)⟩
  all_goals cases hi

theorem exec_endsAligned (i : Instr) (b : Block w) :
    ∃ op : Op w Unit, exec i ⟨w, b⟩ = perform ⟨w, b⟩ op ∧ Op.EndsAligned op := by
  cases hi : Instr.isTransfer i with
  | true => exact exec_transfer_endsAligned hi b
  | false =>
    obtain ⟨op, hexec, hop⟩ := exec_stacks KeepsQuiet.admitsStacks i b hi
    exact ⟨op, hexec, EndsAligned.of_within hop⟩

/-- Control going back to whoever started the run loop leaves `pc` alone (rules R82, R88). -/
@[simp] theorem Block.stopRun_pc (b : Block w) (c : Word w) : (b.stopRun c).pc = b.pc := by
  unfold Block.stopRun
  split <;> rfl

/-- Settles O44: each instruction's pseudocode ends aligned, and nothing it raises is unwound. -/
theorem instructionsKeepPcAligned : Obligations.InstructionsKeepPcAligned := by
  unfold Obligations.InstructionsKeepPcAligned
  intro w b i t hhandler hpc ht
  obtain ⟨op, hexec, hop⟩ := exec_endsAligned i b
  rw [hexec] at ht
  obtain ⟨r, ⟨hr, rfl⟩ | ⟨c, hr, rfl⟩⟩ := toOut_next ht
  · exact EndsAligned.settle hop ⟨hhandler, hpc⟩ hr
  · rw [Block.stopRun_pc]
    exact EndsAligned.settle hop ⟨hhandler, hpc⟩ hr

end Sys2Proof.Machine
end

section
/-! SUPPORT. The encoding (rules R61 to R72): a word is its signed value's floor above the tag and its remainder below
it. The encoder puts these two together and the decoder takes them apart, so each undoes the other. -/

namespace Sys2Proof

variable {w : WordSize}

theorem WordSize.lt_xlen (w : WordSize) {tag : Nat} (h : tag < 32) : tag < w.xlen := by
  cases w <;> simp <;> omega

/-! ### A word taken apart: the floor above the tag, the remainder below it (rules R61, R62, R64) -/

/-- Rule R64: shifting right arithmetically is reading the field above the tag with its sign extended. -/
theorem sshiftRight_eq_signExtend (ir : Word w) {tag : Nat} (h : tag < w.xlen) :
    ir.sshiftRight tag = (ir.extractLsb' tag (w.xlen - tag)).signExtend w.xlen := by
  apply BitVec.eq_of_getLsbD_eq
  intro k hk
  have hmsb : (ir.extractLsb' tag (w.xlen - tag)).msb = ir.msb := by
    rw [BitVec.msb_eq_getLsbD_last, BitVec.msb_eq_getLsbD_last, BitVec.getLsbD_extractLsb',
      show tag + (w.xlen - tag - 1) = w.xlen - 1 by omega]
    simp only [show w.xlen - tag - 1 < w.xlen - tag by omega, decide_true, Bool.true_and]
  rw [BitVec.getLsbD_sshiftRight, BitVec.getLsbD_signExtend, hmsb, BitVec.getLsbD_extractLsb']
  by_cases hfield : tag + k < w.xlen
  · simp [hk, hfield, show k < w.xlen - tag by omega]
  · simp [hk, hfield, show ¬k < w.xlen - tag by omega]

/-- Rule R64: the floor of the signed value is the field above the tag, read signed. -/
theorem toInt_floor_eq_field (ir : Word w) {tag : Nat} (h : tag < w.xlen) :
    ir.toInt / 2 ^ tag = (ir.extractLsb' tag (w.xlen - tag)).toInt := by
  rw [← operand_eq, operand, sshiftRight_eq_signExtend ir h, BitVec.toInt_signExtend_of_le (Nat.sub_le ..)]

/-- Reduction modulo 2^XLEN keeps the remainder below the tag. -/
theorem toInt_ofInt_emod (x : Int) {tag : Nat} (h : tag ≤ w.xlen) :
    (BitVec.ofInt w.xlen x).toInt % 2 ^ tag = x % 2 ^ tag := by
  have hdvd : (2 : Int) ^ tag ∣ ((2 ^ w.xlen : Nat) : Int) := by
    push_cast
    exact pow_dvd_pow 2 h
  rw [BitVec.toInt_ofInt, ← Int.emod_emod_of_dvd _ hdvd, Int.bmod_emod, Int.emod_emod_of_dvd _ hdvd]

theorem toInt_emod (ir : Word w) {tag : Nat} (h : tag ≤ w.xlen) :
    ir.toInt % 2 ^ tag = ((ir.toNat % 2 ^ tag : Nat) : Int) := by
  have hir : BitVec.ofInt w.xlen ir.toNat = ir := by rw [BitVec.ofInt_natCast, BitVec.ofNat_toNat, BitVec.setWidth_eq]
  calc ir.toInt % 2 ^ tag = (BitVec.ofInt w.xlen ir.toNat).toInt % 2 ^ tag := by rw [hir]
    _ = (ir.toNat : Int) % 2 ^ tag := toInt_ofInt_emod _ h
    _ = ((ir.toNat % 2 ^ tag : Nat) : Int) := by push_cast; rfl

/-- Every operand that a word holds is in the range of rule R70. -/
theorem fitsAbove_floor (ir : Word w) {tag : Nat} (h : tag < w.xlen) : fitsAbove w tag (ir.toInt / 2 ^ tag) = true := by
  rw [fitsAbove_iff, toInt_floor_eq_field ir h]
  exact ⟨BitVec.le_toInt _, BitVec.toInt_lt⟩

/-- A word is its own floor placed above its own tag. -/
theorem place_floor_tag (ir : Word w) {tag low : Nat} (h : tag ≤ w.xlen) (hlow : ir.toNat % 2 ^ tag = low) :
    place w (ir.toInt / 2 ^ tag) tag low = ir := by
  rw [← hlow, place_eq _ _ _ (Nat.mod_lt _ (Nat.two_pow_pos tag)), ← toInt_emod ir h, Int.ediv_mul_add_emod,
    BitVec.ofInt_toInt]

/-! ### A word put together -/

theorem place_toNat_mod (v : Int) {tag low : Nat} (h : tag ≤ w.xlen) (hlow : low < 2 ^ tag) :
    (place w v tag low).toNat % 2 ^ tag = low := by
  have hlow' : (low : Int) < 2 ^ tag := by exact_mod_cast hlow
  rw [← Int.natCast_inj, ← toInt_emod _ h, place_eq v tag low hlow, toInt_ofInt_emod _ h,
    Int.mul_add_emod_self_right, Int.emod_eq_of_lt (Int.natCast_nonneg low) hlow']

/-- An operand in the range of rule R70 loses nothing when it is placed. -/
theorem place_toInt {v : Int} {tag low : Nat} (h : tag < w.xlen) (hlow : low < 2 ^ tag)
    (hv : fitsAbove w tag v = true) : (place w v tag low).toInt = v * 2 ^ tag + low := by
  obtain ⟨hge, hlt⟩ := (fitsAbove_iff tag v).1 hv
  have hlow' : (low : Int) < 2 ^ tag := by exact_mod_cast hlow
  have hpow : (2 : Int) ^ (w.xlen - 1) = 2 ^ (w.xlen - tag - 1) * 2 ^ tag := by
    rw [← pow_add, show w.xlen - tag - 1 + tag = w.xlen - 1 by omega]
  rw [place_eq v tag low hlow]
  apply BitVec.toInt_ofInt_eq_self (by omega)
  · rw [hpow]; nlinarith
  · rw [hpow]; nlinarith

theorem place_floor {v : Int} {tag low : Nat} (h : tag < w.xlen) (hlow : low < 2 ^ tag)
    (hv : fitsAbove w tag v = true) : (place w v tag low).toInt / 2 ^ tag = v := by
  have hlow' : (low : Int) < 2 ^ tag := by exact_mod_cast hlow
  rw [place_toInt h hlow hv, Int.add_comm, Int.add_mul_ediv_right _ _ (by positivity),
    Int.ediv_eq_zero_of_lt (Int.natCast_nonneg low) hlow', Int.zero_add]

/-! ### The two widths of tag (rule R63) -/

/-- Rule R70 for the formats with a 2-bit tag. -/
theorem place_two (v : Int) {low : Nat} (hlow : low < 4) : place w v 2 low = BitVec.ofInt w.xlen (4 * v + low) := by
  rw [place_eq v 2 low hlow, Int.mul_comm]
  rfl

/-- Rule R70 for the formats with a 4-bit tag. -/
theorem place_four (v : Int) {low : Nat} (hlow : low < 16) : place w v 4 low = BitVec.ofInt w.xlen (16 * v + low) := by
  rw [place_eq v 4 low hlow, Int.mul_comm]
  rfl

theorem place_two_tag_floor {v : Int} {low : Nat} (hlow : low < 4) (hv : fitsAbove w 2 v = true) :
    (place w v 2 low).toNat % 4 = low ∧ (place w v 2 low).toInt / 4 = v :=
  have h : 2 < w.xlen := w.lt_xlen (by decide)
  ⟨place_toNat_mod v h.le hlow, place_floor h hlow hv⟩

theorem place_four_tag_floor {v : Int} {low : Nat} (hlow : low < 16) (hv : fitsAbove w 4 v = true) :
    (place w v 4 low).toNat % 16 = low ∧ (place w v 4 low).toInt / 16 = v :=
  have h : 4 < w.xlen := w.lt_xlen (by decide)
  ⟨place_toNat_mod v h.le hlow, place_floor h hlow hv⟩

theorem fits_place_two_of_tag (ir : Word w) {low : Nat} (h : ir.toNat % 4 = low) :
    fitsAbove w 2 (ir.toInt / 4) = true ∧ place w (ir.toInt / 4) 2 low = ir := by
  have h2 : 2 < w.xlen := w.lt_xlen (by decide)
  exact ⟨fitsAbove_floor (tag := 2) ir h2, place_floor_tag (tag := 2) ir h2.le h⟩

theorem fits_place_four_of_tag (ir : Word w) {low : Nat} (h : ir.toNat % 16 = low) :
    fitsAbove w 4 (ir.toInt / 16) = true ∧ place w (ir.toInt / 16) 4 low = ir := by
  have h4 : 4 < w.xlen := w.lt_xlen (by decide)
  exact ⟨fitsAbove_floor (tag := 4) ir h4, place_floor_tag (tag := 4) ir h4.le h⟩

/-! ### The opcode map (rules R67 to R69) -/

theorem insnOf_eq_some_iff (n : Nat) (i : Instr) : insnOf n = some i ↔ opcodeOf i = some n := by
  refine ⟨fun h => ?_, insnOf_opcodeOf i n⟩
  have hn : n ≤ 0x2D := by
    by_contra hgt
    rw [insnOf_none n (by omega)] at h
    cases h
  obtain ⟨j, hj, hopcode⟩ := opcodeOf_insnOf n hn
  rw [hj] at h
  cases h
  exact hopcode

/-- An `INSN` word decodes to the one instruction of its opcode number. -/
theorem decode_insn_iff (ir : Word w) (h : ir.toNat % 16 = 15) (i : Instr) :
    decode w ir = .ok i ↔ opcodeOf i = some (ir.toNat / 16) := by
  rw [decode_tagF ir h, ← insnOf_eq_some_iff]
  cases insnOf (ir.toNat / 16) <;> simp

theorem decode_insn_invalid (ir : Word w) (h : ir.toNat % 16 = 15) (hn : 0x2D < ir.toNat / 16) :
    decode w ir = .error (.invalidOpcode (ir.toNat / 16)) := by
  rw [decode_tagF ir h, insnOf_none _ hn]

theorem wf_of_opcodeOf {i : Instr} {n : Nat} (h : opcodeOf i = some n) : i.wf w = true := by
  cases i <;> cases h <;> rfl

theorem encodeFields_of_opcodeOf {i : Instr} {n : Nat} (h : opcodeOf i = some n) :
    encodeFields w i = BitVec.ofNat w.xlen (16 * n + 15) := by
  have hplace : encodeFields w i = place w n 4 15 := by cases i <;> cases h <;> rfl
  rw [hplace, place_four _ (by decide), ← BitVec.ofInt_natCast]
  congr 1

/-- The word of rule R67 has nothing above its opcode number. -/
theorem insnWord_toNat {n : Nat} (h : n ≤ 0x2D) : (BitVec.ofNat w.xlen (16 * n + 15)).toNat = 16 * n + 15 := by
  have hw := w.two_pow_ge
  rw [BitVec.toNat_ofNat, Nat.mod_eq_of_lt (by omega)]

theorem decode_insnWord {i : Instr} {n : Nat} (h : opcodeOf i = some n) :
    decode w (BitVec.ofNat w.xlen (16 * n + 15)) = .ok i := by
  have hnum := insnWord_toNat (w := w) (opcodeOf_le i n h)
  rw [decode_insn_iff _ (by omega), h, hnum]
  congr 1
  omega

/-! ### Decode undoes encode, format by format (rule R70) -/

theorem decode_encodeFields {i : Instr} (h : i.wf w = true) : decode w (encodeFields w i) = .ok i := by
  cases hi : opcodeOf i with
  | some n => rw [encodeFields_of_opcodeOf hi, decode_insnWord hi]
  | none =>
    cases i
    case calli v =>
      obtain ⟨htag, hfloor⟩ := place_two_tag_floor (low := 0) (by decide) h
      rw [encodeFields, decode_tag0 _ htag, hfloor]
    case pushi v =>
      obtain ⟨htag, hfloor⟩ := place_two_tag_floor (low := 1) (by decide) h
      rw [encodeFields, decode_tag1 _ htag, hfloor]
    case pushreli v =>
      obtain ⟨htag, hfloor⟩ := place_two_tag_floor (low := 2) (by decide) h
      rw [encodeFields, decode_tag2 _ htag, hfloor]
    case jumpi v =>
      obtain ⟨htag, hfloor⟩ := place_four_tag_floor (low := 0x3) (by decide) h
      rw [encodeFields, decode_tag3 _ htag, hfloor]
    case jumpzi v =>
      obtain ⟨htag, hfloor⟩ := place_four_tag_floor (low := 0x7) (by decide) h
      rw [encodeFields, decode_tag7 _ htag, hfloor]
    case trap v =>
      obtain ⟨htag, hfloor⟩ := place_four_tag_floor (low := 0xB) (by decide) h
      rw [encodeFields, decode_tagB _ htag, hfloor]
    all_goals cases hi

/-- The round trip at a word known to be the encoder's. -/
theorem encode_decode_at {i : Instr} {ir : Word w} (h : i.wf w = true) (hir : encodeFields w i = ir) :
    encode w i = some ir ∧ decode w ir = .ok i := by
  subst hir
  exact ⟨encode_of_wf h, decode_encodeFields h⟩

theorem encode_decode_insn {i : Instr} {n : Nat} (h : opcodeOf i = some n) :
    encode w i = some (BitVec.ofNat w.xlen (16 * n + 15)) ∧ decode w (BitVec.ofNat w.xlen (16 * n + 15)) = .ok i :=
  encode_decode_at (wf_of_opcodeOf h) (encodeFields_of_opcodeOf h)

/-- Outside the range of rule R70 the operand does not fit. -/
theorem not_fitsAbove {tag : Nat} {v : Int}
    (h : v < -(2 : Int) ^ (w.xlen - tag - 1) ∨ (2 : Int) ^ (w.xlen - tag - 1) ≤ v) : fitsAbove w tag v = false := by
  rw [Bool.eq_false_iff, ne_eq, fitsAbove_iff]
  omega

/-! ### Encode undoes decode, class of tags by class of tags (rules R61, R62) -/

theorem tag_cases (n : Nat) :
    n % 4 = 0 ∨ n % 4 = 1 ∨ n % 4 = 2 ∨ n % 16 = 3 ∨ n % 16 = 7 ∨ n % 16 = 11 ∨ n % 16 = 15 := by
  omega

theorem encodeFields_of_decode {ir : Word w} {i : Instr} (h : decode w ir = .ok i) :
    i.wf w = true ∧ encodeFields w i = ir := by
  obtain htag | htag | htag | htag | htag | htag | htag := tag_cases ir.toNat
  · cases (decode_tag0 ir htag).symm.trans h
    exact fits_place_two_of_tag ir htag
  · cases (decode_tag1 ir htag).symm.trans h
    exact fits_place_two_of_tag ir htag
  · cases (decode_tag2 ir htag).symm.trans h
    exact fits_place_two_of_tag ir htag
  · cases (decode_tag3 ir htag).symm.trans h
    exact fits_place_four_of_tag ir htag
  · cases (decode_tag7 ir htag).symm.trans h
    exact fits_place_four_of_tag ir htag
  · cases (decode_tagB ir htag).symm.trans h
    exact fits_place_four_of_tag ir htag
  · have hopcode : opcodeOf i = some (ir.toNat / 16) := (decode_insn_iff ir htag i).1 h
    have hnum : 16 * (ir.toNat / 16) + 15 = ir.toNat := by omega
    refine ⟨wf_of_opcodeOf hopcode, ?_⟩
    rw [encodeFields_of_opcodeOf hopcode, hnum, BitVec.ofNat_toNat, BitVec.setWidth_eq]

/-! ### The statements of 30_encoding.md -/

/-- Settles O4: the encoder's word of each format, taken apart again by the decoder. -/
theorem encodeThenDecode : Obligations.EncodeThenDecode := by
  unfold Obligations.EncodeThenDecode
  intro w
  refine ⟨fun v hge hlt => ?_, fun v hge hlt => ?_, fun i opcode h => encode_decode_insn h,
    fun v hv => ?_, fun v hv => ?_⟩
  · have hv : fitsAbove w 2 v = true := (fitsAbove_iff 2 v).2 ⟨hge, hlt⟩
    have hword : place w v 2 0 = BitVec.ofInt w.xlen (4 * v) := by
      rw [place_two v (by decide), Int.natCast_zero, Int.add_zero]
    obtain ⟨ecalli, dcalli⟩ := encode_decode_at (i := .calli v) hv hword
    obtain ⟨epushi, dpushi⟩ := encode_decode_at (i := .pushi v) hv (place_two v (by decide))
    obtain ⟨epushreli, dpushreli⟩ := encode_decode_at (i := .pushreli v) hv (place_two v (by decide))
    exact ⟨ecalli, epushi, epushreli, dcalli, dpushi, dpushreli⟩
  · have hv : fitsAbove w 4 v = true := (fitsAbove_iff 4 v).2 ⟨hge, hlt⟩
    obtain ⟨ejumpi, djumpi⟩ := encode_decode_at (i := .jumpi v) hv (place_four v (by decide))
    obtain ⟨ejumpzi, djumpzi⟩ := encode_decode_at (i := .jumpzi v) hv (place_four v (by decide))
    obtain ⟨etrap, dtrap⟩ := encode_decode_at (i := .trap v) hv (place_four v (by decide))
    exact ⟨ejumpi, ejumpzi, etrap, djumpi, djumpzi, dtrap⟩
  · have h : fitsAbove w 2 v = false := not_fitsAbove hv
    exact ⟨encode_of_not_wf h, encode_of_not_wf h, encode_of_not_wf h⟩
  · have h : fitsAbove w 4 v = false := not_fitsAbove hv
    exact ⟨encode_of_not_wf h, encode_of_not_wf h, encode_of_not_wf h⟩

/-- Settles O5: in each class of tags, the word is its floor placed above its tag. -/
theorem decodeThenEncode : Obligations.DecodeThenEncode := by
  unfold Obligations.DecodeThenEncode
  intro w ir i h
  obtain ⟨hwf, rfl⟩ := encodeFields_of_decode h
  exact ⟨hwf, encode_of_wf hwf⟩

/-- Settles O3: the fields are floors of the signed value, and each class of tags has its equation of the decoder. -/
theorem decoderByTagAndField : Obligations.DecoderByTagAndField := by
  unfold Obligations.DecoderByTagAndField
  intro w ir
  refine ⟨toInt_floor_eq_field (tag := 2) ir (w.lt_xlen (by decide)),
    toInt_floor_eq_field (tag := 4) ir (w.lt_xlen (by decide)),
    decode_tag0 ir, decode_tag1 ir, decode_tag2 ir, decode_tag3 ir, decode_tag7 ir, decode_tagB ir,
    fun htag hle => ?_, decode_insn_invalid ir⟩
  obtain ⟨i, -, hopcode⟩ := opcodeOf_insnOf _ hle
  exact ⟨i, hopcode, (decode_insn_iff ir htag i).2 hopcode⟩

/-- Settles O1: the map's rows are the values of `opcodeOf`, and each of those makes the round trip. -/
theorem opcodeMapDecodes : Obligations.OpcodeMapDecodes := by
  unfold Obligations.OpcodeMapDecodes
  intro w p hp
  have hrow : opcodeOf p.2 = some p.1 := by
    revert p
    decide
  exact (encode_decode_insn hrow).symm

/-- Settles O2: each word by the equation of its tag. -/
theorem writtenWordsDecode : Obligations.WrittenWordsDecode := by
  unfold Obligations.WrittenWordsDecode
  exact ⟨decode_tag0 _ rfl, decode_tag1 _ rfl, decode_tag2 _ rfl, decode_tag3 _ rfl, decode_tag7 _ rfl,
    decode_tagB _ rfl, decode_tagB _ rfl, (decode_insn_iff _ rfl _).2 rfl, decode_tag0 _ rfl,
    decode_insn_invalid _ rfl (by decide)⟩

end Sys2Proof
end

section
/-! SUPPORT. The run loop and HOST (rules R80 to R85, R180, R183): an iteration is one pseudocode, so it keeps what the single
writes keep, and the caller that started the run is still the caller when it goes on. A direct-mode `STEP` is then the one case
in which a step does more than its iteration. -/

namespace Sys2Proof.Machine

variable {w : WordSize}

/-! ### An iteration as one pseudocode (rules R81 to R84) -/

section Iteration
variable {R : Block w → Block w → Prop} (H : Admits R)
include H

theorem dispatch_pseudocode (ir : Word w) (b : Block w) :
    ∃ op : Op w Unit, dispatch ir b = perform ⟨w, b⟩ op ∧ Op.Within R op := by
  unfold dispatch
  cases decode w ir with
  | ok i => exact exec_pseudocode H i b
  | error _ => exact ⟨_, rfl, Within.raise H.toAdmitsHost _⟩

/-- The fetch, followed by what the fetched word stands for; a fetch that ends early is all there is. -/
theorem execOne_pseudocode (b : Block w) :
    ∃ op : Op w Unit, execOne b = perform ⟨w, b⟩ op ∧ Op.Within R op := by
  have hfetch : Op.Within R (fetch : Op w (Word w)) := fetch_within H.toAdmitsPc
  unfold execOne
  cases hf : fetch b with
  | ok ir b' =>
    obtain ⟨op, hop, hw⟩ := dispatch_pseudocode H ir b'
    refine ⟨fetch >>= fun _ => op, ?_, Within.bind H.toAdmitsHost hfetch fun _ => hw⟩
    rw [perform, Op.bind_ok hf]
    exact hop
  | error e b' =>
    refine ⟨fetch >>= fun _ => pure (), ?_, Within.bind H.toAdmitsHost hfetch fun _ => Within.pure H.toAdmitsHost ()⟩
    rw [perform, Op.bind_error hf]

/-- An iteration that answers a next state has moved the block along `R`; if it stopped the run loop, what follows is
`Block.stopRun` (rules R82, R88). -/
theorem execOne_within {b : Block w} {t : State} (h : execOne b = .next t) :
    ∃ r : Block w, R b r ∧ (t = ⟨w, r⟩ ∨ ∃ c, t = ⟨w, r.stopRun c⟩) := by
  obtain ⟨op, hop, hw⟩ := execOne_pseudocode H b
  obtain ⟨r, ⟨hr, ht⟩ | ⟨c, hr, ht⟩⟩ := toOut_next (hop ▸ h)
  · exact ⟨r, settle_within H hw hr, .inl ht⟩
  · exact ⟨r, settle_within H hw hr, .inr ⟨c, ht⟩⟩

end Iteration

/-! ### Who started the run (rule R85) -/

/-- What the block is doing, and for whom, has not changed. -/
def KeepsAct (b r : Block w) : Prop := r.act = b.act

/-- No write that an instruction makes touches the activity: only the end of the run does. -/
theorem KeepsAct.admits : Admits (KeepsAct (w := w)) where
  refl _ := rfl
  trans hab hbc := hbc.trans hab
  setDp _ _ := rfl
  poke _ _ _ _ := rfl
  host _ _ _ := rfl
  setSp _ _ := rfl
  setPc _ _ := rfl
  setHandlerSp _ _ := rfl

/-- An iteration for one caller does not become an iteration for another. -/
theorem execOne_act_ne {b : Block w} {c k : Caller} {t : State} (hact : b.act = .run c) (hc : c ≠ k)
    (h : execOne b = .next t) : t.blk.act ≠ .run k := by
  obtain ⟨r, hr, rfl | ⟨d, rfl⟩⟩ := execOne_within KeepsAct.admits h
  · intro hk
    have hrun : (.run c : Activity w) = .run k := hact.symm.trans (hr.symm.trans hk)
    cases hrun
    exact hc rfl
  · exact stopRun_act_ne r d k

/-! ### A step of the run loop -/

theorem step_of_execOne_next {b : Block w} {c : Caller} {t : State} (hact : b.act = .run c) (h : execOne b = .next t) :
    step ⟨w, b⟩ = .next (endIteration t) := by
  rw [step_run hact, runStep, h]

theorem step_of_execOne_refused {b : Block w} {c : Caller} {q : Refusal} (hact : b.act = .run c)
    (h : execOne b = .refused q) : step ⟨w, b⟩ = .refused q := by
  rw [step_run hact, runStep, h]

/-- For every caller but a direct-mode `STEP`, a step is the iteration and nothing more. -/
theorem step_eq_execOne {b : Block w} {c : Caller} (hact : b.act = .run c) (hc : c ≠ .direct) :
    step ⟨w, b⟩ = execOne b := by
  rw [step_run hact, runStep]
  cases h : execOne b with
  | next t => simp only [endIteration_of_ne (execOne_act_ne hact hc h)]
  | fault f => rfl
  | refused q => rfl

/-! ### A direct-mode `STEP` (rules R180, R183) -/

/-- The end of a direct-mode `STEP`: idle, with the code as its result. -/
theorem stopRun_direct {b : Block w} (h : b.act = .run .direct) (c : Word w) :
    b.stopRun c = (b.setAct .idle).answer (.word c) := by
  unfold Block.stopRun
  rw [h]

theorem endIteration_direct {b : Block w} (h : b.act = .run .direct) :
    endIteration ⟨w, b⟩ = ⟨w, (b.setAct .idle).answer (.word (ErrCode.break_.word w))⟩ := by
  rw [← stopRun_direct h]
  unfold endIteration
  simp only [h]

/-- The one instruction has been done and the run has not stopped: the result is `BREAK`. -/
theorem step_direct_continue {b r : Block w} (hact : b.act = .run .direct) (hr : r.act = .run .direct)
    (h : execOne b = .next ⟨w, r⟩) :
    step ⟨w, b⟩ = .next ⟨w, (r.setAct .idle).answer (.word (ErrCode.break_.word w))⟩ := by
  rw [step_of_execOne_next hact h, endIteration_direct hr]

/-- The iteration has stopped the run itself: the result is its code. -/
theorem step_direct_stop {b r : Block w} {d : Word w} (hact : b.act = .run .direct) (hr : r.act = .run .direct)
    (h : execOne b = .next ⟨w, r.stopRun d⟩) :
    step ⟨w, b⟩ = .next ⟨w, (r.setAct .idle).answer (.word d)⟩ := by
  rw [step_of_execOne_next hact h, endIteration_of_ne (stopRun_act_ne r d .direct), stopRun_direct hr]

/-- Settles O45: the iteration is the instruction; only the end of a direct-mode `STEP` adds to it. -/
theorem stepRunsDecodedInstruction : Obligations.StepRunsDecodedInstruction := by
  unfold Obligations.StepRunsDecodedInstruction
  intro w b c i hact hpc hv hd
  have hone := execOne_decoded ((aligned_iff _ _).2 hpc) hv hd
  refine ⟨fun hc => (step_eq_execOne hact hc).trans hone, ?_⟩
  rintro rfl r hexec
  have hnext : execOne b = .next ⟨w, r⟩ := hone.trans hexec
  refine ⟨fun hr => step_direct_continue hact hr hnext, fun hr => ?_⟩
  rw [step_of_execOne_next hact hnext, endIteration_of_ne hr]

/-! ### Faults of the fetch and of the decode (rules R81, R83) -/

theorem execOne_misaligned {b : Block w} (ha : aligned b.pc w.bytes = false) :
    execOne b = (raiseCode (ErrCode.unalignedAddress.word w) b).toOut := by
  unfold execOne
  rw [fetch_misaligned ha]
  rfl

theorem execOne_undecoded {b : Block w} {x : Reject} (ha : aligned b.pc w.bytes = true)
    (hv : b.valid b.pc w.bytes = true) (hd : decode w (b.word b.pc) = .error x) :
    execOne b = (raiseCode (ErrCode.invalidOpcode.word w) (b.setPc (b.pc + w.step))).toOut := by
  unfold execOne
  rw [fetch_ok ha hv]
  simp only
  unfold dispatch
  rw [hd]
  exact perform_raise (raise_run _ _)

/-- An iteration that is a raise, as the caller sees it: the unwinding keeps the caller, so a direct-mode `STEP` ends after it
with `BREAK`, unless the raise has stopped the run. -/
theorem IterationRaises.of_execOne {b q : Block w} {c : Caller} {e : ErrCode} (hact : b.act = .run c)
    (hq : q.act = .run c) (h : execOne b = (raiseCode (e.word w) q).toOut) : IterationRaises b c e q := by
  refine ⟨fun hc => (step_eq_execOne hact hc).trans h, ?_, ?_⟩
  · rintro rfl h0
    exact step_direct_stop hact hq (h.trans (raiseCode_stop h0 _))
  · rintro rfl h0
    rw [raiseCode_handler h0] at h
    have hkept : ∀ v r, unwind (e.word w) q = .next (v, r) → r.act = .run .direct :=
      fun _ _ hu => (unwind_within KeepsAct.admits hu).trans hq
    refine ⟨fun r hu => ?_, fun d r hu => ?_, fun x hu => ?_⟩
    · exact step_direct_continue hact (hkept _ _ hu) (by rw [h, hu]; rfl)
    · exact step_direct_stop hact (hkept _ _ hu) (by rw [h, hu]; rfl)
    · exact step_of_execOne_refused hact (by rw [h, hu]; rfl)

/-- Settles O46: the misaligned fetch raises before `pc` moves, the `INVALID` word after. -/
theorem fetchAndDecodeFaults : Obligations.FetchAndDecodeFaults := by
  unfold Obligations.FetchAndDecodeFaults
  intro w b c hact
  refine ⟨fun hpc => ?_, fun hpc hv htag hop => ?_⟩
  · have ha : aligned b.pc w.bytes = false := Bool.eq_false_iff.2 fun ha => hpc ((aligned_iff _ _).1 ha)
    exact .of_execOne hact hact (execOne_misaligned ha)
  · exact .of_execOne hact hact (execOne_undecoded ((aligned_iff _ _).2 hpc) hv (decode_insn_invalid _ htag hop))

/-! ### The embedder's operations (rule R80) -/

@[simp] theorem Block.setIo_reg (b : Block w) (p : Ports w) (x : Reg) : (b.setIo p).reg x = b.reg x := by
  cases x <;> rfl

@[simp] theorem Block.setAct_reg (b : Block w) (a : Activity w) (x : Reg) : (b.setAct a).reg x = b.reg x := by
  cases x <;> rfl

@[simp] theorem Block.answer_reg (b : Block w) (r : HostResult w) (x : Reg) : (b.answer r).reg x = b.reg x :=
  b.setIo_reg _ x

theorem Block.setReg_reg (b : Block w) (x y : Reg) (v : Word w) :
    (b.setReg x v).reg y = if y = x then v else b.reg y := by
  cases x <;> cases y <;> rfl

/-- A register written by name: memory, the parameters, the hidden registers, the activity and the ports stay. -/
theorem Block.setReg_kept (b : Block w) (x : Reg) (v : Word w) :
    (b.setReg x v).mem = b.mem ∧ (b.setReg x v).cfg = b.cfg ∧ (b.setReg x v).sst = b.sst ∧
      (b.setReg x v).dbg = b.dbg ∧ (b.setReg x v).act = b.act ∧ (b.setReg x v).io = b.io := by
  cases x <;> exact ⟨rfl, rfl, rfl, rfl, rfl, rfl⟩

/-- An idle block takes the first pending operation off the queue (log 7) and performs it. -/
theorem step_hostCmd {b r : Block w} {k : HostCmd w} {cs : List (HostCmd w)} (hact : b.act = .idle)
    (hcmds : b.io.cmds = k :: cs) (h : hostCmd k (b.setIo { b.io with cmds := cs }) = .ok () r) :
    step ⟨w, b⟩ = .next ⟨w, r⟩ := by
  rw [step_idle hact, hostStep, hcmds]
  exact phase_ok h

/-- Settles O51: the operation comes off the queue; what it then does to the block, it does to that field alone. -/
theorem hostRegisterAccess : Obligations.HostRegisterAccess := by
  unfold Obligations.HostRegisterAccess
  intro w b x v cs hact
  refine ⟨fun hcmds => ?_, fun hcmds => ?_, fun hcmds => ?_⟩
  · refine ⟨_, step_hostCmd hact hcmds rfl, ?_, fun y => by simp, rfl, hact, rfl, rfl, rfl⟩
    simp [Block.answer]
  · obtain ⟨hmem, hcfg, hsst, hdbg, hactKept, hio⟩ := (b.setIo { b.io with cmds := cs }).setReg_kept x v
    refine ⟨_, step_hostCmd hact hcmds rfl, hio, ?_, fun y hy => ?_, hmem, hactKept.trans hact, hcfg, hsst, hdbg⟩
    · rw [Block.setReg_reg, if_pos rfl]
    · rw [Block.setReg_reg, if_neg hy, Block.setIo_reg]
  · exact ⟨_, step_hostCmd hact hcmds rfl, rfl, fun y => by simp, rfl, rfl, rfl, rfl, rfl⟩

end Sys2Proof.Machine
end

section
/-! SUPPORT. The immediate forms and `CALL` (40_immediate.md, rule R132): one equation of `exec` per instruction, the call frame
that `CALLI` and `CALL` share, and what each leaves unchanged. -/

namespace Sys2Proof.Machine

variable {w : WordSize}

/-! ### Frames, one more register at a time -/

theorem Block.setPc_kept (b : Block w) (v : Word w) : KeptBut [.pc] b (b.setPc v) :=
  ⟨fun x hx => b.setPc_reg v x (List.ne_of_not_mem_cons hx), rfl, rfl, rfl, rfl, rfl⟩

theorem Block.setDp_kept (b : Block w) (v : Word w) : KeptBut [.dp] b (b.setDp v) := (KeptBut.refl b).setDp v

/-- A further change of the one register `x` adds `x` to what has changed. -/
theorem KeptBut.cons {x : Reg} {regs : List Reg} {b r q : Block w} (hq : KeptBut [x] r q) (hr : KeptBut regs b r) :
    KeptBut (x :: regs) b q := by
  obtain ⟨hqreg, hqcfg, hqsst, hqdbg, hqact, hqio⟩ := hq
  obtain ⟨hrreg, hrcfg, hrsst, hrdbg, hract, hrio⟩ := hr
  refine ⟨fun y hy => ?_, hqcfg.trans hrcfg, hqsst.trans hrsst, hqdbg.trans hrdbg, hqact.trans hract, hqio.trans hrio⟩
  have hyx : y ∉ [x] := fun h => hy (List.mem_cons.2 (.inl (List.mem_singleton.1 h)))
  exact (hqreg y hyx).trans (hrreg y (List.not_mem_of_not_mem_cons hy))

/-! ### What each instruction runs -/

theorem exec_pushi (n : Int) (b : Block w) :
    exec (.pushi n) ⟨w, b⟩ = perform ⟨w, b⟩ (pushD (BitVec.ofInt w.xlen n)) := rfl

/-- The operand of `PUSHRELI` counts from the following word (rule R65). -/
theorem exec_pushreli (n : Int) (b : Block w) :
    exec (.pushreli n) ⟨w, b⟩ = perform ⟨w, b⟩ (pushD (BitVec.ofInt w.xlen (b.pc.toNat + w.bytes * n))) := by
  rw [← relTarget_eq]
  rfl

theorem exec_jumpi (n : Int) (b : Block w) :
    exec (.jumpi n) ⟨w, b⟩ = .next ⟨w, b.setPc (relTarget b.pc n)⟩ := rfl

theorem exec_jumpzi (n : Int) (b : Block w) :
    exec (.jumpzi n) ⟨w, b⟩ = perform ⟨w, b⟩ (popD >>= fun flag => get >>= fun r =>
      update fun q => if flag = 0 then q.setPc (relTarget r.pc n) else q) := rfl

/-- The tail of both calls: `PushS(pc)`, then the jump to a target that may depend on `pc`. -/
def enterCall (target : Word w → Word w) : Op w Unit := do
  let pc := (← get).pc
  pushS pc
  update fun b => b.setPc (target pc)

theorem exec_calli (n : Int) (b : Block w) :
    exec (.calli n) ⟨w, b⟩ = perform ⟨w, b⟩ (enterCall fun pc => relTarget pc n) := rfl

theorem exec_call (b : Block w) :
    exec .call ⟨w, b⟩ = perform ⟨w, b⟩ (popD >>= fun a => checkAligned a w.bytes >>= fun _ => enterCall fun _ => a) := rfl

/-! ### An instruction that is one push -/

theorem Pushes.of_pushD {i : Instr} {b : Block w} {v : Word w} (h : exec i ⟨w, b⟩ = perform ⟨w, b⟩ (pushD v))
    (hm : b.mem.wf = true) (hroom : b.dRoom) : Pushes i b v :=
  Pushes.of_exec hm (h.trans (perform_ok (pushD_ok hroom v)))

theorem RaisesAt.of_pushD_full {i : Instr} {b : Block w} {v : Word w} (h : exec i ⟨w, b⟩ = perform ⟨w, b⟩ (pushD v))
    (hfull : b.dsize.toNat ≤ b.dp.toNat) : RaisesAt i b .stackOverflow b :=
  h.trans (perform_raise (pushD_full hfull v))

/-! ### The conditional jump -/

/-- `JUMPZI` with a flag to pop: the flag is consumed, and decides whether `pc` moves (rule R94). -/
theorem exec_jumpzi_next {b : Block w} (h : b.dHas 1) (n : Int) :
    exec (.jumpzi n) ⟨w, b⟩ = .next ⟨w,
      if b.dItem 0 = 0 then (b.setDp (b.dp - 1)).setPc (relTarget b.pc n) else b.setDp (b.dp - 1)⟩ := by
  rw [exec_jumpzi]
  exact perform_ok (Op.bind_ok (popD_ok h))

/-! ### The call frame (rule R15): the return address on the return stack -/

/-- The block once the return address is pushed and the target taken. -/
def Block.called (b : Block w) (t : Word w) : Block w := ((b.storeWord b.sFree b.pc).setSp (b.sp + 1)).setPc t

@[simp] theorem Block.called_pc (b : Block w) (t : Word w) : (b.called t).pc = t := rfl

@[simp] theorem Block.called_dp (b : Block w) (t : Word w) : (b.called t).dp = b.dp := rfl

@[simp] theorem Block.called_sp (b : Block w) (t : Word w) : (b.called t).sp = b.sp + 1 := rfl

/-- The top of the return stack is the address to return to. -/
theorem Block.called_sItem (b : Block w) (hm : b.mem.wf = true) (t : Word w) : (b.called t).sItem 0 = b.pc := by
  have hslot : (b.called t).sAddr 0 = b.sFree := (b.storeWord b.sFree b.pc).sAddr_pushed
  rw [Block.sItem, hslot]
  exact b.word_storeWord hm _ _

theorem Block.called_kept (b : Block w) (t : Word w) : KeptBut [.pc, .sp] b (b.called t) :=
  (Block.setPc_kept _ t).cons ((b.storeWord_kept _ _).setSp _)

theorem Block.called_frame (b : Block w) (t : Word w) : MemKeptBut b.sFree w.bytes b (b.called t) :=
  b.storeWord_frame _ _

/-- A call after a pop of the data stack changes the depth of that stack besides. -/
theorem Block.called_popped_kept (b : Block w) (v t : Word w) : KeptBut [.pc, .dp, .sp] b ((b.setDp v).called t) :=
  (Block.setPc_kept _ t).cons ((Block.setDp_kept _ v).cons ((b.storeWord_kept _ _).setSp _))

theorem enterCall_ok {b : Block w} (h : b.sRoom 1) (target : Word w → Word w) :
    enterCall target b = .ok () (b.called (target b.pc)) := by
  unfold enterCall
  rw [Op.bind_ok (Op.get_run b), Op.bind_ok (pushS_ok h _)]
  rfl

/-- A full return stack: nothing is pushed and `pc` stays at the following word. -/
theorem enterCall_full {b : Block w} (h : b.ssize.toNat ≤ b.sp.toNat) (target : Word w → Word w) :
    enterCall target b = .error (.raise (ErrCode.stackOverflow.word w)) b := by
  unfold enterCall
  rw [Op.bind_ok (Op.get_run b), Op.bind_error (pushS_full h _)]

/-- `CALL` with a target to pop: what remains is the check and the call, on the block without the target. -/
theorem exec_call_popped {b : Block w} (h : b.dHas 1) :
    exec .call ⟨w, b⟩ = perform ⟨w, b.setDp (b.dp - 1)⟩
      (checkAligned (b.dItem 0) w.bytes >>= fun _ => enterCall fun _ => b.dItem 0) := by
  rw [exec_call, perform, Op.bind_ok (popD_ok h)]
  rfl

/-- `CALL` with an aligned target to pop: what remains is the call. -/
theorem exec_call_checked {b : Block w} (h : b.dHas 1) (ha : aligned (b.dItem 0) w.bytes = true) :
    exec .call ⟨w, b⟩ = perform ⟨w, b.setDp (b.dp - 1)⟩ (enterCall fun _ => b.dItem 0) := by
  rw [exec_call_popped h, perform, Op.bind_ok (checkAligned_ok ha _)]
  rfl

/-! ### The statements of 40_immediate.md -/

/-- Settles O14: both instructions are one push, of the literal and of the relative address. -/
theorem immediatePushes : Obligations.ImmediatePushes := by
  unfold Obligations.ImmediatePushes
  intro w b n hm
  refine ⟨fun hge hlt => ?_, fun hroom => ⟨?_, ?_⟩, fun hfull => ⟨?_, ?_⟩⟩
  · obtain ⟨htwo, -⟩ := encodeThenDecode w
    obtain ⟨-, -, -, -, dpushi, dpushreli⟩ := htwo n hge hlt
    exact ⟨dpushi, dpushreli⟩
  · exact .of_pushD (exec_pushi n b) hm hroom
  · exact .of_pushD (exec_pushreli n b) hm hroom
  · exact .of_pushD_full (exec_pushi n b) hfull
  · exact .of_pushD_full (exec_pushreli n b) hfull

/-- Settles O15: `JUMPI` writes `pc` alone; `JUMPZI` pops, and writes `pc` when the popped flag is 0. -/
theorem immediateJumps : Obligations.ImmediateJumps := by
  unfold Obligations.ImmediateJumps
  intro w b n
  refine ⟨fun hge hlt => ?_, ?_, fun hitem hzero => ?_, fun hitem hnonzero => ?_, .of_pop (exec_jumpzi n b)⟩
  · obtain ⟨-, hfour, -⟩ := encodeThenDecode w
    obtain ⟨-, -, -, djumpi, djumpzi, -⟩ := hfour n hge hlt
    exact ⟨djumpi, djumpzi⟩
  · exact ⟨_, exec_jumpi n b, relTarget_eq b.pc n, b.setPc_kept _, fun _ => rfl⟩
  · have hexec := exec_jumpzi_next hitem n
    rw [if_pos hzero] at hexec
    exact ⟨_, hexec, relTarget_eq b.pc n, rfl, (Block.setPc_kept _ _).cons (b.setDp_kept _), fun _ => rfl⟩
  · have hexec := exec_jumpzi_next hitem n
    rw [if_neg hnonzero] at hexec
    exact ⟨_, hexec, rfl, b.setDp_kept _, fun _ => rfl⟩

/-- Settles O16: `CALLI` enters the call at once, `CALL` after its pop and its check; each fault is met on the block that the
steps before it have left (rule R236). -/
theorem callsPushReturnAddress : Obligations.CallsPushReturnAddress := by
  unfold Obligations.CallsPushReturnAddress
  intro w b n hm
  refine ⟨fun hge hlt => ?_, decode_insnWord (n := 0x0E) rfl, fun hroom => ?_, fun hfull => ?_,
    fun hitem halign hroom => ?_, fun hitem halign => ?_, fun hitem halign hfull => ?_, .of_pop (exec_call b)⟩
  · obtain ⟨htwo, -⟩ := encodeThenDecode w
    obtain ⟨-, -, -, dcalli, -, -⟩ := htwo n hge hlt
    exact dcalli
  · exact ⟨_, (exec_calli n b).trans (perform_ok (enterCall_ok hroom _)), relTarget_eq b.pc n, b.called_sp _,
      b.called_sItem hm _, b.called_kept _, b.called_frame _⟩
  · exact (exec_calli n b).trans (perform_raise (enterCall_full hfull _))
  · have ha : aligned (b.dItem 0) w.bytes = true := (aligned_iff _ _).2 halign
    have hcall := enterCall_ok (b := b.setDp (b.dp - 1)) hroom fun _ => b.dItem 0
    exact ⟨_, (exec_call_checked hitem ha).trans (perform_ok hcall), Block.called_pc _ _, Block.called_dp _ _,
      Block.called_sp _ _, (b.setDp (b.dp - 1)).called_sItem hm (b.dItem 0),
      b.called_popped_kept (b.dp - 1) (b.dItem 0), (b.setDp (b.dp - 1)).called_frame (b.dItem 0)⟩
  · have ha : aligned (b.dItem 0) w.bytes = false := Bool.eq_false_iff.2 fun ha => halign ((aligned_iff _ _).1 ha)
    exact (exec_call_popped hitem).trans (perform_raise (Op.bind_error (checkAligned_raise ha _)))
  · have ha : aligned (b.dItem 0) w.bytes = true := (aligned_iff _ _).2 halign
    exact (exec_call_checked hitem ha).trans (perform_raise (enterCall_full (b := b.setDp (b.dp - 1)) hfull _))

end Sys2Proof.Machine
end

section
/-! SUPPORT. The arithmetic, bitwise, shift and comparison instructions (41_arith_logic.md): one equation of `exec` per
instruction, what the three shapes (one operand, two operands, division) leave, and the arithmetic of their results. -/

namespace Sys2Proof.Machine

variable {w : WordSize}

/-! ### What each instruction runs -/

theorem exec_nop (b : Block w) : exec .nop ⟨w, b⟩ = .next ⟨w, b⟩ := rfl

theorem exec_not (b : Block w) : exec .not ⟨w, b⟩ = perform ⟨w, b⟩ (unary fun a => ~~~a) := rfl

theorem exec_and (b : Block w) : exec .and ⟨w, b⟩ = perform ⟨w, b⟩ (binary fun y a => y &&& a) := rfl

theorem exec_or (b : Block w) : exec .or ⟨w, b⟩ = perform ⟨w, b⟩ (binary fun y a => y ||| a) := rfl

theorem exec_xor (b : Block w) : exec .xor ⟨w, b⟩ = perform ⟨w, b⟩ (binary fun y a => y ^^^ a) := rfl

theorem exec_lshift (b : Block w) : exec .lshift ⟨w, b⟩ = perform ⟨w, b⟩ (binary shiftLeft) := rfl

theorem exec_rshift (b : Block w) : exec .rshift ⟨w, b⟩ = perform ⟨w, b⟩ (binary shiftRight) := rfl

theorem exec_arshift (b : Block w) :
    exec .arshift ⟨w, b⟩ = perform ⟨w, b⟩ (binary (shiftArith b.cfg.overshift)) := rfl

theorem exec_negate (b : Block w) : exec .negate ⟨w, b⟩ = perform ⟨w, b⟩ (unary fun a => 0 - a) := rfl

theorem exec_add (b : Block w) : exec .add ⟨w, b⟩ = perform ⟨w, b⟩ (binary fun y a => y + a) := rfl

theorem exec_mul (b : Block w) : exec .mul ⟨w, b⟩ = perform ⟨w, b⟩ (binary fun y a => y * a) := rfl

theorem exec_divmod (b : Block w) : exec .divmod ⟨w, b⟩ = perform ⟨w, b⟩ (division divS) := rfl

theorem exec_udivmod (b : Block w) : exec .udivmod ⟨w, b⟩ = perform ⟨w, b⟩ (division divU) := rfl

theorem exec_eq (b : Block w) : exec .eq ⟨w, b⟩ = perform ⟨w, b⟩ (binary isEq) := rfl

theorem exec_lt (b : Block w) : exec .lt ⟨w, b⟩ = perform ⟨w, b⟩ (binary isLt) := rfl

theorem exec_ult (b : Block w) : exec .ult ⟨w, b⟩ = perform ⟨w, b⟩ (binary isUlt) := rfl

/-! ### The three shapes -/

section Shapes
variable {i : Instr} {b : Block w}

theorem ReplacesTop.of_unary {f : Word w → Word w} (h : exec i ⟨w, b⟩ = perform ⟨w, b⟩ (unary f))
    (hm : b.mem.wf = true) (hitem : b.dHas 1) : ReplacesTop i b (f (b.dItem 0)) :=
  .of_exec hm (h.trans (perform_ok (unary_ok hitem f)))

theorem PopsOne.of_unary {f : Word w → Word w} (h : exec i ⟨w, b⟩ = perform ⟨w, b⟩ (unary f)) : PopsOne i b :=
  .of_pop h

theorem ReplacesTwo.of_binary {f : Word w → Word w → Word w} (h : exec i ⟨w, b⟩ = perform ⟨w, b⟩ (binary f))
    (hm : b.mem.wf = true) (hitems : b.dHas 2) : ReplacesTwo i b (f (b.dItem 1) (b.dItem 0)) :=
  .of_exec hm (h.trans (perform_ok (binary_ok hitems f)))

theorem PopsTwo.of_binary {f : Word w → Word w → Word w} (h : exec i ⟨w, b⟩ = perform ⟨w, b⟩ (binary f)) :
    PopsTwo i b :=
  .of_pops h

theorem PopsTwo.of_division {f : Word w → Word w → Word w × Word w}
    (h : exec i ⟨w, b⟩ = perform ⟨w, b⟩ (division f)) : PopsTwo i b :=
  .of_pops h

end Shapes

/-! ### The two words a division leaves (rule R111) -/

/-- The block once the dividend's slot holds the quotient and the divisor's the remainder. -/
def Block.divided (b : Block w) (q r : Word w) : Block w := (b.storeWord (b.dAddr 1) q).storeWord (b.dAddr 0) r

theorem exec_division {i : Instr} {b : Block w} {f : Word w → Word w → Word w × Word w}
    (h : exec i ⟨w, b⟩ = perform ⟨w, b⟩ (division f)) (hitems : b.dHas 2) :
    exec i ⟨w, b⟩ = .next ⟨w, b.divided (f (b.dItem 1) (b.dItem 0)).1 (f (b.dItem 1) (b.dItem 0)).2⟩ :=
  h.trans (perform_ok (division_ok hitems f))

theorem Block.divided_dItem_zero {b : Block w} (hm : b.mem.wf = true) (q r : Word w) : (b.divided q r).dItem 0 = r :=
  Block.word_storeWord _ (b.storeWord_wf hm _ _) _ _

/-- The quotient is still beneath when the remainder has been pushed: the two slots are different words. -/
theorem Block.divided_dItem_one {b : Block w} (hm : b.mem.wf = true) (q r : Word w) : (b.divided q r).dItem 1 = q :=
  calc (b.divided q r).dItem 1
      = (b.storeWord (b.dAddr 1) q).word (b.dAddr 1) :=
        Block.word_storeWord_other _ _ (b.dSlot_sub _ _) b.dAddr_one_ne.symm
    _ = q := b.word_storeWord hm _ _

theorem Block.divided_kept (b : Block w) (q r : Word w) : KeptBut [] b (b.divided q r) :=
  ⟨fun x _ => ((b.storeWord _ q).storeWord_reg _ r x).trans (b.storeWord_reg _ q x), rfl, rfl, rfl, rfl, rfl⟩

/-- The two slots are neighbours, so what is stored is one run of two words from the lower one up. -/
theorem Block.divided_frame (b : Block w) (q r : Word w) :
    MemKeptBut (b.dAddr 1) (2 * w.bytes) b (b.divided q r) := by
  have htop : b.dAddr 0 = b.dAddr 1 + w.step := by
    rw [Block.dAddr, Block.dAddr, ← Block.dSlot_succ, sub_two_add_one]
  rw [Block.divided, htop]
  exact b.storeWord_two_frame _ q r

/-! ### Division in bit vectors: truncation toward zero, with the corner cases of R111 and R112 -/

/-- The word of all ones, as `-1` and as the integer of rule R107. -/
theorem ofInt_neg_one (w : WordSize) : BitVec.ofInt w.xlen (-1) = -1 := by
  rw [BitVec.ofInt_neg]
  rfl

theorem eq_neg_one_of_toInt {d : Word w} (h : d.toInt = -1) : d = -1#w.xlen := by
  rw [← BitVec.ofInt_toInt (x := d), h]
  exact ofInt_neg_one w

theorem ofInt_tdiv_eq_sdiv (n d : Word w) : BitVec.ofInt w.xlen (n.toInt.tdiv d.toInt) = n.sdiv d := by
  apply BitVec.eq_of_toInt_eq
  rw [BitVec.toInt_ofInt, BitVec.toInt_sdiv]

theorem ofInt_tmod_eq_srem (n d : Word w) : BitVec.ofInt w.xlen (n.toInt.tmod d.toInt) = n.srem d := by
  rw [← BitVec.toInt_srem, BitVec.ofInt_toInt]

/-- Both corner cases of `DIVMOD` are what the truncating division of bit vectors answers anyway. -/
theorem divS_eq (n d : Word w) : divS n d = (n.sdiv d, n.srem d) := by
  by_cases hzero : d = 0
  · subst hzero
    rw [divS_zero]
    exact Prod.ext BitVec.sdiv_zero.symm BitVec.srem_zero.symm
  by_cases hover : n = BitVec.intMin w.xlen ∧ d.toInt = -1
  · obtain ⟨hn, hd⟩ := hover
    have hquot : n.sdiv d = BitVec.intMin w.xlen := by
      rw [hn, eq_neg_one_of_toInt hd, BitVec.intMin_sdiv_neg_one]
    have hrem : n.srem d = 0 := by
      rw [← ofInt_tmod_eq_srem, hd, Int.tmod_neg, Int.tmod_one]
      rfl
    rw [divS_overflow hzero hn hd, hquot, hrem]
  · have hrem : n.toInt - n.toInt.tdiv d.toInt * d.toInt = n.toInt.tmod d.toInt := by
      rw [Int.tmod_def, mul_comm]
    rw [divS_trunc hzero hover, hrem, ofInt_tdiv_eq_sdiv, ofInt_tmod_eq_srem]

/-- The quotient of `DIVMOD` outside its overflow is the truncated quotient of the signed readings. -/
theorem divS_quotient_toInt {n d : Word w} (h : ¬(n = BitVec.intMin w.xlen ∧ d.toInt = -1)) :
    (divS n d).1.toInt = n.toInt.tdiv d.toInt := by
  rw [divS_eq]
  apply BitVec.toInt_sdiv_of_ne_or_ne
  by_contra hboth
  push Not at hboth
  obtain ⟨hn, hd⟩ := hboth
  refine h ⟨hn, ?_⟩
  rw [hd]
  cases w <;> decide

theorem divS_remainder_toInt (n d : Word w) : (divS n d).2.toInt = n.toInt.tmod d.toInt := by
  rw [divS_eq, BitVec.toInt_srem]

/-- `n = q * d + r` modulo 2^XLEN, in every case of rule R111. -/
theorem divS_mul_add (n d : Word w) : n = (divS n d).1 * d + (divS n d).2 := by
  rw [divS_eq]
  calc n = BitVec.ofInt w.xlen (n.toInt.tdiv d.toInt * d.toInt + n.toInt.tmod d.toInt) := by
        rw [Int.tdiv_mul_add_tmod, BitVec.ofInt_toInt]
    _ = n.sdiv d * d + n.srem d := by
        rw [BitVec.ofInt_add, BitVec.ofInt_mul, BitVec.ofInt_toInt, ofInt_tdiv_eq_sdiv, ofInt_tmod_eq_srem]

/-- `|r| < |d|` when `d` is not 0. -/
theorem divS_remainder_lt (n : Word w) {d : Word w} (h : d ≠ 0) :
    (divS n d).2.toInt.natAbs < d.toInt.natAbs := by
  have hd : d.toInt ≠ 0 := fun h0 => h (BitVec.eq_of_toInt_eq (h0.trans BitVec.toInt_zero.symm))
  rw [divS_remainder_toInt, Int.natAbs_tmod]
  exact Nat.mod_lt _ (Int.natAbs_pos.2 hd)

theorem divU_toNat {n d : Word w} (h : d ≠ 0) :
    (divU n d).1.toNat = n.toNat / d.toNat ∧ (divU n d).2.toNat = n.toNat % d.toNat := by
  have hquot : n.toNat / d.toNat < 2 ^ w.xlen := lt_of_le_of_lt (Nat.div_le_self _ _) n.isLt
  have hrem : n.toNat % d.toNat < 2 ^ w.xlen := lt_of_le_of_lt (Nat.mod_le _ _) n.isLt
  rw [divU_pos h]
  simp only [BitVec.toNat_ofNat, Nat.mod_eq_of_lt hquot, Nat.mod_eq_of_lt hrem, and_self]

/-! ### Truth words (rules R113 to R116) -/

theorem isEq_eq (b a : Word w) : isEq b a = if b = a then 1 else 0 := by
  simp only [isEq, boolWord, beq_iff_eq]

theorem isLt_eq (b a : Word w) : isLt b a = if b.toInt < a.toInt then 1 else 0 := by
  simp only [isLt, boolWord, decide_eq_true_eq]

theorem isUlt_eq (b a : Word w) : isUlt b a = if b.toNat < a.toNat then 1 else 0 := by
  simp only [isUlt, boolWord, decide_eq_true_eq]

/-! ### Sums and products of signed readings, modulo 2^XLEN -/

theorem zero_sub_eq_ofInt (a : Word w) : 0 - a = BitVec.ofInt w.xlen (-a.toInt) := by
  rw [BitVec.ofInt_neg, BitVec.ofInt_toInt, zero_sub]

theorem add_eq_ofInt (b a : Word w) : b + a = BitVec.ofInt w.xlen (b.toInt + a.toInt) := by
  rw [BitVec.ofInt_add, BitVec.ofInt_toInt, BitVec.ofInt_toInt]

theorem mul_eq_ofInt (b a : Word w) : b * a = BitVec.ofInt w.xlen (b.toInt * a.toInt) := by
  rw [BitVec.ofInt_mul, BitVec.ofInt_toInt, BitVec.ofInt_toInt]

/-! ### The statements of 41_arith_logic.md -/

/-- Settles O17: the pseudocode of `NOP` is empty. -/
theorem nopChangesNothing : Obligations.NopChangesNothing := by
  unfold Obligations.NopChangesNothing
  exact fun w b => ⟨decode_insnWord (n := 0x00) rfl, exec_nop b⟩

/-- Settles O18: the shapes of one and of two operands, and the bits of the four bitwise operations. -/
theorem bitwiseResults : Obligations.BitwiseResults := by
  unfold Obligations.BitwiseResults
  intro w b hm
  refine ⟨decode_insnWord (n := 0x01) rfl, decode_insnWord (n := 0x02) rfl, decode_insnWord (n := 0x03) rfl,
    decode_insnWord (n := 0x04) rfl, fun hitem => ⟨_, .of_unary (exec_not b) hm hitem, fun k hk => ?_⟩,
    fun hitems => ⟨_, .of_binary (exec_and b) hm hitems, fun k => BitVec.getLsbD_and⟩,
    fun hitems => ⟨_, .of_binary (exec_or b) hm hitems, fun k => BitVec.getLsbD_or⟩,
    fun hitems => ⟨_, .of_binary (exec_xor b) hm hitems, fun k => BitVec.getLsbD_xor⟩,
    .of_unary (exec_not b), .of_binary (exec_and b), .of_binary (exec_or b), .of_binary (exec_xor b)⟩
  rw [BitVec.getLsbD_not, decide_eq_true hk, Bool.true_and]

/-- Settles O19: an amount below XLEN shifts by it; an amount of XLEN or more leaves what its rule says, unmasked. -/
theorem shiftResults : Obligations.ShiftResults := by
  unfold Obligations.ShiftResults
  intro w b hm
  refine ⟨decode_insnWord (n := 0x05) rfl, decode_insnWord (n := 0x06) rfl, decode_insnWord (n := 0x07) rfl,
    fun hitems hlt => ?_, fun hitems hge => ?_,
    .of_binary (exec_lshift b), .of_binary (exec_rshift b), .of_binary (exec_arshift b)⟩
  all_goals
    have hleft := ReplacesTwo.of_binary (exec_lshift b) hm hitems
    have hright := ReplacesTwo.of_binary (exec_rshift b) hm hitems
    have harith := ReplacesTwo.of_binary (exec_arshift b) hm hitems
  · rw [shiftLeft_lt hlt] at hleft
    rw [shiftRight_lt hlt] at hright
    rw [shiftArith_lt _ hlt] at harith
    exact ⟨hleft, hright, harith⟩
  · rw [shiftLeft_ge hge] at hleft
    rw [shiftRight_ge hge] at hright
    refine ⟨hleft, hright, fun hfill hneg => ?_, fun hfill hnonneg => ?_, fun hzero => ?_⟩
    · rwa [hfill, shiftArith_signfill hge, if_pos hneg, ← ofInt_neg_one] at harith
    · rwa [hfill, shiftArith_signfill hge, if_neg (not_lt.2 hnonneg)] at harith
    · rwa [hzero, shiftArith_zero hge] at harith

/-- Settles O20: words add and multiply as their signed readings do modulo 2^XLEN. -/
theorem arithmeticResults : Obligations.ArithmeticResults := by
  unfold Obligations.ArithmeticResults
  intro w b hm
  refine ⟨decode_insnWord (n := 0x18) rfl, decode_insnWord (n := 0x19) rfl, decode_insnWord (n := 0x1A) rfl,
    fun hitem => ?_, fun hitems => ⟨?_, ?_⟩,
    .of_unary (exec_negate b), .of_binary (exec_add b), .of_binary (exec_mul b)⟩
  · rw [← zero_sub_eq_ofInt]
    exact .of_unary (exec_negate b) hm hitem
  · rw [← add_eq_ofInt]
    exact .of_binary (exec_add b) hm hitems
  · rw [← mul_eq_ofInt]
    exact .of_binary (exec_mul b) hm hitems

/-- Settles O21: the block `Block.divided` holds the two results, which `divS_eq` identifies as those of the truncating
division. -/
theorem divisionResults : Obligations.DivisionResults := by
  unfold Obligations.DivisionResults
  intro w b hm
  refine ⟨decode_insnWord (n := 0x1B) rfl, decode_insnWord (n := 0x1C) rfl, fun hitems =>
    ⟨⟨_, exec_division (exec_divmod b) hitems, b.divided_kept _ _, b.divided_frame _ _, ?_⟩,
      ⟨_, exec_division (exec_udivmod b) hitems, b.divided_kept _ _, b.divided_frame _ _, ?_⟩⟩,
    .of_division (exec_divmod b), .of_division (exec_udivmod b)⟩
  all_goals rw [Block.divided_dItem_one hm, Block.divided_dItem_zero hm]
  · refine ⟨fun hzero => ?_, fun hn hd => ?_, fun _ hover => ⟨divS_quotient_toInt hover, ?_⟩, divS_mul_add _ _,
      divS_remainder_lt _⟩
    · rw [hzero, divS_zero]
      exact ⟨rfl, rfl⟩
    · have hnonzero : b.dItem 0 ≠ 0 := fun h0 => by simp [h0] at hd
      rw [divS_overflow hnonzero hn hd]
      exact ⟨rfl, rfl⟩
    · rw [divS_remainder_toInt, Int.tmod_def, mul_comm]
  · refine ⟨fun hzero => ?_, divU_toNat⟩
    rw [hzero, divU_zero]
    exact ⟨rfl, rfl⟩

/-- Settles O22: each comparison leaves its truth word. -/
theorem comparisonResults : Obligations.ComparisonResults := by
  unfold Obligations.ComparisonResults
  intro w b hm
  refine ⟨decode_insnWord (n := 0x1D) rfl, decode_insnWord (n := 0x1E) rfl, decode_insnWord (n := 0x1F) rfl,
    fun hitems => ?_, .of_binary (exec_eq b), .of_binary (exec_lt b), .of_binary (exec_ult b)⟩
  have heq := ReplacesTwo.of_binary (exec_eq b) hm hitems
  have hlt := ReplacesTwo.of_binary (exec_lt b) hm hitems
  have hult := ReplacesTwo.of_binary (exec_ult b) hm hitems
  rw [isEq_eq] at heq
  rw [isLt_eq] at hlt
  rw [isUlt_eq] at hult
  exact ⟨fun h => by rwa [if_pos h] at heq, fun h => by rwa [if_neg h] at heq,
    fun h => by rwa [if_pos h] at hlt, fun h => by rwa [if_neg (not_lt.2 h)] at hlt,
    fun h => by rwa [if_pos h] at hult, fun h => by rwa [if_neg (not_lt.2 h)] at hult⟩

end Sys2Proof.Machine
end

section
/-! SUPPORT. The stack manipulation instructions (42_stack.md): one equation of `exec` per instruction, what follows its pops as
an operation of its own, with the two ways that can end, and two stores in one stack. -/

namespace Sys2Proof.Machine

variable {w : WordSize}

/-! ### What each instruction does after its pops -/

/-- `DUP` once the depth `k` is popped (rule R121). -/
def copyItem (k : Word w) : Op w Unit := do
  let dp := (← get).dp
  if dp.toNat ≤ k.toNat then raise .stackUnderflow
  else
    let v ← readD (dp - (k + 1))
    pushD v

/-- `SET` once the depth `k` and the value `v` are popped (rule R122). -/
def overwriteItem (k v : Word w) : Op w Unit := do
  let dp := (← get).dp
  if dp.toNat ≤ k.toNat then raise .stackUnderflow
  else writeD (dp - (k + 1)) v

/-- `SWAP` once the depth `k` is popped (rule R123). -/
def exchangeItem (k : Word w) : Op w Unit := do
  let dp := (← get).dp
  if dp.toNat = 0 ∨ dp.toNat - 1 ≤ k.toNat then raise .stackUnderflow
  else
    let i := dp - 1
    let j := dp - (k + 2)
    let t ← readD i
    let u ← readD j
    writeD i u
    writeD j t

/-- `DUPS`: the tests of `PopS`, then the top of the return stack read where it is (rule R126). -/
def copyReturnTop : Op w Unit := do
  let b ← get
  if b.sp.toNat = 0 then raise .stackUnderflow
  else if b.ssize.toNat < b.sp.toNat then raise .stackOverflow
  else
    let v ← readS (b.sp - 1)
    pushD v

theorem exec_pop (b : Block w) : exec .pop ⟨w, b⟩ = perform ⟨w, b⟩ (popD >>= fun _ => pure ()) := rfl

theorem exec_dup (b : Block w) : exec .dup ⟨w, b⟩ = perform ⟨w, b⟩ (popD >>= copyItem) := rfl

theorem exec_set (b : Block w) :
    exec .set ⟨w, b⟩ = perform ⟨w, b⟩ (popD >>= fun k => popD >>= fun v => overwriteItem k v) := rfl

theorem exec_swap (b : Block w) : exec .swap ⟨w, b⟩ = perform ⟨w, b⟩ (popD >>= exchangeItem) := rfl

theorem exec_pushs (b : Block w) : exec .pushs ⟨w, b⟩ = perform ⟨w, b⟩ (popD >>= pushS) := rfl

theorem exec_pops (b : Block w) : exec .pops ⟨w, b⟩ = perform ⟨w, b⟩ (popS >>= pushD) := rfl

theorem exec_dups (b : Block w) : exec .dups ⟨w, b⟩ = perform ⟨w, b⟩ copyReturnTop := rfl

/-! ### Items by a depth that is a word -/

/-- The index `dp - (k + n)` of the pseudocode as the index of an item counted from the top. -/
theorem sub_word_add (x k : Word w) (n : Nat) :
    x - (k + BitVec.ofNat w.xlen n) = x - BitVec.ofNat w.xlen (k.toNat + n) := by
  rw [BitVec.ofNat_add, BitVec.ofNat_toNat, BitVec.setWidth_eq]

/-- `D[dp - (k + 1)]` is the item `k` places below the top. -/
theorem Block.dSlot_depth (b : Block w) (k : Word w) : b.dSlot (b.dp - (k + 1)) = b.dAddr k.toNat :=
  congrArg b.dSlot (sub_word_add b.dp k 1)

/-- `D[dp - (k + 2)]` is the item `k + 1` places below the top. -/
theorem Block.dSlot_depth_succ (b : Block w) (k : Word w) : b.dSlot (b.dp - (k + 2)) = b.dAddr (k.toNat + 1) :=
  congrArg b.dSlot (sub_word_add b.dp k 2)

/-- Below two popped words lie the items that were beneath them. -/
theorem Block.dAddr_popped_two (b : Block w) (i : Nat) : (b.setDp (b.dp - 2)).dAddr i = b.dAddr (i + 2) := by
  rw [← sub_one_sub_one]
  exact ((b.setDp (b.dp - 1)).dAddr_popped i).trans (b.dAddr_popped (i + 1))

theorem Block.dItem_popped (b : Block w) (i : Nat) : (b.setDp (b.dp - 1)).dItem i = b.dItem (i + 1) := by
  rw [Block.dItem, Block.dAddr_popped, Block.setDp_word]

theorem toNat_sub_two {v : Word w} (h : 2 ≤ v.toNat) : (v - 2).toNat = v.toNat - 2 := by
  have hone := toNat_sub_one (v := v) (by omega)
  rw [← sub_one_sub_one, toNat_sub_one (by omega), hone, Nat.sub_sub]

/-! ### Reads and writes in place (rule R36) -/

theorem readD_ok {b : Block w} {i : Word w} (h : b.valid (b.dSlot i) w.bytes = true) :
    readD i b = .ok (b.word (b.dSlot i)) b := readWord_ok h

theorem writeD_ok {b : Block w} {i : Word w} (h : b.valid (b.dSlot i) w.bytes = true) (v : Word w) :
    writeD i v b = .ok () (b.storeWord (b.dSlot i) v) := writeWord_ok h

theorem readS_ok {b : Block w} {i : Word w} (h : b.valid (b.sSlot i) w.bytes = true) :
    readS i b = .ok (b.word (b.sSlot i)) b := readWord_ok h

/-! ### Two items exchanged -/

/-- The block once the items `i` and `j` places below the top of the data stack have changed places. -/
def Block.exchanged (b : Block w) (i j : Nat) : Block w :=
  (b.storeWord (b.dAddr i) (b.dItem j)).storeWord (b.dAddr j) (b.dItem i)

theorem Block.exchanged_dItem_right {b : Block w} (hm : b.mem.wf = true) (i j : Nat) :
    (b.exchanged i j).dItem j = b.dItem i :=
  Block.word_storeWord _ (b.storeWord_wf hm _ _) _ _

/-- Slots far enough apart coincide modulo 2^XLEN; then the two items are one word, and the exchange keeps it. -/
theorem Block.exchanged_dItem_left {b : Block w} (hm : b.mem.wf = true) (i j : Nat) :
    (b.exchanged i j).dItem i = b.dItem j := by
  have hread := (b.storeWord (b.dAddr i) (b.dItem j)).word_storeWord_slot (b.storeWord_wf hm _ _) (c := b.dAddr i)
    (b.dItem i) (b.dSlot_sub (b.dp - BitVec.ofNat w.xlen (j + 1)) _)
  refine hread.trans ?_
  split_ifs with hsame
  · exact congrArg b.word hsame.symm
  · exact b.word_storeWord hm _ _

theorem Block.exchanged_kept (b : Block w) (i j : Nat) : KeptBut [] b (b.exchanged i j) :=
  ⟨fun x _ => (Block.storeWord_reg _ _ _ x).trans (b.storeWord_reg _ _ x), rfl, rfl, rfl, rfl, rfl⟩

theorem Block.exchanged_frame (b : Block w) (i j c : Nat) (hi : ∀ n < w.bytes, c ≠ byteAddr (b.dAddr i) n)
    (hj : ∀ n < w.bytes, c ≠ byteAddr (b.dAddr j) n) : (b.exchanged i j).mem.get c = b.mem.get c :=
  (Block.storeWord_frame _ _ _ c hj).trans (b.storeWord_frame _ _ c hi)

/-! ### After the pops: the item is there, or it is not -/

section Depths
variable {b : Block w} {k : Word w}

theorem copyItem_ok (h : k.toNat < b.dp.toNat) (hv : b.valid (b.dAddr k.toNat) w.bytes = true) :
    copyItem k b = pushD (b.dItem k.toNat) b := by
  rw [← b.dSlot_depth] at hv
  unfold copyItem
  rw [Op.bind_ok (Op.get_run b), if_neg (not_le.2 h), Op.bind_ok (readD_ok hv), b.dSlot_depth]

theorem copyItem_shallow (h : b.dp.toNat ≤ k.toNat) :
    copyItem k b = .error (.raise (ErrCode.stackUnderflow.word w)) b := by
  unfold copyItem
  rw [Op.bind_ok (Op.get_run b), if_pos h, raise_run]

theorem overwriteItem_ok (h : k.toNat < b.dp.toNat) (hv : b.valid (b.dAddr k.toNat) w.bytes = true) (v : Word w) :
    overwriteItem k v b = .ok () (b.storeWord (b.dAddr k.toNat) v) := by
  rw [← b.dSlot_depth] at hv ⊢
  unfold overwriteItem
  rw [Op.bind_ok (Op.get_run b), if_neg (not_le.2 h), writeD_ok hv]

theorem overwriteItem_shallow (h : b.dp.toNat ≤ k.toNat) (v : Word w) :
    overwriteItem k v b = .error (.raise (ErrCode.stackUnderflow.word w)) b := by
  unfold overwriteItem
  rw [Op.bind_ok (Op.get_run b), if_pos h, raise_run]

theorem exchangeItem_ok (h : k.toNat + 1 < b.dp.toNat) (htop : b.valid (b.dAddr 0) w.bytes = true)
    (hdeep : b.valid (b.dAddr (k.toNat + 1)) w.bytes = true) :
    exchangeItem k b = .ok () (b.exchanged 0 (k.toNat + 1)) := by
  have hi : b.valid (b.dSlot (b.dp - 1)) w.bytes = true := htop
  rw [← b.dSlot_depth_succ] at hdeep
  rw [Block.exchanged, Block.dItem, ← b.dSlot_depth_succ]
  unfold exchangeItem
  rw [Op.bind_ok (Op.get_run b), if_neg (by omega), Op.bind_ok (readD_ok hi), Op.bind_ok (readD_ok hdeep),
    Op.bind_ok (writeD_ok hi _)]
  exact writeD_ok (b := b.storeWord (b.dAddr 0) _) hdeep _

theorem exchangeItem_shallow (h : b.dp.toNat ≤ k.toNat + 1) :
    exchangeItem k b = .error (.raise (ErrCode.stackUnderflow.word w)) b := by
  unfold exchangeItem
  rw [Op.bind_ok (Op.get_run b), if_pos (by omega), raise_run]

theorem copyReturnTop_ok (h : b.sHas 1) : copyReturnTop b = pushD (b.sItem 0) b := by
  obtain ⟨hsome, hcap, hvalid⟩ := h
  unfold copyReturnTop
  rw [Op.bind_ok (Op.get_run b), if_neg (by omega), if_neg (by omega)]
  exact Op.bind_ok (readS_ok (hvalid 0 Nat.zero_lt_one))

theorem copyReturnTop_empty (h : b.sp.toNat = 0) :
    copyReturnTop b = .error (.raise (ErrCode.stackUnderflow.word w)) b := by
  unfold copyReturnTop
  rw [Op.bind_ok (Op.get_run b), if_pos h, raise_run]

theorem copyReturnTop_over (h : b.ssize.toNat < b.sp.toNat) :
    copyReturnTop b = .error (.raise (ErrCode.stackOverflow.word w)) b := by
  unfold copyReturnTop
  rw [Op.bind_ok (Op.get_run b), if_neg (by omega), if_pos h, raise_run]

end Depths

/-! ### Instructions that begin with a pop -/

section Popped
variable {i : Instr} {b r : Block w} {n : Nat} {f : Word w → Op w Unit}

/-- The rest of an instruction completes on the block without the word it popped. -/
theorem exec_popped_next (h : exec i ⟨w, b⟩ = perform ⟨w, b⟩ (popD >>= f)) (hitem : b.dHas (n + 1))
    (hrest : f (b.dItem 0) (b.setDp (b.dp - 1)) = .ok () r) : exec i ⟨w, b⟩ = .next ⟨w, r⟩ :=
  h.trans (perform_ok ((Op.bind_ok (popD_ok hitem)).trans hrest))

/-- The rest of an instruction raises with the word it popped consumed (rule R236). -/
theorem RaisesAt.of_popped {e : ErrCode} (h : exec i ⟨w, b⟩ = perform ⟨w, b⟩ (popD >>= f)) (hitem : b.dHas (n + 1))
    (hrest : f (b.dItem 0) (b.setDp (b.dp - 1)) = .error (.raise (e.word w)) r) : RaisesAt i b e r :=
  h.trans (perform_raise ((Op.bind_ok (popD_ok hitem)).trans hrest))

end Popped

/-- What is kept after the depth has moved is kept but for the depth. -/
theorem KeptBut.of_setDp {b r : Block w} {v : Word w} (h : KeptBut [] (b.setDp v) r) : KeptBut [.dp] b r := by
  obtain ⟨hreg, hrest⟩ := h
  exact ⟨fun x hx => (hreg x List.not_mem_nil).trans (b.setDp_reg v x (List.ne_of_not_mem_cons hx)), hrest⟩

theorem Block.popped_depth {b : Block w} {n : Nat} (h : b.dHas (n + 1)) :
    (b.setDp (b.dp - 1)).dp.toNat = b.dp.toNat - 1 := by
  obtain ⟨hdepth, -⟩ := h
  exact toNat_sub_one (by omega)

theorem Block.popped_two_depth {b : Block w} (h : b.dHas 2) : (b.setDp (b.dp - 2)).dp.toNat = b.dp.toNat - 2 := by
  obtain ⟨hdepth, -⟩ := h
  exact toNat_sub_two hdepth

section Deep
variable {b : Block w}

/-- `DUP` with an item at the depth asked for: the copy lands in the slot of the depth operand. -/
theorem exec_dup_next (hitem : b.dHas 1) (hdeep : (b.dItem 0).toNat + 2 ≤ b.dp.toNat)
    (hvalid : b.valid (b.dAddr ((b.dItem 0).toNat + 1)) w.bytes = true) :
    exec .dup ⟨w, b⟩ = .next ⟨w, b.storeWord (b.dAddr 0) (b.dItem ((b.dItem 0).toNat + 1))⟩ := by
  have hdepth := Block.popped_depth hitem
  rw [← Block.dAddr_popped] at hvalid
  have hcopy := copyItem_ok (b := b.setDp (b.dp - 1)) (k := b.dItem 0) (by omega) hvalid
  rw [Block.dItem_popped, pushD_popped hitem] at hcopy
  exact exec_popped_next (exec_dup b) hitem hcopy

/-- `SET` with an item at the depth asked for. -/
theorem exec_set_next (hitems : b.dHas 2) (hdeep : (b.dItem 0).toNat + 3 ≤ b.dp.toNat)
    (hvalid : b.valid (b.dAddr ((b.dItem 0).toNat + 2)) w.bytes = true) :
    exec .set ⟨w, b⟩ =
      .next ⟨w, (b.storeWord (b.dAddr ((b.dItem 0).toNat + 2)) (b.dItem 1)).setDp (b.dp - 2)⟩ := by
  have hdepth := Block.popped_two_depth hitems
  rw [← Block.dAddr_popped_two] at hvalid ⊢
  have hset := overwriteItem_ok (b := b.setDp (b.dp - 2)) (k := b.dItem 0) (by omega) hvalid (b.dItem 1)
  exact (exec_set b).trans (perform_ok ((popTwo_ok hitems _).trans hset))

/-- `SWAP` with an item at the depth asked for. -/
theorem exec_swap_next (hitems : b.dHas 2) (hdeep : (b.dItem 0).toNat + 3 ≤ b.dp.toNat)
    (hvalid : b.valid (b.dAddr ((b.dItem 0).toNat + 2)) w.bytes = true) :
    exec .swap ⟨w, b⟩ = .next ⟨w, (b.setDp (b.dp - 1)).exchanged 0 ((b.dItem 0).toNat + 1)⟩ := by
  have hdepth := Block.popped_depth hitems
  obtain ⟨-, -, hbeneath⟩ := Block.dHas_popped hitems
  rw [← Block.dAddr_popped] at hvalid
  exact exec_popped_next (exec_swap b) hitems (exchangeItem_ok (by omega) (hbeneath 0 Nat.zero_lt_one) hvalid)

end Deep

/-! ### A word moved from one stack to the other -/

/-- `PUSHS` with a word to pop and a slot for it. -/
theorem exec_pushs_next {b : Block w} (hitem : b.dHas 1) (hroom : b.sRoom 1) :
    exec .pushs ⟨w, b⟩ = .next ⟨w, ((b.storeWord b.sFree (b.dItem 0)).setSp (b.sp + 1)).setDp (b.dp - 1)⟩ :=
  exec_popped_next (exec_pushs b) hitem (pushS_ok (b := b.setDp (b.dp - 1)) hroom _)

/-- `POPS` with a word to pop and a slot for it. -/
theorem exec_pops_next {b : Block w} (hitem : b.sHas 1) (hroom : b.dRoom) :
    exec .pops ⟨w, b⟩ = .next ⟨w, ((b.storeWord b.dFree (b.sItem 0)).setSp (b.sp - 1)).setDp (b.dp + 1)⟩ :=
  perform_ok ((Op.bind_ok (popS_ok hitem)).trans (pushD_ok (b := b.setSp (b.sp - 1)) hroom _))

/-- The top of the return stack after a push. -/
theorem Block.sItem_pushed (b : Block w) (hm : b.mem.wf = true) (v : Word w) :
    ((b.storeWord b.sFree v).setSp (b.sp + 1)).sItem 0 = v := by
  have hslot : ((b.storeWord b.sFree v).setSp (b.sp + 1)).sAddr 0 = b.sFree := Block.sAddr_pushed (b.storeWord b.sFree v)
  rw [Block.sItem, hslot, Block.setSp_word, b.word_storeWord hm]

/-- The top of the data stack after a push. -/
theorem Block.dItem_pushed (b : Block w) (hm : b.mem.wf = true) (v : Word w) :
    ((b.storeWord b.dFree v).setDp (b.dp + 1)).dItem 0 = v := by
  have hslot : ((b.storeWord b.dFree v).setDp (b.dp + 1)).dAddr 0 = b.dFree := Block.dAddr_pushed (b.storeWord b.dFree v)
  rw [Block.dItem, hslot, Block.setDp_word, b.word_storeWord hm]

/-- Both moves store one word and set both depths. -/
theorem Block.moved_kept (b : Block w) (a v s d : Word w) :
    KeptBut [.dp, .sp] b (((b.storeWord a v).setSp s).setDp d) :=
  (Block.setDp_kept _ d).cons ((b.storeWord_kept a v).setSp s)

/-! ### The statements of 42_stack.md -/

/-- Settles O23: with `k` popped the test on the depth is `k + 2 ≤ dp` of the full stack, and the copy lands in the slot of
`k`. -/
theorem popAndDup : Obligations.PopAndDup := by
  unfold Obligations.PopAndDup
  intro w b hm
  refine ⟨decode_insnWord (n := 0x08) rfl, decode_insnWord (n := 0x09) rfl, fun hitem => ?_, fun hitem hdeep hvalid => ?_,
    fun hitem hshallow => ?_, .of_pop (exec_pop b), .of_pop (exec_dup b)⟩
  · exact ⟨_, exec_popped_next (exec_pop b) hitem rfl, rfl, b.setDp_kept _, fun _ => rfl⟩
  · exact .of_exec hm (exec_dup_next hitem hdeep hvalid)
  · have hdepth := Block.popped_depth hitem
    exact .of_popped (exec_dup b) hitem (copyItem_shallow (by omega))

/-- Settles O24: `SET` after its two pops is one store, `SWAP` after its pop is `Block.exchanged`; their tests on the depth are
both `k + 3 ≤ dp` of the full stack. -/
theorem setAndSwap : Obligations.SetAndSwap := by
  unfold Obligations.SetAndSwap
  intro w b hm
  refine ⟨decode_insnWord (n := 0x0A) rfl, decode_insnWord (n := 0x0B) rfl, fun hitems hdeep hvalid => ?_,
    fun hitems hshallow => ?_, fun hitems hdeep hvalid => ?_, fun hitem hshallow => ?_,
    .of_pops (exec_set b), .of_pop (exec_swap b)⟩
  · refine ⟨_, exec_set_next hitems hdeep hvalid, rfl, ?_, (b.storeWord_kept _ _).setDp _, b.storeWord_frame _ _⟩
    rw [← Block.dAddr_popped_two]
    exact b.word_storeWord hm _ _
  · have hdepth := Block.popped_two_depth hitems
    have hraise := overwriteItem_shallow (b := b.setDp (b.dp - 2)) (k := b.dItem 0) (by omega) (b.dItem 1)
    exact (exec_set b).trans (perform_raise ((popTwo_ok hitems _).trans hraise))
  · refine ⟨_, exec_swap_next hitems hdeep hvalid, rfl, ?_, ?_, .of_setDp (Block.exchanged_kept _ _ _),
      fun c htop hdeep => Block.exchanged_frame _ _ _ c ?_ ?_⟩
    · rw [Block.exchanged_dItem_left (b := b.setDp (b.dp - 1)) hm, Block.dItem_popped]
    · rw [Block.exchanged_dItem_right (b := b.setDp (b.dp - 1)) hm, Block.dItem_popped]
    · rwa [Block.dAddr_popped]
    · rwa [Block.dAddr_popped]
  · have hdepth := Block.popped_depth hitem
    exact .of_popped (exec_swap b) hitem (exchangeItem_shallow (by omega))

/-- Settles O25: each move is a pop of one stack and a push on the other, so each fault of the push is met with the word popped
and lost; `DUPS` moves no depth before its push. -/
theorem returnStackMoves : Obligations.ReturnStackMoves := by
  unfold Obligations.ReturnStackMoves
  intro w b hm
  refine ⟨decode_insnWord (n := 0x20) rfl, decode_insnWord (n := 0x21) rfl, decode_insnWord (n := 0x22) rfl,
    fun hitem hroom => ?_, fun hitem hfull => ?_, .of_pop (exec_pushs b), fun hitem hroom => ?_, fun hitem hfull => ?_,
    fun hitem hroom => ?_, fun hitem hfull => ?_, fun hempty => ⟨?_, ?_⟩, fun hover => ⟨?_, ?_⟩⟩
  · exact ⟨_, exec_pushs_next hitem hroom, rfl, rfl, b.sItem_pushed hm _, b.moved_kept _ _ _ _, b.storeWord_frame _ _⟩
  · exact .of_popped (exec_pushs b) hitem (pushS_full (b := b.setDp (b.dp - 1)) hfull _)
  · exact ⟨_, exec_pops_next hitem hroom, rfl, rfl, b.dItem_pushed hm _, b.moved_kept _ _ _ _, b.storeWord_frame _ _⟩
  · exact (exec_pops b).trans (perform_raise ((Op.bind_ok (popS_ok hitem)).trans
      (pushD_full (b := b.setSp (b.sp - 1)) hfull _)))
  · exact .of_exec hm ((exec_dups b).trans (perform_ok ((copyReturnTop_ok hitem).trans (pushD_ok hroom _))))
  · exact (exec_dups b).trans (perform_raise ((copyReturnTop_ok hitem).trans (pushD_full hfull _)))
  · exact (exec_pops b).trans (perform_raise (Op.bind_error (popS_empty hempty)))
  · exact (exec_dups b).trans (perform_raise (copyReturnTop_empty hempty))
  · exact (exec_pops b).trans (perform_raise (Op.bind_error (popS_over hover)))
  · exact (exec_dups b).trans (perform_raise (copyReturnTop_over hover))

end Sys2Proof.Machine
end

section
/-! SUPPORT. Control transfer (43_control.md): what each instruction does after its pops as an operation of its own, the block
that each way of completing leaves, and the two sequences `CATCH`, `RET` and `CATCH`, `THROW` put together from these. -/

namespace Sys2Proof.Machine

variable {w : WordSize}

/-! ### What each instruction does after its pops -/

/-- A checked jump (rules R44, R130). -/
def jumpTo (a : Word w) : Op w Unit := do
  checkAligned a w.bytes
  update fun b => b.setPc a

/-- `RET` once the return address is popped (rule R133). -/
def returnTo (a : Word w) : Op w Unit := do
  checkAligned a w.bytes
  update fun b => b.setPc a
  let b ← get
  if b.sp.toNat < b.handlerSp.toNat then leaveRegion

/-- `CATCH` once the target is popped and checked (rule R134). -/
def enterRegion (a : Word w) : Op w Unit := do
  let b ← get
  if b.ssize.toNat < b.sp.toNat ∨ b.ssize.toNat - b.sp.toNat < 2 then raise .stackOverflow
  else
    pushS b.handlerSp
    pushS b.pc
    update fun b' => (b'.setHandlerSp b'.sp).setPc a

theorem exec_jump (b : Block w) : exec .jump ⟨w, b⟩ = perform ⟨w, b⟩ (popD >>= jumpTo) := rfl

theorem exec_jumpz (b : Block w) :
    exec .jumpz ⟨w, b⟩ = perform ⟨w, b⟩ (popD >>= fun a => popD >>= fun f => if f = 0 then jumpTo a else pure ()) := rfl

theorem exec_ret (b : Block w) : exec .ret ⟨w, b⟩ = perform ⟨w, b⟩ (popS >>= returnTo) := rfl

theorem exec_catch (b : Block w) :
    exec .catch_ ⟨w, b⟩ = perform ⟨w, b⟩ (popD >>= fun a => checkAligned a w.bytes >>= fun _ => enterRegion a) := rfl

theorem exec_throw (b : Block w) : exec .throw_ ⟨w, b⟩ = perform ⟨w, b⟩ (popCode >>= throwCode) := rfl

theorem exec_break (b : Block w) :
    exec .break_ ⟨w, b⟩ = .next ⟨w, (b.setPc (b.pc - w.step)).stopRun (ErrCode.break_.word w)⟩ := rfl

theorem aligned_eq_false {a : Word w} {n : Nat} (h : a.toNat % n ≠ 0) : aligned a n = false :=
  Bool.eq_false_iff.2 fun ha => h ((aligned_iff _ _).1 ha)

/-! ### Items to pop -/

theorem Block.dHas_le {b : Block w} {k n : Nat} (h : b.dHas n) (hk : k ≤ n) : b.dHas k := by
  obtain ⟨hdepth, hcap, hvalid⟩ := h
  exact ⟨hk.trans hdepth, hcap, fun i hi => hvalid i (hi.trans_le hk)⟩

theorem Block.sHas_le {b : Block w} {k n : Nat} (h : b.sHas n) (hk : k ≤ n) : b.sHas k := by
  obtain ⟨hdepth, hcap, hvalid⟩ := h
  exact ⟨hk.trans hdepth, hcap, fun i hi => hvalid i (hi.trans_le hk)⟩

theorem Block.sPopped_depth {b : Block w} {n : Nat} (h : b.sHas (n + 1)) :
    (b.setSp (b.sp - 1)).sp.toNat = b.sp.toNat - 1 := by
  obtain ⟨hdepth, -⟩ := h
  exact toNat_sub_one (by omega)

theorem Block.sItem_popped (b : Block w) (i : Nat) : (b.setSp (b.sp - 1)).sItem i = b.sItem (i + 1) := by
  rw [Block.sItem, Block.sAddr_popped, Block.setSp_word]

/-! ### Frames: further registers, sequences, registers put back -/

theorem Block.setSp_kept (b : Block w) (v : Word w) : KeptBut [.sp] b (b.setSp v) := (KeptBut.refl b).setSp v

theorem Block.setHandlerSp_kept (b : Block w) (v : Word w) : KeptBut [.handlerSp] b (b.setHandlerSp v) :=
  ⟨fun x hx => b.setHandlerSp_reg v x (List.ne_of_not_mem_cons hx), rfl, rfl, rfl, rfl, rfl⟩

/-- What two steps change, one after the other. -/
theorem KeptBut.trans {xs ys out : List Reg} {b r q : Block w} (hr : KeptBut xs b r) (hq : KeptBut ys r q)
    (hxs : xs ⊆ out) (hys : ys ⊆ out) : KeptBut out b q := by
  obtain ⟨hrreg, hrcfg, hrsst, hrdbg, hract, hrio⟩ := hr
  obtain ⟨hqreg, hqcfg, hqsst, hqdbg, hqact, hqio⟩ := hq
  exact ⟨fun x hx => (hqreg x fun h => hx (hys h)).trans (hrreg x fun h => hx (hxs h)), hqcfg.trans hrcfg,
    hqsst.trans hrsst, hqdbg.trans hrdbg, hqact.trans hract, hqio.trans hrio⟩

/-- A register that has its old value again has not changed. -/
theorem KeptBut.restore {x : Reg} {regs : List Reg} {b r : Block w} (h : KeptBut (x :: regs) b r)
    (hx : r.reg x = b.reg x) : KeptBut regs b r := by
  obtain ⟨hreg, hrest⟩ := h
  refine ⟨fun y hy => ?_, hrest⟩
  by_cases hyx : y = x
  · rw [hyx, hx]
  · exact hreg y fun h => hy (List.mem_of_ne_of_mem hyx h)

/-! ### The checked jump (rules R130, R131) -/

theorem jumpTo_ok {a : Word w} (ha : a.toNat % w.bytes = 0) (b : Block w) : jumpTo a b = .ok () (b.setPc a) :=
  Op.bind_ok (checkAligned_ok ((aligned_iff _ _).2 ha) b)

theorem jumpTo_misaligned {a : Word w} (ha : a.toNat % w.bytes ≠ 0) (b : Block w) :
    jumpTo a b = .error (.raise (ErrCode.unalignedAddress.word w)) b :=
  Op.bind_error (checkAligned_raise (aligned_eq_false ha) b)

/-- `JUMPZ` with both words there: what remains is the jump, or nothing. -/
theorem exec_jumpz_popped {b : Block w} (h : b.dHas 2) :
    exec .jumpz ⟨w, b⟩ = perform ⟨w, b.setDp (b.dp - 2)⟩ (if b.dItem 1 = 0 then jumpTo (b.dItem 0) else pure ()) := by
  rw [exec_jumpz, perform, popTwo_ok h]
  rfl

/-- Settles O26: after its pops `JUMP` is the checked jump; `JUMPZ` is that jump when the flag is 0, and else nothing. -/
theorem jumpsThroughTheStack : Obligations.JumpsThroughTheStack := by
  unfold Obligations.JumpsThroughTheStack
  intro w b
  refine ⟨decode_insnWord (n := 0x0C) rfl, decode_insnWord (n := 0x0D) rfl, fun hitem halign => ?_,
    fun hitem halign => ?_, .of_pop (exec_jump b), fun hitems hzero halign => ?_, fun hitems hnonzero => ?_,
    fun hitems hzero halign => ?_, .of_pops (exec_jumpz b)⟩
  · exact ⟨_, exec_popped_next (exec_jump b) hitem (jumpTo_ok halign _), rfl, rfl,
      (Block.setPc_kept _ _).cons (b.setDp_kept _), fun _ => rfl⟩
  · exact .of_popped (exec_jump b) hitem (jumpTo_misaligned halign _)
  · have hexec := exec_jumpz_popped hitems
    rw [if_pos hzero] at hexec
    exact ⟨_, hexec.trans (perform_ok (jumpTo_ok halign _)), rfl, rfl, (Block.setPc_kept _ _).cons (b.setDp_kept _),
      fun _ => rfl⟩
  · have hexec := exec_jumpz_popped hitems
    rw [if_neg hnonzero] at hexec
    exact ⟨_, hexec.trans (perform_ok rfl), rfl, b.setDp_kept _, fun _ => rfl⟩
  · have hexec := exec_jumpz_popped hitems
    rw [if_pos hzero] at hexec
    exact hexec.trans (perform_raise (jumpTo_misaligned halign _))

/-! ### The return (rule R133) -/

theorem returnTo_misaligned {a : Word w} (ha : a.toNat % w.bytes ≠ 0) (b : Block w) :
    returnTo a b = .error (.raise (ErrCode.unalignedAddress.word w)) b :=
  Op.bind_error (checkAligned_raise (aligned_eq_false ha) b)

/-- Once the address is checked, `pc` moves; whatever follows happens with `pc` at the return address. -/
theorem returnTo_aligned {a : Word w} (ha : a.toNat % w.bytes = 0) (b : Block w) :
    returnTo a b = (if b.sp.toNat < b.handlerSp.toNat then leaveRegion else pure () : Op w Unit) (b.setPc a) := by
  unfold returnTo
  rw [Op.bind_ok (checkAligned_ok ((aligned_iff _ _).2 ha) b), Op.bind_ok (update_run _ _), Op.bind_ok (Op.get_run _)]
  rfl

/-- The tail of `RET` with the old `handler_sp` to pop. -/
theorem leaveRegion_popped {b : Block w} (h : b.sHas 1) :
    leaveRegion b = pushD 0 ((b.setSp (b.sp - 1)).setHandlerSp (b.sItem 0)) := by
  unfold leaveRegion
  rw [Op.bind_ok (popS_ok h), Op.bind_ok (update_run _ _)]

theorem leaveRegion_empty {b : Block w} (h : b.sp.toNat = 0) :
    leaveRegion b = .error (.raise (ErrCode.stackUnderflow.word w)) b :=
  Op.bind_error (popS_empty h)

section Ret
variable {b : Block w}

/-- `RET` with an address to pop: what remains is the return, on the block without the address. -/
theorem exec_ret_popped (h : b.sHas 1) :
    exec .ret ⟨w, b⟩ = perform ⟨w, b.setSp (b.sp - 1)⟩ (returnTo (b.sItem 0)) := by
  rw [exec_ret, perform, Op.bind_ok (popS_ok h)]
  rfl

theorem exec_ret_plain (h : b.sHas 1) (ha : (b.sItem 0).toNat % w.bytes = 0) (hin : b.handlerSp.toNat ≤ b.sp.toNat - 1) :
    exec .ret ⟨w, b⟩ = .next ⟨w, (b.setSp (b.sp - 1)).setPc (b.sItem 0)⟩ := by
  have hreturn := returnTo_aligned ha (b.setSp (b.sp - 1))
  rw [if_neg (by rwa [Block.sPopped_depth h, not_lt])] at hreturn
  exact (exec_ret_popped h).trans (perform_ok hreturn)

/-- A return to a depth below `handler_sp` goes on with `leaveRegion`. -/
theorem exec_ret_crossing (h : b.sHas 1) (ha : (b.sItem 0).toNat % w.bytes = 0)
    (hout : b.sp.toNat - 1 < b.handlerSp.toNat) :
    exec .ret ⟨w, b⟩ = perform ⟨w, (b.setSp (b.sp - 1)).setPc (b.sItem 0)⟩ leaveRegion := by
  have hreturn := returnTo_aligned ha (b.setSp (b.sp - 1))
  rw [if_pos (by rwa [Block.sPopped_depth h])] at hreturn
  rw [exec_ret_popped h, perform, hreturn]
  rfl

/-- A return that crosses the boundary, both words of the frame being there: what remains is the push of 0. -/
theorem exec_ret_leaving (h : b.sHas 2) (ha : (b.sItem 0).toNat % w.bytes = 0)
    (hout : b.sp.toNat - 1 < b.handlerSp.toNat) :
    exec .ret ⟨w, b⟩ =
      perform ⟨w, ((b.setSp (b.sp - 2)).setPc (b.sItem 0)).setHandlerSp (b.sItem 1)⟩ (pushD 0) := by
  have hleave := leaveRegion_popped (b := (b.setSp (b.sp - 1)).setPc (b.sItem 0)) (Block.sHas_popped h)
  rw [exec_ret_crossing (Block.sHas_le h Nat.one_lt_two.le) ha hout, perform, hleave, ← b.sItem_popped 0, ← sub_one_sub_one]
  rfl

/-- The block once `RET` has left the protected region. -/
def Block.regionLeft (b : Block w) : Block w :=
  ((((b.storeWord b.dFree 0).setDp (b.dp + 1)).setHandlerSp (b.sItem 1)).setSp (b.sp - 2)).setPc (b.sItem 0)

theorem Block.regionLeft_kept (b : Block w) : KeptBut [.pc, .sp, .handlerSp, .dp] b b.regionLeft :=
  (Block.setPc_kept _ _).cons ((Block.setSp_kept _ _).cons ((Block.setHandlerSp_kept _ _).cons
    ((b.storeWord_kept _ _).setDp _)))

theorem Block.regionLeft_dItem (hm : b.mem.wf = true) : b.regionLeft.dItem 0 = 0 := b.dItem_pushed hm 0

theorem exec_ret_regionLeft (h : b.sHas 2) (ha : (b.sItem 0).toNat % w.bytes = 0)
    (hout : b.sp.toNat - 1 < b.handlerSp.toNat) (hroom : b.dRoom) : exec .ret ⟨w, b⟩ = .next ⟨w, b.regionLeft⟩ :=
  (exec_ret_leaving h ha hout).trans (perform_ok (pushD_ok
    (b := ((b.setSp (b.sp - 2)).setPc (b.sItem 0)).setHandlerSp (b.sItem 1)) hroom 0))

end Ret

/-- Settles O27: the check, the move of `pc`, the pop of the frame's other word and the push of 0 come in this order, so each
fault is met on the block that the steps before it have left (rule R236). -/
theorem retReturnsAndLeavesRegion : Obligations.RetReturnsAndLeavesRegion := by
  unfold Obligations.RetReturnsAndLeavesRegion
  intro w b hm
  refine ⟨decode_insnWord (n := 0x0F) rfl, fun hitem halign hin => ?_, fun hitems halign hout hroom => ?_,
    fun hempty => ?_, fun hover => ?_, fun hitem halign => ?_, fun hitem halign hone hregion => ?_,
    fun hitems halign hout hfull => ?_⟩
  · exact ⟨_, exec_ret_plain hitem halign hin, rfl, rfl, (Block.setPc_kept _ _).cons (b.setSp_kept _), fun _ => rfl⟩
  · exact ⟨_, exec_ret_regionLeft hitems halign hout hroom, rfl, rfl, rfl, rfl, Block.regionLeft_dItem hm,
      b.regionLeft_kept, b.storeWord_frame _ _⟩
  · exact (exec_ret b).trans (perform_raise (Op.bind_error (popS_empty hempty)))
  · exact (exec_ret b).trans (perform_raise (Op.bind_error (popS_over hover)))
  · exact (exec_ret_popped hitem).trans (perform_raise (returnTo_misaligned halign _))
  · have hzero : b.sp - 1 = 0 := BitVec.eq_of_toNat_eq (by rw [toNat_sub_one (by omega), hone]; rfl)
    have hexec := exec_ret_crossing hitem halign (by omega)
    rw [hzero] at hexec
    exact hexec.trans (perform_raise (leaveRegion_empty (by simp)))
  · exact (exec_ret_leaving hitems halign hout).trans (perform_raise (pushD_full
      (b := ((b.setSp (b.sp - 2)).setPc (b.sItem 0)).setHandlerSp (b.sItem 1)) hfull 0))

/-! ### The handler frame (rules R15, R134) -/

/-- The block once `CATCH` has built the frame and jumped. -/
def Block.caught (b : Block w) (a : Word w) : Block w :=
  ((((b.storeWord b.sFree b.handlerSp).storeWord (b.sFree + w.step) b.pc).setSp (b.sp + 2)).setHandlerSp
    (b.sp + 2)).setPc a

theorem add_two_sub_one (x : Word w) : x + 2 - 1 = x + 1 := by rw [← add_one_add_one, add_sub_cancel_right]

section Caught
variable {b : Block w} {a : Word w}

/-- The two words of the frame: the return address above, the old `handler_sp` beneath. -/
theorem Block.caught_sAddr_zero (b : Block w) (a : Word w) : (b.caught a).sAddr 0 = b.sFree + w.step := by
  rw [← b.sSlot_succ, ← add_two_sub_one]
  rfl

theorem Block.caught_sAddr_one (b : Block w) (a : Word w) : (b.caught a).sAddr 1 = b.sFree :=
  congrArg b.sSlot (add_sub_cancel_right b.sp 2)

theorem Block.caught_sItem_zero (hm : b.mem.wf = true) : (b.caught a).sItem 0 = b.pc := by
  rw [Block.sItem, b.caught_sAddr_zero]
  exact Block.word_storeWord _ (b.storeWord_wf hm _ _) _ _

/-- The second push has not overwritten the first: neighbouring slots share no byte. -/
theorem Block.caught_sItem_one (hm : b.mem.wf = true) : (b.caught a).sItem 1 = b.handlerSp := by
  rw [Block.sItem, b.caught_sAddr_one, ← b.word_storeWord hm b.sFree b.handlerSp]
  refine (b.storeWord b.sFree b.handlerSp).word_storeWord_other (a := b.sFree + w.step) b.pc ?_ ?_
  all_goals rw [← b.sSlot_succ]
  · exact b.sSlot_sub _ _
  · exact (b.sSlot_succ_ne b.sp).symm

theorem Block.caught_kept (b : Block w) (a : Word w) : KeptBut [.pc, .handlerSp, .sp] b (b.caught a) :=
  (Block.setPc_kept _ _).cons ((Block.setHandlerSp_kept _ _).cons
    (KeptBut.trans (b.storeWord_kept _ _) ((Block.storeWord_kept _ _ _).setSp _) (List.nil_subset _)
      (List.Subset.refl _)))

theorem Block.caught_frame (b : Block w) (a : Word w) : MemKeptBut b.sFree (2 * w.bytes) b (b.caught a) :=
  b.storeWord_two_frame _ _ _

theorem Block.caught_wf (hm : b.mem.wf = true) : (b.caught a).mem.wf = true :=
  Block.storeWord_wf _ (b.storeWord_wf hm _ _) _ _

theorem Block.caught_depth (h : b.sRoom 2) : (b.caught a).sp.toNat = b.sp.toNat + 2 := by
  obtain ⟨hroom, -⟩ := h
  have hone := toNat_add_one (u := b.ssize) (v := b.sp) (by omega)
  have htwo := toNat_add_one (u := b.ssize) (v := b.sp + 1) (by omega)
  rw [add_one_add_one] at htwo
  exact htwo.trans (by omega)

/-- The frame can be popped again. -/
theorem Block.caught_sHas (h : b.sRoom 2) : (b.caught a).sHas 2 := by
  have hdepth := Block.caught_depth (a := a) h
  obtain ⟨hroom, hvalid⟩ := h
  refine ⟨by omega, hdepth.trans_le hroom, fun i hi => ?_⟩
  obtain rfl | rfl : i = 0 ∨ i = 1 := by omega
  · rw [b.caught_sAddr_zero, ← b.sSlot_succ]
    exact hvalid 1 Nat.one_lt_two
  · rw [b.caught_sAddr_one]
    have hfirst := hvalid 0 Nat.zero_lt_two
    rwa [show b.sp + BitVec.ofNat w.xlen 0 = b.sp from add_zero _] at hfirst

theorem enterRegion_ok (h : b.sRoom 2) : enterRegion a b = .ok () (b.caught a) := by
  have ⟨hroom, hvalid⟩ := h
  have hone : (b.sp + 1).toNat = b.sp.toNat + 1 := toNat_add_one (u := b.ssize) (by omega)
  have hnext : ((b.storeWord b.sFree b.handlerSp).setSp (b.sp + 1)).sRoom 1 := by
    refine ⟨?_, fun i hi => ?_⟩
    · rw [Block.setSp_sp, Block.setSp_ssize, Block.storeWord_ssize]
      omega
    · obtain rfl : i = 0 := by omega
      simpa using hvalid 1 Nat.one_lt_two
  unfold enterRegion
  rw [Op.bind_ok (Op.get_run b), if_neg (by omega), Op.bind_ok (pushS_ok h _), Op.bind_ok (pushS_ok hnext _),
    Block.caught, ← b.sSlot_succ, ← add_one_add_one]
  rfl

/-- Neither word is pushed when both do not fit. -/
theorem enterRegion_full (h : b.ssize.toNat < b.sp.toNat + 2) :
    enterRegion a b = .error (.raise (ErrCode.stackOverflow.word w)) b := by
  unfold enterRegion
  rw [Op.bind_ok (Op.get_run b), if_pos (by omega), raise_run]

/-- `CATCH` with an aligned target to pop: what remains is the frame, on the block without the target. -/
theorem exec_catch_checked (h : b.dHas 1) (ha : (b.dItem 0).toNat % w.bytes = 0) :
    exec .catch_ ⟨w, b⟩ = perform ⟨w, b.setDp (b.dp - 1)⟩ (enterRegion (b.dItem 0)) := by
  rw [exec_catch, perform, Op.bind_ok (popD_ok h), Op.bind_ok (checkAligned_ok ((aligned_iff _ _).2 ha) _)]
  rfl

theorem exec_catch_next (h : b.dHas 1) (ha : (b.dItem 0).toNat % w.bytes = 0) (hroom : b.sRoom 2) :
    exec .catch_ ⟨w, b⟩ = .next ⟨w, (b.setDp (b.dp - 1)).caught (b.dItem 0)⟩ :=
  (exec_catch_checked h ha).trans (perform_ok (enterRegion_ok (b := b.setDp (b.dp - 1)) hroom))

theorem Block.caught_popped_kept (b : Block w) (v a : Word w) :
    KeptBut [.pc, .dp, .sp, .handlerSp] b ((b.setDp v).caught a) :=
  (b.setDp_kept v).trans ((b.setDp v).caught_kept a) (by simp) (by simp)

end Caught

/-- Settles O28: the frame is `Block.caught` of the block without the target; the check and the test for two free slots come
before the first push. -/
theorem catchInstallsFrame : Obligations.CatchInstallsFrame := by
  unfold Obligations.CatchInstallsFrame
  intro w b hm
  refine ⟨decode_insnWord (n := 0x23) rfl, fun hitem halign hroom => ?_, fun hitem halign => ?_,
    fun hitem halign hfull => ?_, .of_pop (exec_catch b)⟩
  · exact ⟨_, exec_catch_next hitem halign hroom, rfl, rfl, rfl, rfl,
      Block.caught_sItem_one (b := b.setDp (b.dp - 1)) hm, Block.caught_sItem_zero (b := b.setDp (b.dp - 1)) hm,
      b.caught_popped_kept _ _, (b.setDp (b.dp - 1)).caught_frame _⟩
  · exact .of_popped (exec_catch b) hitem (Op.bind_error (checkAligned_raise (aligned_eq_false halign) _))
  · exact (exec_catch_checked hitem halign).trans
      (perform_raise (enterRegion_full (b := b.setDp (b.dp - 1)) hfull))

/-! ### Who gets the code that stops the run (rules R85, R175, R211) -/

/-- The end of an embedder's `RUN`: idle, with the code as its result. -/
theorem stopRun_host {b : Block w} (h : b.act = .run .host) (c : Word w) :
    b.stopRun c = (b.setAct .idle).answer (.word c) := by
  unfold Block.stopRun
  rw [h]

theorem stopRun_sst {b : Block w} (h : b.act = .run .sst) (c : Word w) :
    b.stopRun c = b.setAct (.sst (.disarm c)) := by
  unfold Block.stopRun
  rw [h]

theorem stopRun_debug {b : Block w} (h : b.act = .run .debug) (c : Word w) :
    b.stopRun c = b.setAct (.dbg (.stopped c)) := by
  unfold Block.stopRun
  rw [h]

/-! ### A thrown code (rules R135, R232, R233) -/

theorem popCode_ok {b : Block w} (h : b.dHas 1) : popCode b = .ok (b.dItem 0) (b.setDp (b.dp - 1)) := by
  unfold popCode
  rw [popD_ok h]

theorem popCode_fault {b r : Block w} {e : Word w} (h : popD b = .error (.raise e) r) : popCode b = .ok e r := by
  unfold popCode
  rw [h]

/-- Whatever code the pop yields is raised. -/
theorem exec_throw_raises {b r : Block w} {c : Word w} (h : popCode b = .ok c r) :
    exec .throw_ ⟨w, b⟩ = (raiseCode c r).toOut :=
  (exec_throw b).trans (perform_raise (Op.bind_ok h))

/-- A thrown word is delivered into the slot it was popped from: the block is as before the pop. -/
theorem Block.delivered_popped {b : Block w} (hm : b.mem.wf = true) (h : b.dHas 1) :
    (b.setDp (b.dp - 1)).delivered (b.dItem 0) = b := by
  obtain ⟨hroom, -⟩ := Block.dRoom_popped h
  rw [Block.delivered, if_pos hroom, Block.dFree_popped, Block.setDp_storeWord, b.storeWord_word hm, Block.setDp_dp,
    Block.setDp_twice, sub_add_cancel, Block.setDp_same]

/-- The block once its handler frame is taken down: steps 2 to 6 of `Unwind` (rule R233). -/
def Block.frameTaken (b : Block w) : Block w :=
  ((b.setSp (b.handlerSp - 2)).setHandlerSp (b.word (b.sSlot (b.handlerSp - 2)))).setPc
    (b.word (b.sSlot (b.handlerSp - 1)))

theorem Block.frameTaken_kept (b : Block w) : KeptBut [.pc, .handlerSp, .sp] b b.frameTaken :=
  (Block.setPc_kept _ _).cons ((Block.setHandlerSp_kept _ _).cons (b.setSp_kept _))

theorem exec_throw_frameTaken {b : Block w} (hm : b.mem.wf = true) (h : b.dHas 1) (htwo : 2 ≤ b.handlerSp.toNat)
    (hcap : b.handlerSp.toNat ≤ b.ssize.toNat) (hv1 : b.valid (b.sSlot (b.handlerSp - 1)) w.bytes = true)
    (hv2 : b.valid (b.sSlot (b.handlerSp - 2)) w.bytes = true) : exec .throw_ ⟨w, b⟩ = .next ⟨w, b.frameTaken⟩ := by
  have hactive : b.handlerSp ≠ 0 := fun h0 => by simp [h0] at htwo
  obtain ⟨-, hvalid⟩ := Block.dRoom_popped h
  have hunwind := unwind_ok (b := b.setDp (b.dp - 1)) (b.dItem 0) (fun _ => hvalid) htwo hcap hv1 hv2
  rw [Block.delivered_popped hm h] at hunwind
  rw [exec_throw_raises (popCode_ok h), raiseCode_handler (b := b.setDp (b.dp - 1)) hactive, hunwind]
  rfl

/-- Settles O29: the pop yields a code in every case, and `Raise` takes it; with a handler the code goes back into the slot it
came from and the frame is taken down. -/
theorem throwDeliversCode : Obligations.ThrowDeliversCode := by
  unfold Obligations.ThrowDeliversCode
  intro w b hm
  refine ⟨decode_insnWord (n := 0x24) rfl, fun hitem => exec_throw_raises (popCode_ok hitem),
    fun hitem hhandler hact => ?_, fun hitem htwo hcap hv1 hv2 => ?_,
    fun hempty => exec_throw_raises (popCode_fault (popD_empty hempty)),
    fun hover => exec_throw_raises (popCode_fault (popD_over hover))⟩
  · have hraise := raiseCode_stop (b := b.setDp (b.dp - 1)) hhandler (b.dItem 0)
    rw [stopRun_host (b := b.setDp (b.dp - 1)) hact] at hraise
    refine ⟨_, (exec_throw_raises (popCode_ok hitem)).trans hraise, rfl, rfl, rfl, fun x hx => ?_, fun _ => rfl, rfl,
      rfl, rfl⟩
    rw [Block.answer_reg, Block.setAct_reg, Block.setDp_reg _ _ _ hx]
  · exact ⟨_, exec_throw_frameTaken hm hitem htwo hcap hv1 hv2, rfl, rfl, rfl, rfl, b.frameTaken_kept, fun _ => rfl⟩

/-! ### In and out of a protected region (rules R15, R240) -/

section Region
variable {b : Block w} {a : Word w}

/-- A `RET` right after the frame is built leaves the region at once: the address of the frame is checked and the depth falls
below the new `handler_sp`. -/
theorem exec_ret_caught (hm : b.mem.wf = true) (hpc : b.pc.toNat % w.bytes = 0) (hs : b.sRoom 2) (hd : b.dRoom) :
    exec .ret ⟨w, b.caught a⟩ = .next ⟨w, (b.caught a).regionLeft⟩ := by
  have hdepth := Block.caught_depth (a := a) hs
  have hout : (b.caught a).sp.toNat - 1 < (b.caught a).handlerSp.toNat :=
    Nat.sub_lt (by omega) Nat.zero_lt_one
  exact exec_ret_regionLeft (Block.caught_sHas hs) (by rwa [Block.caught_sItem_zero hm]) hout hd

/-- The return pops what the frame holds, so all that `Block.caught` wrote has its old value again. -/
theorem Block.caught_regionLeft_kept (hm : b.mem.wf = true) : KeptBut [.dp] b (b.caught a).regionLeft :=
  have hboth : KeptBut [.pc, .sp, .handlerSp, .dp] b (b.caught a).regionLeft :=
    (b.caught_kept a).trans (b.caught a).regionLeft_kept (by simp) (by simp)
  ((hboth.restore (Block.caught_sItem_zero hm)).restore (add_sub_cancel_right b.sp 2)).restore
    (Block.caught_sItem_one hm)

/-- A `THROW` right after the frame is built finds that frame intact. -/
theorem exec_throw_caught (hm : b.mem.wf = true) (hs : b.sRoom 2) (hd : b.dHas 1) :
    exec .throw_ ⟨w, b.caught a⟩ = .next ⟨w, (b.caught a).frameTaken⟩ := by
  obtain ⟨htwo, hcap, hvalid⟩ := Block.caught_sHas (a := a) hs
  exact exec_throw_frameTaken (Block.caught_wf hm) hd htwo hcap (hvalid 0 Nat.zero_lt_two) (hvalid 1 Nat.one_lt_two)

/-- Taking the frame down pops what it holds, so every register is as before the frame was built. -/
theorem Block.caught_frameTaken_kept (hm : b.mem.wf = true) : KeptBut [] b (b.caught a).frameTaken :=
  have hboth : KeptBut [.pc, .handlerSp, .sp] b (b.caught a).frameTaken :=
    (b.caught_kept a).trans (b.caught a).frameTaken_kept (by simp) (by simp)
  ((hboth.restore (Block.caught_sItem_zero hm)).restore (Block.caught_sItem_one hm)).restore
    (add_sub_cancel_right b.sp 2)

end Region

/-- Settles O41: `CATCH` has consumed the target, and the 0 that `RET` pushes takes its slot. -/
theorem catchThenRetIsTransparent : Obligations.CatchThenRetIsTransparent := by
  unfold Obligations.CatchThenRetIsTransparent
  intro w b hm hitem halign hpc hroom
  have hdp : b.dp - 1 + 1 = b.dp := sub_add_cancel _ _
  have hkept : KeptBut [.dp] b ((b.setDp (b.dp - 1)).caught (b.dItem 0)).regionLeft :=
    (b.setDp_kept _).trans (Block.caught_regionLeft_kept hm) (by simp) (by simp)
  exact ⟨_, _, exec_catch_next hitem halign hroom,
    exec_ret_caught (b := b.setDp (b.dp - 1)) hm hpc hroom (Block.dRoom_popped hitem),
    Block.caught_sItem_zero (b := b.setDp (b.dp - 1)) hm, hdp, Block.regionLeft_dItem (Block.caught_wf hm),
    hkept.restore hdp⟩

/-- Settles O42: the code goes back into the slot it was popped from; only the pop of the target remains. -/
theorem catchThenThrowReachesHandler : Obligations.CatchThenThrowReachesHandler := by
  unfold Obligations.CatchThenThrowReachesHandler
  intro w b hm hitems halign hroom
  exact ⟨_, _, exec_catch_next (Block.dHas_le hitems Nat.one_lt_two.le) halign hroom,
    exec_throw_caught (b := b.setDp (b.dp - 1)) hm hroom (Block.dHas_popped hitems),
    Block.caught_sItem_zero (b := b.setDp (b.dp - 1)) hm, rfl, rfl,
    (b.setDp_kept _).trans (Block.caught_frameTaken_kept hm) (by simp) (by simp)⟩

/-! ### The breakpoint (rule R136) -/

/-- Settles O30: `BREAK` does not go through `Raise`, so `Block.stopRun` hands its code to each caller, with a handler or
without. -/
theorem breakStopsOnItself : Obligations.BreakStopsOnItself := by
  unfold Obligations.BreakStopsOnItself
  intro w b
  obtain ⟨hreg, hmem, hcfg, hsst, hdbg⟩ := stopRun_kept (b.setPc (b.pc - w.step)) (ErrCode.break_.word w)
  refine ⟨decode_insnWord (n := 0x25) rfl, _, exec_break b, hreg .pc, fun x hx => ?_, fun c => ?_, hcfg, hsst, hdbg,
    ?_, fun hact => ?_, fun hact => ?_⟩
  · rw [hreg, Block.setPc_reg _ _ _ hx]
  · rw [hmem, Block.setPc_mem]
  · rintro (hact | hact)
    · rw [stopRun_host (b := b.setPc (b.pc - w.step)) hact]
      exact ⟨rfl, rfl⟩
    · rw [stopRun_direct (b := b.setPc (b.pc - w.step)) hact]
      exact ⟨rfl, rfl⟩
  · rw [stopRun_sst (b := b.setPc (b.pc - w.step)) hact]
    exact ⟨rfl, rfl⟩
  · rw [stopRun_debug (b := b.setPc (b.pc - w.step)) hact]
    exact ⟨rfl, rfl⟩

end Sys2Proof.Machine
end

section
/-! SUPPORT. The loads and stores (44_memory_access.md): a misaligned address is met after the pops and before memory is
touched; an aligned store leaves its bytes written and only the depth moved. -/

namespace Sys2Proof.Machine

variable {w : WordSize}

/-! ### A misaligned address (rule R44) -/

theorem loadN_misaligned {b : Block w} (h : b.dHas 1) {n : Nat} (ha : (b.dItem 0).toNat % n ≠ 0) :
    loadN n b = .error (.raise (ErrCode.unalignedAddress.word w)) (b.setDp (b.dp - 1)) := by
  unfold loadN
  rw [Op.bind_ok (popD_ok h), Op.bind_error (checkAligned_raise (aligned_eq_false ha) _)]

theorem storeN_misaligned {b : Block w} (h : b.dHas 2) {n : Nat} (ha : (b.dItem 0).toNat % n ≠ 0) :
    storeN n b = .error (.raise (ErrCode.unalignedAddress.word w)) (b.setDp (b.dp - 2)) := by
  unfold storeN
  rw [popTwo_ok h, Op.bind_error (checkAligned_raise (aligned_eq_false ha) _)]

/-! ### The bytes of an access -/

/-- Each store is an access of one of the four widths (rule R40). -/
theorem store_width {i : Instr} {n : Nat}
    (h : (i, n) ∈ ([(.store, w.bytes), (.store1, 1), (.store2, 2), (.store4, 4)] : List (Instr × Nat))) :
    ∃ width : Width, n = widthBytes w width := by
  simp only [List.mem_cons, Prod.mk.injEq, List.not_mem_nil, or_false] at h
  rcases h with ⟨-, rfl⟩ | ⟨-, rfl⟩ | ⟨-, rfl⟩ | ⟨-, rfl⟩
  · exact ⟨.word, rfl⟩
  · exact ⟨.b1, rfl⟩
  · exact ⟨.b2, rfl⟩
  · exact ⟨.b4, rfl⟩

/-! ### The statements of 44_memory_access.md -/

/-- Settles O31: every load is `loadN` of its width, whose push lands in the slot of the popped address. -/
theorem loadsReadMemory : Obligations.LoadsReadMemory := by
  unfold Obligations.LoadsReadMemory
  intro w b hm
  refine ⟨decode_insnWord (n := 0x10) rfl, decode_insnWord (n := 0x12) rfl, decode_insnWord (n := 0x14) rfl,
    decode_insnWord (n := 0x16) rfl, fun p hp => ?_⟩
  have hexec := exec_load_shape hp b
  refine ⟨fun hitem halign hvalid => ?_, fun hitem hmis => ?_, .of_pop hexec⟩
  · exact .of_exec hm (hexec.trans (perform_ok (loadN_ok hitem ((aligned_iff _ _).2 halign) hvalid)))
  · exact hexec.trans (perform_raise (loadN_misaligned hitem hmis))

/-- Settles O32: every store is `storeN` of its width, which after its two pops is a single write; rule R50
(`readReturnsLastWrite`) says what that write leaves. -/
theorem storesWriteMemory : Obligations.StoresWriteMemory := by
  unfold Obligations.StoresWriteMemory
  intro w b hm
  refine ⟨decode_insnWord (n := 0x11) rfl, decode_insnWord (n := 0x13) rfl, decode_insnWord (n := 0x15) rfl,
    decode_insnWord (n := 0x17) rfl, fun p hp => ?_⟩
  have hexec := exec_store_shape hp b
  refine ⟨fun hitems halign hvalid => ?_, fun hitems hmis => ?_, .of_pops hexec⟩
  · obtain ⟨width, hwidth⟩ := store_width hp
    obtain ⟨hread, hframe, hkept, -⟩ := readReturnsLastWrite w b (b.dItem 0) width (b.dItem 1).toNat hm
    rw [← hwidth] at hread hframe hkept
    exact ⟨_, hexec.trans (perform_ok (storeN_ok hitems ((aligned_iff _ _).2 halign) hvalid)), rfl, hread,
      hkept.setDp _, hframe⟩
  · exact hexec.trans (perform_raise (storeN_misaligned hitems hmis))

end Sys2Proof.Machine
end

section
/-! SUPPORT. The register introspection instructions (45_registers.md): a getter is one push, a setter is a pop and one write
of a register; and no instruction writes what describes the stack arrays (rule R158). -/

namespace Sys2Proof.Machine

variable {w : WordSize}

/-! ### What each instruction runs -/

/-- The getters of rules R150 to R157, each with the word it pushes; `GET_DP`'s is the depth before the push. -/
theorem exec_getter_shape {i : Instr} {b : Block w} {v : Word w}
    (h : (i, v) ∈ ([(.wordBytes, BitVec.ofNat w.xlen w.bytes), (.getSsize, b.ssize), (.getSp, b.sp),
      (.getDsize, b.dsize), (.getDp, b.dp), (.getHandlerSp, b.handlerSp)] : List (Instr × Word w))) :
    exec i ⟨w, b⟩ = perform ⟨w, b⟩ (pushD v) := by
  simp only [List.mem_cons, Prod.mk.injEq, List.not_mem_nil, or_false] at h
  rcases h with ⟨rfl, rfl⟩ | ⟨rfl, rfl⟩ | ⟨rfl, rfl⟩ | ⟨rfl, rfl⟩ | ⟨rfl, rfl⟩ | ⟨rfl, rfl⟩ <;> rfl

theorem exec_setSp (b : Block w) :
    exec .setSp ⟨w, b⟩ = perform ⟨w, b⟩ (popD >>= fun v => update fun q => q.setSp v) := rfl

theorem exec_setDp (b : Block w) :
    exec .setDp ⟨w, b⟩ = perform ⟨w, b⟩ (popD >>= fun v => update fun q => q.setDp v) := rfl

/-! ### What no instruction writes (rule R158) -/

/-- The description of the stack arrays, the parameters and the hidden registers of SST and DBG have not changed. -/
structure KeepsArrays (b r : Block w) : Prop where
  d0 : r.d0 = b.d0
  dsize : r.dsize = b.dsize
  s0 : r.s0 = b.s0
  ssize : r.ssize = b.ssize
  cfg : r.cfg = b.cfg
  sst : r.sst = b.sst
  dbg : r.dbg = b.dbg

/-- None of the single writes that instructions and their unwinding are made of touches any of these. -/
theorem KeepsArrays.admits : Admits (KeepsArrays (w := w)) where
  refl _ := ⟨rfl, rfl, rfl, rfl, rfl, rfl, rfl⟩
  trans hab hbc := ⟨hbc.d0.trans hab.d0, hbc.dsize.trans hab.dsize, hbc.s0.trans hab.s0, hbc.ssize.trans hab.ssize,
    hbc.cfg.trans hab.cfg, hbc.sst.trans hab.sst, hbc.dbg.trans hab.dbg⟩
  setDp _ _ := ⟨rfl, rfl, rfl, rfl, rfl, rfl, rfl⟩
  poke _ _ _ _ := ⟨rfl, rfl, rfl, rfl, rfl, rfl, rfl⟩
  host _ _ _ := ⟨rfl, rfl, rfl, rfl, rfl, rfl, rfl⟩
  setSp _ _ := ⟨rfl, rfl, rfl, rfl, rfl, rfl, rfl⟩
  setPc _ _ := ⟨rfl, rfl, rfl, rfl, rfl, rfl, rfl⟩
  setHandlerSp _ _ := ⟨rfl, rfl, rfl, rfl, rfl, rfl, rfl⟩

/-- Nor does the end of the run (rule R88). -/
theorem KeepsArrays.stopRun {b r : Block w} (h : KeepsArrays b r) (c : Word w) : KeepsArrays b (r.stopRun c) := by
  obtain ⟨hreg, -, hcfg, hsst, hdbg⟩ := stopRun_kept r c
  exact ⟨(hreg .d0).trans h.d0, (hreg .dsize).trans h.dsize, (hreg .s0).trans h.s0, (hreg .ssize).trans h.ssize,
    hcfg.trans h.cfg, hsst.trans h.sst, hdbg.trans h.dbg⟩

/-! ### The statements of 45_registers.md -/

/-- Settles O33: every getter is a push of its word. -/
theorem gettersPushRegisters : Obligations.GettersPushRegisters := by
  unfold Obligations.GettersPushRegisters
  intro w b hm
  refine ⟨decode_insnWord (n := 0x26) rfl, decode_insnWord (n := 0x27) rfl, decode_insnWord (n := 0x28) rfl,
    decode_insnWord (n := 0x2A) rfl, decode_insnWord (n := 0x2B) rfl, decode_insnWord (n := 0x2D) rfl, fun p hp => ?_⟩
  have hexec := exec_getter_shape hp
  exact ⟨fun hroom => .of_pushD hexec hm hroom, fun hfull => .of_pushD_full hexec hfull⟩

/-- Settles O34: the popped word is written as it is; `SET_DP` overwrites the depth that the pop left. -/
theorem settersWriteDepths : Obligations.SettersWriteDepths := by
  unfold Obligations.SettersWriteDepths
  intro w b
  refine ⟨decode_insnWord (n := 0x29) rfl, decode_insnWord (n := 0x2C) rfl, fun hitem => ?_, fun hitem => ?_,
    .of_pop (exec_setSp b), .of_pop (exec_setDp b)⟩
  · exact ⟨_, exec_popped_next (exec_setSp b) hitem (update_run _ _), rfl, rfl,
      (Block.setSp_kept _ _).cons (b.setDp_kept _), fun _ => rfl⟩
  · exact ⟨_, exec_popped_next (exec_setDp b) hitem (update_run _ _), rfl, b.setDp_kept _, fun _ => rfl⟩

/-- Settles O35: the instruction moves the block only by writes that keep the arrays, and so does the end of the run. -/
theorem noInstructionMovesTheStacks : Obligations.NoInstructionMovesTheStacks := by
  unfold Obligations.NoInstructionMovesTheStacks
  intro w b i t ht
  obtain ⟨r, hr, hend⟩ := exec_within KeepsArrays.admits ht
  obtain ⟨q, rfl, hq⟩ : ∃ q : Block w, t = ⟨w, q⟩ ∧ KeepsArrays b q := by
    rcases hend with rfl | ⟨c, rfl⟩
    · exact ⟨_, rfl, hr⟩
    · exact ⟨_, rfl, hr.stopRun c⟩
  exact ⟨q, rfl, hq.d0, hq.dsize, hq.s0, hq.ssize, hq.cfg, hq.sst, hq.dbg⟩

end Sys2Proof.Machine
end

section
/-! SUPPORT. `TRAP` (46_trap.md): once the function id is popped the instruction is the host's function; that function changes
no register but `dp`, and the counter of the host's free values never falls (log 9). -/

namespace Sys2Proof.Machine

variable {w : WordSize} {α β : Type}

/-! ### The library test and the pop (rule R160) -/

theorem exec_trap_known (b : Block w) : exec (.trap 0) ⟨w, b⟩ = perform ⟨w, b⟩ (popD >>= trapCall) := rfl

theorem exec_trap_otherLibrary {lib : Int} (h : lib ≠ 0) (b : Block w) :
    exec (.trap lib) ⟨w, b⟩ = perform ⟨w, b⟩ (raise .invalidLibrary) :=
  congrArg (perform ⟨w, b⟩) (if_neg h)

/-- With the id popped, `TRAP` is the function that the host has under it. -/
theorem exec_trap_popped {b : Block w} {p : HostProg w} (h : b.dHas 1)
    (hp : b.cfg.trapHost.lookup (b.dItem 0) = some p) :
    exec (.trap 0) ⟨w, b⟩ = perform ⟨w, b.setDp (b.dp - 1)⟩ (runHost (b.dItem 0) [] p) := by
  rw [exec_trap_known, perform, Op.bind_ok (popD_ok h), trapCall_known (b := b.setDp (b.dp - 1)) hp]
  rfl

/-! ### Three host functions (rule R161, log 9) -/

/-- A function that pops a word and pushes its sum with `k`: the sum lands in the slot of the word. -/
theorem runHost_addConstant {b : Block w} (h : b.dHas 1) (f k : Word w) :
    runHost f [] (.pop (.push (.sum (.got 0) (.lit k)) .done)) b =
      .ok () (b.storeWord (b.dAddr 0) (b.dItem 0 + k)) :=
  (Op.bind_ok (popD_ok h)).trans (Op.bind_ok (pushD_popped h (b.dItem 0 + k)))

/-- A function that pushes a word from outside: the host is asked, then the word is pushed. -/
theorem runHost_pushOutside {b : Block w} (h : b.dRoom) (f : Word w) :
    runHost f [] (.push .outside .done) b =
      .ok () (((b.hostAsked f []).storeWord b.dFree (Config.hostWord (b.hostView f []))).setDp (b.dp + 1)) :=
  Op.bind_ok (pushD_ok (b := b.hostAsked f []) h (Config.hostWord (b.hostView f [])))

/-- The block once the id is popped and a word from outside has taken its slot. -/
def Block.outsidePushed (b : Block w) : Block w :=
  (((b.setDp (b.dp - 1)).hostAsked (b.dItem 0) []).storeWord (b.dAddr 0)
    (Config.hostWord ((b.setDp (b.dp - 1)).hostView (b.dItem 0) []))).setDp b.dp

theorem Block.outsidePushed_reg (b : Block w) (x : Reg) : b.outsidePushed.reg x = b.reg x := by
  cases x <;> rfl

theorem Block.outsidePushed_dItem {b : Block w} (hm : b.mem.wf = true) :
    b.outsidePushed.dItem 0 = Config.hostWord ((b.setDp (b.dp - 1)).hostView (b.dItem 0) []) :=
  ((b.setDp (b.dp - 1)).hostAsked (b.dItem 0) []).word_storeWord hm (b.dAddr 0) _

theorem exec_trap_outsidePushed {b : Block w} (h : b.dHas 1)
    (hp : b.cfg.trapHost.lookup (b.dItem 0) = some (.push .outside .done)) :
    exec (.trap 0) ⟨w, b⟩ = .next ⟨w, b.outsidePushed⟩ := by
  have hrun := runHost_pushOutside (Block.dRoom_popped h) (b.dItem 0)
  rw [Block.setDp_dp, sub_add_cancel] at hrun
  exact (exec_trap_popped h hp).trans (perform_ok hrun)

/-- Settles O36: the library is tested before the pop; with the id popped, what remains is the host's function, or the raise
where the host has none. -/
theorem trapCallsTheHost : Obligations.TrapCallsTheHost := by
  unfold Obligations.TrapCallsTheHost
  intro w b hm
  refine ⟨fun lib hlib => ?_, .of_pop (exec_trap_known b), fun hitem hnone => ?_, fun hitem hdone => ?_,
    fun k hitems hadd => ?_, fun hitem hout => ?_, fun hitem hfree => ?_⟩
  · exact (exec_trap_otherLibrary hlib b).trans (perform_raise (raise_run _ _))
  · exact .of_popped (exec_trap_known b) hitem (trapCall_unknown (b := b.setDp (b.dp - 1)) hnone)
  · exact ⟨_, (exec_trap_popped hitem hdone).trans (perform_ok rfl), rfl, b.setDp_kept _, fun _ => rfl⟩
  · have hrun := runHost_addConstant (Block.dHas_popped hitems) (b.dItem 0) k
    rw [Block.dItem_popped, Block.dAddr_popped] at hrun
    exact .of_exec hm ((exec_trap_popped (Block.dHas_le hitems Nat.one_lt_two.le) hadd).trans (perform_ok hrun))
  · exact ⟨_, exec_trap_outsidePushed hitem hout, Block.outsidePushed_dItem hm, rfl, b.outsidePushed_reg, rfl, rfl, rfl,
      rfl, Block.storeWord_frame _ _ _⟩
  · exact exec_trap_popped hitem hfree

/-! ### What a host function leaves alone (rule R161) -/

/-- No register but `dp` has changed, nor has anything else but memory, the host's own state and its counter. -/
structure KeepsOutsideHost (b r : Block w) : Prop where
  reg : ∀ x : Reg, x ≠ .dp → r.reg x = b.reg x
  cfg : r.cfg = b.cfg
  sst : r.sst = b.sst
  dbg : r.dbg = b.dbg
  act : r.act = b.act
  io : r.io = { b.io with host := r.io.host, hostSeq := r.io.hostSeq }

/-- The writes a host function is made of: of `dp`, of memory and of the host's own state. -/
theorem KeepsOutsideHost.admitsHost : AdmitsHost (KeepsOutsideHost (w := w)) where
  refl _ := ⟨fun _ _ => rfl, rfl, rfl, rfl, rfl, rfl⟩
  trans {a b c} hab hbc := by
    refine ⟨fun x hx => (hbc.reg x hx).trans (hab.reg x hx), hbc.cfg.trans hab.cfg, hbc.sst.trans hab.sst,
      hbc.dbg.trans hab.dbg, hbc.act.trans hab.act, ?_⟩
    rw [hbc.io, hab.io]
  setDp b v := ⟨fun x hx => b.setDp_reg v x hx, rfl, rfl, rfl, rfl, rfl⟩
  poke b a n v := ⟨fun x _ => b.poke_reg a n v x, rfl, rfl, rfl, rfl, rfl⟩
  host b _ _ := ⟨fun x _ => b.setIo_reg _ x, rfl, rfl, rfl, rfl, rfl⟩

/-! ### The counter of the host's free values (log 9)

`AdmitsHost` leaves the counter free to take any value, so that it does not fall is a second induction over the same script. -/

/-- The counter has not fallen. -/
def CountsUp (b r : Block w) : Prop := b.io.hostSeq ≤ r.io.hostSeq

namespace CountsUp

theorem bind {x : Op w α} {f : α → Op w β} (hx : Op.Within CountsUp x) (hf : ∀ a, Op.Within CountsUp (f a)) :
    Op.Within CountsUp (x >>= f) := by
  intro b
  have hb := hx b
  rw [Op.bind_run]
  cases hxb : x b with
  | ok a b' => rw [hxb] at hb; exact hb.trans (hf a b')
  | error e b' => rw [hxb] at hb; exact hb

theorem pure (a : α) : Op.Within CountsUp (Pure.pure a : Op w α) := fun _ => le_rfl

theorem popD : Op.Within CountsUp (popD : Op w (Word w)) := by
  intro b
  rw [popD_run]
  split_ifs <;> exact le_rfl

theorem pushD (v : Word w) : Op.Within CountsUp (pushD v) := by
  intro b
  rw [pushD_run]
  split_ifs <;> exact le_rfl

theorem memRead (a : Word w) (n : Nat) : Op.Within CountsUp (memRead a n) := by
  intro b
  unfold Machine.memRead
  split <;> exact le_rfl

theorem memWrite (a : Word w) (n v : Nat) : Op.Within CountsUp (memWrite a n v) := by
  intro b
  unfold Machine.memWrite
  split <;> exact le_rfl

/-- To ask the host is to count one more. -/
theorem hostAsked (b : Block w) (f : Word w) (got : List (Word w)) : CountsUp b (b.hostAsked f got) := Nat.le_succ _

theorem hostVal (f : Word w) (got : List (Word w)) (e : HostVal w) : Op.Within CountsUp (hostVal f got e) := by
  induction e with
  | lit v => exact pure v
  | got i => exact pure _
  | outside => exact fun b => hostAsked b f got
  | sum x y hx hy => exact bind hx fun _ => bind hy fun _ => pure _

theorem runActs (l : List (HostAct w)) : Op.Within CountsUp (runActs l) := by
  induction l with
  | nil => exact pure _
  | cons x k ih =>
    cases x with
    | pop => exact bind popD fun _ => ih
    | push v => exact bind (pushD _) fun _ => ih
    | read a n => exact bind (memRead _ _) fun _ => ih
    | write a n v => exact bind (memWrite _ _ _) fun _ => ih
    | hang => exact fun _ => le_rfl

theorem runHost (f : Word w) (got : List (Word w)) (p : HostProg w) : Op.Within CountsUp (runHost f got p) := by
  induction p generalizing got with
  | done => exact pure _
  | hang => exact fun _ => le_rfl
  | pop k ih => exact bind popD fun _ => ih _
  | push v k ih => exact bind (hostVal _ _ _) fun _ => bind (pushD _) fun _ => ih _
  | read a n k ih => exact bind (hostVal _ _ _) fun _ => bind (memRead _ _) fun _ => ih _
  | write a n v k ih =>
    exact bind (hostVal _ _ _) fun _ => bind (hostVal _ _ _) fun _ => bind (memWrite _ _ _) fun _ => ih _
  | ifEq x y p q ihp ihq =>
    exact bind (hostVal _ _ _) fun _ => bind (hostVal _ _ _) fun _ => Within.ite (ihp _) (ihq _)
  | free => exact fun b => (hostAsked b f got).trans (runActs _ _)

end CountsUp

/-- Where an operation that moves the block along `R` has answered, it has moved it along `R`. -/
theorem Within.of_ok {R : Block w → Block w → Prop} {op : Op w α} (hop : Op.Within R op) {b r : Block w} {a : α}
    (h : op b = .ok a r) : R b r := by
  have hb := hop b
  rwa [h] at hb

/-- Settles O37: a script of the model's form and a list of acts are both made of writes that keep all this. -/
theorem trapHostChangesNoRegisterButDp : Obligations.TrapHostChangesNoRegisterButDp := by
  unfold Obligations.TrapHostChangesNoRegisterButDp
  intro w b r f p got acts h
  have H := KeepsOutsideHost.admitsHost (w := w)
  obtain ⟨hk, hseq⟩ : KeepsOutsideHost b r ∧ CountsUp b r := by
    rcases h with h | h
    · exact ⟨Within.of_ok (Within.runHost H f got p) h, Within.of_ok (CountsUp.runHost f got p) h⟩
    · exact ⟨Within.of_ok (Within.runActs H acts) h, Within.of_ok (CountsUp.runActs acts) h⟩
  exact ⟨hk.reg, hk.cfg, hk.sst, hk.dbg, hk.act, hk.io, hseq⟩

end Sys2Proof.Machine
end

section
/-! SUPPORT. Taking an exception (60_exceptions.md): where the code goes before the frame is popped, and the two ways in which
the popping of a frame fails. After it `INIT` (70_reset_and_hazards.md), which is one write of the block. -/

namespace Sys2Proof.Machine

variable {w : WordSize}

/-! ### The code delivered, or dropped (rule R233, step 1) -/

theorem Block.delivered_room {b : Block w} (h : b.dp.toNat < b.dsize.toNat) (c : Word w) :
    b.delivered c = (b.storeWord b.dFree c).setDp (b.dp + 1) := if_pos h

theorem Block.delivered_full {b : Block w} (h : b.dsize.toNat ≤ b.dp.toNat) (c : Word w) : b.delivered c = b :=
  if_neg (not_lt.2 h)

/-- Whether delivered or dropped, the code has changed no register but `dp`. -/
theorem Block.delivered_kept (b : Block w) (c : Word w) : KeptBut [.dp] b (b.delivered c) := by
  unfold Block.delivered
  split
  · exact (b.storeWord_kept _ _).setDp _
  · exact b.setDp_kept b.dp

/-- The last steps of `Unwind`, on the block that holds the code. -/
theorem Block.handlerEntered_kept (b : Block w) (s a h : Word w) :
    KeptBut [.handlerSp, .pc, .sp] b (((b.setSp s).setPc a).setHandlerSp h) :=
  (Block.setHandlerSp_kept _ h).cons ((Block.setPc_kept _ a).cons (b.setSp_kept s))

/-! ### A frame that cannot be popped (rule R234) -/

/-- The first pop of `Unwind` fails: its own code ends the loop, with `sp` still at `handler_sp`. -/
theorem unwind_firstPop_fails {b : Block w} {c e : Word w}
    (hv : b.dp.toNat < b.dsize.toNat → b.valid b.dFree w.bytes = true)
    (hpop : popS ((b.delivered c).setSp b.handlerSp) = .error (.raise e) ((b.delivered c).setSp b.handlerSp)) :
    unwind c b = .next (.stop e, (b.delivered c).setSp b.handlerSp) := by
  obtain ⟨hreg, -⟩ := b.delivered_kept c
  have hhandler : (b.delivered c).handlerSp = b.handlerSp := hreg .handlerSp (by decide)
  unfold unwind
  rw [unwindSteps_run c hv, hhandler, hpop]

/-- The second pop of `Unwind` fails: what the first has popped stays popped (rule R236). -/
theorem unwind_secondPop_fails {b r : Block w} {a c e : Word w}
    (hv : b.dp.toNat < b.dsize.toNat → b.valid b.dFree w.bytes = true)
    (hfirst : popS ((b.delivered c).setSp b.handlerSp) = .ok a r) (hsecond : popS r = .error (.raise e) r) :
    unwind c b = .next (.stop e, r) := by
  obtain ⟨hreg, -⟩ := b.delivered_kept c
  have hhandler : (b.delivered c).handlerSp = b.handlerSp := hreg .handlerSp (by decide)
  unfold unwind
  rw [unwindSteps_run c hv, hhandler, hfirst]
  simp only
  rw [hsecond]

/-- A frame above the capacity of the return stack. -/
theorem unwind_over {b : Block w} (c : Word w)
    (hv : b.dp.toNat < b.dsize.toNat → b.valid b.dFree w.bytes = true) (h : b.ssize.toNat < b.handlerSp.toNat) :
    unwind c b = .next (.stop (ErrCode.stackOverflow.word w), (b.delivered c).setSp b.handlerSp) := by
  obtain ⟨hreg, -⟩ := b.delivered_kept c
  have hcap : (b.delivered c).ssize = b.ssize := hreg .ssize (by decide)
  refine unwind_firstPop_fails hv (popS_over ?_)
  rwa [Block.setSp_ssize, Block.setSp_sp, hcap]

/-- A frame of one word. -/
theorem unwind_short {b : Block w} (c : Word w)
    (hv : b.dp.toNat < b.dsize.toNat → b.valid b.dFree w.bytes = true) (hone : b.handlerSp.toNat = 1)
    (hcap : 1 ≤ b.ssize.toNat) (hvalid : b.valid (b.sSlot 0) w.bytes = true) :
    unwind c b = .next (.stop (ErrCode.stackUnderflow.word w), (b.delivered c).setSp 0) := by
  obtain ⟨hreg, hcfg, -⟩ := b.delivered_kept c
  have hssize : (b.delivered c).ssize = b.ssize := hreg .ssize (by decide)
  have hs0 : (b.delivered c).s0 = b.s0 := hreg .s0 (by decide)
  have hzero : b.handlerSp - 1 = 0 := BitVec.eq_of_toNat_eq (by rw [toNat_sub_one (by omega), hone]; rfl)
  have hhas : ((b.delivered c).setSp b.handlerSp).sHas 1 := by
    refine ⟨hone.ge, ?_, fun i hi => ?_⟩
    · rw [Block.setSp_sp, Block.setSp_ssize, hssize, hone]
      exact hcap
    · obtain rfl : i = 0 := by omega
      have hslot : ((b.delivered c).setSp b.handlerSp).sAddr 0 = b.sSlot 0 := by
        rw [← hzero, Block.sSlot, ← hs0]
        rfl
      rw [hslot, Block.valid, Block.setSp_cfg, hcfg]
      exact hvalid
  have hfirst := popS_ok hhas
  rw [Block.setSp_sp, Block.setSp_twice, hzero] at hfirst
  exact unwind_secondPop_fails hv hfirst (popS_empty rfl)

/-- What R234 says of the data stack and of the registers once `Unwind` has given up. -/
theorem Block.delivered_setSp_effect {b : Block w} (hm : b.mem.wf = true) (c v : Word w) :
    KeptBut [.dp, .sp] b ((b.delivered c).setSp v) ∧
      (b.dp.toNat < b.dsize.toNat → ((b.delivered c).setSp v).dp = b.dp + 1 ∧ ((b.delivered c).setSp v).dItem 0 = c ∧
        MemKeptBut b.dFree w.bytes b ((b.delivered c).setSp v)) ∧
      (b.dsize.toNat ≤ b.dp.toNat → ((b.delivered c).setSp v).dp = b.dp ∧ MemKept b ((b.delivered c).setSp v)) := by
  refine ⟨(b.delivered_kept c).trans (Block.setSp_kept _ v) (by simp) (by simp), fun hroom => ?_, fun hfull => ?_⟩
  · rw [Block.delivered_room hroom]
    exact ⟨rfl, b.dItem_pushed hm c, b.storeWord_frame _ _⟩
  · rw [Block.delivered_full hfull]
    exact ⟨rfl, fun _ => rfl⟩

/-! ### The statements of 60_exceptions.md -/

/-- Every error code of rule R230 is a small number, and so its own signed reading. -/
theorem ErrCode.word_toInt (e : ErrCode) : (e.word w).toInt = e.value := by
  cases w <;> cases e <;> decide

/-- Settles O38: `Raise` looks at `handler_sp` alone; the end of an embedder's run adds one result and nothing else. -/
theorem raiseStopsOrUnwinds : Obligations.RaiseStopsOrUnwinds := by
  unfold Obligations.RaiseStopsOrUnwinds
  intro w b c
  refine ⟨fun p hp => ?_, fun h0 => if_pos h0, fun h0 => raiseCode_handler h0 c, fun h0 hact => ?_⟩
  · rw [ErrCode.word_toInt]
    simp only [List.mem_cons, List.not_mem_nil, or_false] at hp
    rcases hp with rfl | rfl | rfl | rfl | rfl | rfl | rfl | rfl <;> rfl
  · have hstop := raiseCode_stop h0 c
    rw [stopRun_host hact] at hstop
    exact ⟨_, hstop, rfl, rfl, fun x => by rw [Block.answer_reg, Block.setAct_reg], fun _ => rfl, rfl, rfl, rfl⟩

/-- Settles O39: `unwind_ok` on the two ways the code is delivered. -/
theorem unwindEntersHandler : Obligations.UnwindEntersHandler := by
  unfold Obligations.UnwindEntersHandler
  intro w b c hm htwo hcap hv1 hv2
  refine ⟨fun hroom => ?_, fun hfull => ?_⟩
  · obtain ⟨hdepth, hvalid⟩ := hroom
    have hunwind := unwind_ok c (fun _ => hvalid) htwo hcap hv1 hv2
    rw [Block.delivered_room hdepth] at hunwind
    exact ⟨_, hunwind, rfl, b.dItem_pushed hm c, b.storeWord_frame _ _, rfl, rfl, rfl,
      ((b.storeWord_kept _ _).setDp _).trans (Block.handlerEntered_kept _ _ _ _) (by simp) (by simp)⟩
  · have hunwind := unwind_ok c (fun hroom => absurd hroom (not_lt.2 hfull)) htwo hcap hv1 hv2
    rw [Block.delivered_full hfull] at hunwind
    exact ⟨_, hunwind, rfl, rfl, rfl,
      (KeptBut.refl b).trans (b.handlerEntered_kept _ _ _) (by simp) (by simp), fun _ => rfl⟩

/-- Settles O40: a frame above the capacity fails at the first pop, a frame of one word at the second. -/
theorem faultInsideUnwindStops : Obligations.FaultInsideUnwindStops := by
  unfold Obligations.FaultInsideUnwindStops
  intro w b c hm hv
  refine ⟨fun hover => ?_, fun hone hcap hvalid => ?_⟩
  · obtain ⟨hkept, hroom, hfull⟩ := Block.delivered_setSp_effect hm c b.handlerSp
    exact ⟨_, unwind_over c hv hover, rfl, hkept, hroom, hfull⟩
  · obtain ⟨hkept, hroom, hfull⟩ := Block.delivered_setSp_effect hm c 0
    exact ⟨_, unwind_short c hv hone hcap hvalid, rfl, hkept, hroom, hfull⟩

/-! ### `INIT` (rule R260) -/

/-- Settles O50: `INIT` comes off the queue of the idle block and writes `Block.init`. -/
theorem initResetsTheBlock : Obligations.InitResetsTheBlock := by
  unfold Obligations.InitResetsTheBlock
  intro w b p cs hact hcmds
  exact ⟨_, step_hostCmd hact hcmds rfl, rfl, rfl, rfl, rfl, rfl, rfl, rfl, rfl, rfl, rfl, rfl, rfl, rfl, hact, rfl⟩

end Sys2Proof.Machine
end

section
/-! SUPPORT. `Predict()` (50_single_step.md, rule R172). With no handler active an instruction's pseudocode either completes, or
ends early in a block where still none is active, so that the run stops: an instruction that goes on has completed. Where it
completes, `pc` is what `Predict` read from the same stack slots before. -/

namespace Sys2Proof.Machine

variable {w : WordSize} {α β : Type}

/-! ### An operation that completes, or ends early with no handler active -/

/-- Run on `b`, the operation completes with `P`, or ends early with no handler active. -/
def Op.Lands (op : Op w α) (b : Block w) (P : α → Block w → Prop) : Prop :=
  match op b with
  | .ok a r => P a r
  | .error _ r => r.handlerSp = 0

section Lands
variable {P : β → Block w → Prop} {Q : α → Block w → Prop} {b : Block w}

theorem Lands.bind {x : Op w α} {f : α → Op w β} (hx : Op.Lands x b Q) (hf : ∀ a r, Q a r → Op.Lands (f a) r P) :
    Op.Lands (x >>= f) b P := by
  unfold Op.Lands at hx ⊢
  rw [Op.bind_run]
  cases h : x b with
  | ok a r => rw [h] at hx; exact hf a r hx
  | error e r => rw [h] at hx; exact hx

/-- A read of the block answers the block. -/
theorem Lands.get_bind {f : Block w → Op w β} (hf : Op.Lands (f b) b P) : Op.Lands (get >>= f) b P :=
  Lands.bind (Q := fun a r => a = b ∧ r = b) ⟨rfl, rfl⟩ fun _ _ ⟨ha, hr⟩ => ha ▸ hr ▸ hf

/-- An operation that activates no handler lands where its writes lead. -/
theorem Lands.of_within {R : Block w → Block w → Prop} {op : Op w α} (hop : Op.Within R op)
    (hquiet : ∀ r, R b r → r.handlerSp = 0) : Op.Lands op b fun _ r => R b r := by
  have hb := hop b
  unfold Op.Lands
  cases h : op b with
  | ok a r => rw [h] at hb; exact hb
  | error e r => rw [h] at hb; exact hquiet r hb

theorem Lands.mono {op : Op w β} {P' : β → Block w → Prop} (h : Op.Lands op b P) (hP : ∀ a r, P a r → P' a r) :
    Op.Lands op b P' := by
  unfold Op.Lands at h ⊢
  cases ho : op b with
  | ok a r => rw [ho] at h; exact hP a r h
  | error e r => rw [ho] at h; exact h

theorem Lands.keepsNoHandler {op : Op w α} (hop : Op.Within KeepsNoHandler op) (hb : b.handlerSp = 0) :
    Op.Lands op b fun _ r => r.handlerSp = 0 := by
  have hland := hop b hb
  unfold Op.Lands
  cases h : op b with
  | ok a r => rw [h] at hland; exact hland
  | error e r => rw [h] at hland; exact hland

/-- A pop that completes had an item to pop, and answers it. -/
theorem Lands.popD_bind {f : Word w → Op w β} (hb : b.handlerSp = 0)
    (hf : b.dHas 1 → Op.Lands (f (b.dItem 0)) (b.setDp (b.dp - 1)) P) : Op.Lands (popD >>= f) b P := by
  refine Lands.bind (Q := fun a r => b.dHas 1 ∧ a = b.dItem 0 ∧ r = b.setDp (b.dp - 1)) ?_ ?_
  · unfold Op.Lands
    rw [popD_run]
    split_ifs with hempty hover hvalid
    · exact hb
    · exact hb
    · refine ⟨⟨by omega, by omega, fun i hi => ?_⟩, rfl, rfl⟩
      obtain rfl : i = 0 := by omega
      exact hvalid
    · exact hb
  · rintro _ _ ⟨hitem, rfl, rfl⟩
    exact hf hitem

theorem Lands.popS_bind {f : Word w → Op w β} (hb : b.handlerSp = 0)
    (hf : b.sHas 1 → Op.Lands (f (b.sItem 0)) (b.setSp (b.sp - 1)) P) : Op.Lands (popS >>= f) b P := by
  refine Lands.bind (Q := fun a r => b.sHas 1 ∧ a = b.sItem 0 ∧ r = b.setSp (b.sp - 1)) ?_ ?_
  · unfold Op.Lands
    rw [popS_run]
    split_ifs with hempty hover hvalid
    · exact hb
    · exact hb
    · refine ⟨⟨by omega, by omega, fun i hi => ?_⟩, rfl, rfl⟩
      obtain rfl : i = 0 := by omega
      exact hvalid
    · exact hb
  · rintro _ _ ⟨hitem, rfl, rfl⟩
    exact hf hitem

theorem Lands.checkAligned_bind {a : Word w} {n : Nat} {f : Unit → Op w β} (hb : b.handlerSp = 0)
    (hf : Op.Lands (f ()) b P) : Op.Lands (checkAligned a n >>= f) b P := by
  refine Lands.bind (Q := fun _ r => r = b) ?_ fun _ _ hr => hr ▸ hf
  unfold Op.Lands Machine.checkAligned
  split_ifs
  · rfl
  · exact hb

/-- A push on the return stack leaves no handler active, whichever way it ends. -/
theorem Lands.pushS_bind {v : Word w} {f : Unit → Op w β} (hb : b.handlerSp = 0)
    (hf : ∀ r : Block w, r.handlerSp = 0 → Op.Lands (f ()) r P) : Op.Lands (pushS v >>= f) b P :=
  Lands.bind (Lands.keepsNoHandler (Within.pushS KeepsNoHandler.admitsPc.toAdmitsStacks v) hb) fun _ r hr => hf r hr

theorem Lands.update {g : Block w → Block w} {P : Unit → Block w → Prop} (h : P () (g b)) :
    Op.Lands (Machine.update g) b P := h

theorem Lands.update_bind {g : Block w → Block w} {f : Unit → Op w β} (hf : Op.Lands (f ()) (g b) P) :
    Op.Lands (Machine.update g >>= f) b P :=
  Lands.bind (Q := fun _ r => r = g b) rfl fun _ _ hr => hr ▸ hf

/-- The run goes on only where the pseudocode completes: with no handler active an early end stops it. -/
theorem Lands.of_perform {op : Op w Unit} {P : Unit → Block w → Prop} (hop : Op.Lands op b P) {r : Block w} {c : Caller}
    (h : perform ⟨w, b⟩ op = .next ⟨w, r⟩) (hact : r.act = .run c) : P () r := by
  unfold Op.Lands at hop
  cases ho : op b with
  | ok a q =>
    rw [ho] at hop
    rw [perform_ok ho] at h
    cases h
    exact hop
  | error e q =>
    rw [ho] at hop
    cases e with
    | raise d =>
      rw [perform_raise ho, raiseCode_stop hop] at h
      cases h
      exact absurd hact (stopRun_act_ne q d c)
    | stop d =>
      rw [perform_stop ho] at h
      cases h
      exact absurd hact (stopRun_act_ne q d c)
    | refuse x => rw [perform_refuse ho] at h; cases h
    | stuck f => rw [perform, ho] at h; cases h

end Lands

/-! ### What `Predict` answers, by the operand it needs (rule R172) -/

section Target
variable {b : Block w} (next : Word w)

theorem Block.dok_of_dHas {k : Nat} (h : b.dHas k) : b.dok k = true := by
  obtain ⟨hdepth, hcap, -⟩ := h
  simp [Block.dok, hdepth, hcap]

theorem readD_top (h : b.dHas 1) : readD (b.dp - 1) b = .ok (b.dItem 0) b := by
  obtain ⟨-, -, hvalid⟩ := h
  exact readD_ok (hvalid 0 Nat.zero_lt_one)

theorem predictTarget_jumpzi (n : Int) (h : b.dHas 1) :
    predictTarget (.jumpzi n) next b = .ok (some (if b.dItem 0 = 0 then relTarget next n else next)) b := by
  refine (Op.bind_ok (Op.get_run b)).trans ?_
  simp only [Block.dok_of_dHas h, if_true]
  exact Op.bind_ok (readD_top h)

/-- `JUMP`, `CALL` and `CATCH` go to the address on top. -/
theorem predictTarget_top {i : Instr} (hi : i = .jump ∨ i = .call ∨ i = .catch_) (h : b.dHas 1) :
    predictTarget i next b = .ok (some (b.dItem 0)) b := by
  rcases hi with rfl | rfl | rfl
  all_goals
    refine (Op.bind_ok (Op.get_run b)).trans ?_
    simp only [Block.dok_of_dHas h, if_true]
    exact Op.bind_ok (readD_top h)

theorem predictTarget_jumpz (h : b.dHas 2) :
    predictTarget .jumpz next b = .ok (some (if b.dItem 1 = 0 then b.dItem 0 else next)) b := by
  have hsecond : readD (b.dp - 2) b = .ok (b.dItem 1) b := by
    obtain ⟨-, -, hvalid⟩ := h
    exact readD_ok (hvalid 1 Nat.one_lt_two)
  refine (Op.bind_ok (Op.get_run b)).trans ?_
  simp only [Block.dok_of_dHas h, if_true]
  refine (Op.bind_ok hsecond).trans ?_
  split_ifs
  · exact Op.bind_ok (readD_top (Block.dHas_le h Nat.one_lt_two.le))
  · rfl

theorem predictTarget_ret (h : b.sHas 1) : predictTarget .ret next b = .ok (some (b.sItem 0)) b := by
  obtain ⟨hdepth, hcap, hvalid⟩ := h
  refine (Op.bind_ok (Op.get_run b)).trans ?_
  simp only [hdepth, hcap, and_self, if_true]
  exact Op.bind_ok (readS_ok (hvalid 0 Nat.zero_lt_one))

/-- An instruction that is no control transfer and no `THROW` is followed by the next word. -/
theorem predictTarget_plain {i : Instr} (hi : Instr.isTransfer i = false) (ht : i ≠ .throw_) :
    predictTarget i next b = .ok (some next) b := by
  cases i
  case throw_ => exact absurd rfl ht
  case calli | jumpi | jumpzi | jump | jumpz | call | break_ | catch_ | ret => cases hi
  all_goals rfl

/-- `Predict()` on an aligned word that decodes to `i`, with an aligned target. -/
theorem predict_ok {i : Instr} {t : Word w} (ha : aligned b.pc w.bytes = true) (hv : b.valid b.pc w.bytes = true)
    (hd : decode w (b.word b.pc) = .ok i) (ht : predictTarget i (b.pc + w.step) b = .ok (some t) b)
    (hta : aligned t w.bytes = true) : predict b = .ok (some t, decide (i = .ret)) b := by
  have hkeep : keepAligned (some t) = some t := if_pos hta
  refine (Op.bind_ok (Op.get_run b)).trans ?_
  simp only [ha, if_true]
  refine (Op.bind_ok (readWord_ok hv)).trans ?_
  simp only [hd]
  refine (Op.bind_ok ht).trans ?_
  rw [hkeep]
  rfl

end Target

/-! ### Every instruction lands where `Predict` says -/

/-- `pc` has not changed, and no handler is active if none was. -/
structure KeepsPc (b r : Block w) : Prop where
  pc : r.pc = b.pc
  noHandler : KeepsNoHandler b r

/-- Neither the stacks nor memory touch `pc` or `handler_sp`. -/
theorem KeepsPc.admitsStacks : AdmitsStacks (KeepsPc (w := w)) where
  refl _ := ⟨rfl, id⟩
  trans hab hbc := ⟨hbc.pc.trans hab.pc, fun h => hbc.noHandler (hab.noHandler h)⟩
  setDp _ _ := ⟨rfl, id⟩
  poke _ _ _ _ := ⟨rfl, id⟩
  host _ _ _ := ⟨rfl, id⟩
  setSp _ _ := ⟨rfl, id⟩

section Landing
variable {b : Block w} (hb : b.handlerSp = 0) (next : Word w)

/-- Two pops, one after the other, had two items. -/
theorem Block.dHas_two (h : b.dHas 1) (h' : (b.setDp (b.dp - 1)).dHas 1) : b.dHas 2 := by
  obtain ⟨hdepth, hcap, hvalid⟩ := h
  obtain ⟨hdepth', -, hvalid'⟩ := h'
  rw [Block.setDp_dp, toNat_sub_one (by omega)] at hdepth'
  refine ⟨by omega, hcap, fun i hi => ?_⟩
  obtain rfl | rfl : i = 0 ∨ i = 1 := by omega
  · exact hvalid 0 Nat.zero_lt_one
  · rw [← Block.dAddr_popped]
    exact hvalid' 0 Nat.zero_lt_one

include hb

/-- The control transfers: the target is read from the slot that `Predict` reads, or computed from the same word. -/
theorem exec_transfer_lands {i : Instr} (hi : Instr.isTransfer i = true) :
    ∃ op : Op w Unit, exec i ⟨w, b.setPc next⟩ = perform ⟨w, b.setPc next⟩ op ∧
      Op.Lands op (b.setPc next) fun _ r => predictTarget i next b = .ok (some r.pc) b := by
  have hq : (b.setPc next).handlerSp = 0 := hb
  cases i
  case calli n =>
    exact ⟨_, exec_calli n _, Lands.get_bind (Lands.pushS_bind hq fun _ _ => rfl)⟩
  case jumpi n =>
    exact ⟨update fun r => r.setPc (relTarget next n), rfl, rfl⟩
  case jumpzi n =>
    refine ⟨_, exec_jumpzi n _, Lands.popD_bind hq fun hitem => Lands.get_bind (Lands.update ?_)⟩
    have hflag : (b.setPc next).dItem 0 = b.dItem 0 := rfl
    rw [predictTarget_jumpzi (b := b) next n hitem, hflag]
    split_ifs <;> rfl
  case jump =>
    exact ⟨_, exec_jump _, Lands.popD_bind hq fun hitem =>
      Lands.checkAligned_bind hq (predictTarget_top next (.inl rfl) hitem)⟩
  case jumpz =>
    refine ⟨_, exec_jumpz _, Lands.popD_bind hq fun hitem => Lands.popD_bind hq fun hitem' => ?_⟩
    have hpredict := predictTarget_jumpz next (Block.dHas_two (b := b) hitem hitem')
    have hflag : ((b.setPc next).setDp ((b.setPc next).dp - 1)).dItem 0 = b.dItem 1 :=
      (b.setPc next).dItem_popped 0
    rw [hflag]
    split_ifs with hzero
    · rw [if_pos hzero] at hpredict
      exact Lands.checkAligned_bind hq hpredict
    · rw [if_neg hzero] at hpredict
      exact hpredict
  case call =>
    exact ⟨_, exec_call _, Lands.popD_bind hq fun hitem => Lands.checkAligned_bind hq
      (Lands.get_bind (Lands.pushS_bind hq fun _ _ => predictTarget_top next (.inr (.inl rfl)) hitem))⟩
  case ret =>
    refine ⟨_, exec_ret _, Lands.popS_bind hq fun hitem => Lands.checkAligned_bind hq
      (Lands.update_bind (Lands.get_bind ?_))⟩
    split_ifs with hin
    · exact absurd hin (not_inRegion_of_noHandler hq)
    · exact predictTarget_ret next hitem
  case catch_ =>
    refine ⟨_, exec_catch _, Lands.popD_bind hq fun hitem => Lands.checkAligned_bind hq (Lands.get_bind ?_)⟩
    split_ifs
    · exact hq
    · exact Lands.pushS_bind hq fun _ hr => Lands.pushS_bind hr fun _ _ =>
        predictTarget_top next (.inr (.inr rfl)) hitem
  case break_ =>
    exact ⟨update (fun r => r.setPc (r.pc - w.step)) >>= fun _ => stopLoop (ErrCode.break_.word w), rfl,
      Lands.update_bind hq⟩
  all_goals cases hi

/-- `THROW` never completes; the rest leave `pc` at the following word. -/
theorem exec_lands (i : Instr) :
    ∃ op : Op w Unit, exec i ⟨w, b.setPc next⟩ = perform ⟨w, b.setPc next⟩ op ∧
      Op.Lands op (b.setPc next) fun _ r => predictTarget i next b = .ok (some r.pc) b := by
  have hq : (b.setPc next).handlerSp = 0 := hb
  cases hi : Instr.isTransfer i with
  | true => exact exec_transfer_lands hb next hi
  | false =>
    by_cases ht : i = .throw_
    · subst ht
      have hcode := Lands.keepsNoHandler (Within.popCode KeepsNoHandler.admitsPc.toAdmitsHost) hq
      exact ⟨_, exec_throw _, Lands.bind hcode fun _ _ hr => hr⟩
    · obtain ⟨op, hexec, hop⟩ := exec_stacks KeepsPc.admitsStacks i (b.setPc next) hi
      refine ⟨op, hexec, Lands.mono (Lands.of_within hop fun r hr => hr.noHandler hq) fun _ r hr => ?_⟩
      rw [hr.pc]
      exact predictTarget_plain next hi ht

end Landing

/-- Settles O52: a run that goes on has completed its instruction, and `pc` is then where `Predict` said; it is aligned by rule
R46 (`instructionsKeepPcAligned`). -/
theorem predictionIsRight : Obligations.PredictionIsRight := by
  unfold Obligations.PredictionIsRight
  intro w b r c i _ hhandler hpc hv hd hexec hact
  have ha : aligned b.pc w.bytes = true := (aligned_iff _ _).2 hpc
  have hnext : aligned (b.pc + w.step) w.bytes = true := aligned_add ha (by simpa using mul_step_toNat_mod (w := w) 1)
  obtain ⟨op, hop, hland⟩ := exec_lands hhandler (b.pc + w.step) i
  have htarget := Lands.of_perform hland (hop ▸ hexec) hact
  exact predict_ok ha hv hd htarget (instructionsKeepPcAligned w (b.setPc (b.pc + w.step)) i _ hhandler hnext hexec)

end Sys2Proof.Machine
end

section
/-! SUPPORT. The phases of `STEP` in patch mode (50_single_step.md, rules R173 to R179): what ARM, DISARM, `launch` and FIXUP
leave, and the nine steps over a `JUMPI` put together in three groups: up to the run, the run, and after it. -/

namespace Sys2Proof.Machine

variable {w : WordSize}

@[simp] theorem Block.setSst_reg (b : Block w) (r : SstRegs w) (x : Reg) : (b.setSst r).reg x = b.reg x := by
  cases x <;> rfl

/-! ### ARM, DISARM, the start of the run, FIXUP (rules R173 to R176) -/

/-- Settles O53: the phase is the patch, or its removal, and the move to the next phase; a `BREAK` alone moves `pc`. -/
theorem sstArmsAndDisarms : Obligations.SstArmsAndDisarms := by
  unfold Obligations.SstArmsAndDisarms
  intro w b code hm
  refine ⟨fun t hact htarget hv => ?_, fun hact hnone => ?_, fun t hact htarget hv => ?_, fun hact hnone => ?_⟩
  · refine ⟨_, step_arm hact (armPatch_some htarget hv), rfl, ?_, rfl, Block.storeWord_frame _ t _, fun x => ?_, rfl, rfl,
      rfl⟩
    · exact Block.word_storeWord _ hm t (breakWord w)
    · rw [Block.setAct_reg, Block.storeWord_reg, Block.setSst_reg]
  · exact ⟨_, step_arm hact (armPatch_none hnone), rfl, rfl, fun _ => rfl, fun x => b.setAct_reg _ x, rfl, rfl, rfl⟩
  · have hstep := step_disarm hact (disarmPatch_some code htarget hv)
    have hword : (b.storeWord t b.sst.savedWord).word t = b.sst.savedWord := b.word_storeWord hm t _
    by_cases hbreak : code = ErrCode.break_.word w
    · rw [if_pos hbreak] at hstep
      refine ⟨_, hstep, rfl, hword, b.storeWord_frame t _, fun x hx => ?_, fun _ => rfl, fun hne => absurd hbreak hne, rfl,
        rfl, rfl, rfl⟩
      rw [Block.setAct_reg, Block.setPc_reg _ _ _ hx, Block.storeWord_reg]
    · rw [if_neg hbreak] at hstep
      refine ⟨_, hstep, rfl, hword, b.storeWord_frame t _, fun x _ => ?_, fun heq => absurd heq hbreak, fun _ => rfl, rfl,
        rfl, rfl, rfl⟩
      rw [Block.setAct_reg, Block.storeWord_reg]
  · exact ⟨_, step_disarm hact (disarmPatch_none code hnone), rfl, fun _ => rfl, fun x => b.setAct_reg _ x, rfl, rfl, rfl,
      rfl⟩

/-- Settles O54: `launch` moves `handler_sp` to `sst_saved_h`, FIXUP moves it back or into the frame. -/
theorem sstSavesAndRestoresHandler : Obligations.SstSavesAndRestoresHandler := by
  unfold Obligations.SstSavesAndRestoresHandler
  intro w b code hm
  refine ⟨fun hact => ?_, fun hact hzero => ?_, fun hact hframe hv => ?_⟩
  · refine ⟨_, step_launch hact, rfl, rfl, rfl, fun _ => rfl, fun x hx => ?_, rfl, rfl, rfl⟩
    rw [Block.setAct_reg, Block.setHandlerSp_reg _ _ _ hx, Block.setSst_reg]
  · refine ⟨_, step_fixup hact (fixFrame_restores hzero), rfl, rfl, fun _ => rfl, fun x hx => ?_, rfl, rfl, rfl, rfl⟩
    rw [Block.setAct_reg, Block.setHandlerSp_reg _ _ _ hx]
  · refine ⟨_, step_fixup hact (fixFrame_writes hframe hv), rfl, b.word_storeWord hm _ _, fun x => ?_,
      b.storeWord_frame _ _, rfl, rfl, rfl, rfl⟩
    rw [Block.setAct_reg, Block.storeWord_reg]

/-! ### The target of a relative jump (rules R65, R70) -/

/-- The operand counts from the following word. -/
theorem relTarget_following (pc : Word w) (n : Int) : relTarget (pc + w.step) n = relTarget pc (n + 1) := by
  have hsucc : BitVec.ofInt w.xlen (n + 1) = BitVec.ofInt w.xlen n + 1 := BitVec.ofInt_add n 1
  rw [relTarget, relTarget, hsucc, mul_add, mul_one, add_comm (w.step * _), add_assoc]

/-- No operand that a word holds, but -1, makes a `JUMPI` jump to itself: the field is too narrow for the target to wrap. -/
theorem relTarget_following_ne {pc : Word w} {n : Int} (hfit : fitsAbove w 4 n = true) (hn : n ≠ -1) :
    relTarget (pc + w.step) n ≠ pc := by
  intro h
  obtain ⟨hge, hlt⟩ := (fitsAbove_iff 4 n).1 hfit
  rw [relTarget_following, relTarget] at h
  have hzero : BitVec.ofInt w.xlen (w.bytes * (n + 1)) = 0 := by
    rw [BitVec.ofInt_mul, BitVec.ofInt_natCast]
    exact left_eq_add.1 h.symm
  have hnat := congrArg BitVec.toInt hzero
  rw [BitVec.toInt_ofInt] at hnat
  cases w <;> simp [Int.bmod] at hnat hge hlt <;> omega

/-! ### A whole `STEP` over a jump (rules R171, R179, R180) -/

/-- A run cut in two. -/
theorem run_append (M : Host.Core) {m : Nat} (n : Nat) {s t : M.State} (h : M.run m s = .next t) :
    M.run (m + n) s = M.run n t := by
  induction m generalizing s with
  | zero => cases h; rw [Nat.zero_add]
  | succ m ih =>
    cases hs : M.step s with
    | next s' =>
      rw [run_succ M m hs] at h
      rw [Nat.succ_add, run_succ M (m + n) hs]
      exact ih h
    | fault f => rw [Host.Core.run, hs] at h; cases h
    | refused q => rw [Host.Core.run, hs] at h; cases h

/-- SST's registers in a step whose target is `t` and whose instruction is no `RET`. -/
def Block.sstArmed (b : Block w) (t : Word w) : SstRegs w :=
  { target := some t, savedWord := b.word t, savedH := b.handlerSp, isRet := false }

/-- The block at the start of the run: patched, with `handler_sp` saved and cleared (rules R173, R174). -/
def Block.launched (b : Block w) (t : Word w) : Block w :=
  (((b.setSst (b.sstArmed t)).storeWord t (breakWord w)).setHandlerSp 0).setAct (.run .sst)

/-- PREDICT, ARM and `launch`. -/
theorem run_toLaunch {b : Block w} {t : Word w} (hact : b.act = .sst .predict) (hp : predict b = .ok (some t, false) b)
    (hv : b.valid t w.bytes = true) :
    Host.Core.run Sys2Proof.core 3 (⟨w, b⟩ : State) = .next (⟨w, b.launched t⟩ : State) := by
  have hpredict := step_predict hact hp
  have harm := step_arm (b := (b.setSst { b.sst with target := some t, isRet := false }).setAct (.sst .arm)) rfl
    (armPatch_some rfl hv)
  have hlaunch := step_launch (b := ((b.setSst
    { b.sst with target := some t, savedWord := b.word t, isRet := false }).storeWord t (breakWord w)).setAct
    (.sst .launch)) rfl
  exact (run_step 2 hpredict).trans ((run_step 1 harm).trans (run_step 0 hlaunch))

/-- The word `0x25F` is `BREAK` (rule R72). -/
theorem decode_breakWord : decode w (breakWord w) = .ok .break_ := decode_insnWord (n := 0x25) rfl

section Run
variable {b : Block w} {t : Word w} (hm : b.mem.wf = true)

/-- The jump's own word is not the patched one, so it runs as it stood (rule R65). -/
theorem step_launchedJump {n : Int} (ha : aligned b.pc w.bytes = true) (hv : b.valid b.pc w.bytes = true)
    (hd : decode w (b.word b.pc) = .ok (.jumpi n)) (ht : relTarget (b.pc + w.step) n = t) (hne : t ≠ b.pc) :
    step ⟨w, b.launched t⟩ = .next ⟨w, (b.launched t).setPc t⟩ := by
  have hapart : (t - b.pc).toNat % w.bytes = 0 := by
    rw [← ht, relTarget_following, relTarget, add_sub_cancel_left, mul_comm]
    exact mul_step_toNat_mod _
  have hword : (b.launched t).word b.pc = b.word b.pc :=
    (b.setSst (b.sstArmed t)).word_storeWord_other (breakWord w) hapart hne
  rw [step_eq_execOne (b := b.launched t) (c := .sst) rfl (by decide),
    execOne_decoded (b := b.launched t) (i := .jumpi n) ha hv (hword ▸ hd), exec_jumpi]
  exact congrArg (fun a => Host.Outcome.next (⟨w, (b.launched t).setPc a⟩ : State)) ht

include hm

/-- At the target lies the patch, which stops the run with `pc` at itself (rule R136). -/
theorem step_launchedBreak (hta : aligned t w.bytes = true) (hvt : b.valid t w.bytes = true) :
    step ⟨w, (b.launched t).setPc t⟩ =
      .next ⟨w, ((b.launched t).setPc t).setAct (.sst (.disarm (ErrCode.break_.word w)))⟩ := by
  have hpatched : ((b.launched t).setPc t).word t = breakWord w :=
    (b.setSst (b.sstArmed t)).word_storeWord hm t (breakWord w)
  rw [step_eq_execOne (b := (b.launched t).setPc t) (c := .sst) rfl (by decide),
    execOne_decoded (b := (b.launched t).setPc t) (i := .break_) hta hvt (hpatched ▸ decode_breakWord), exec_break]
  exact congrArg (fun a => Host.Outcome.next (⟨w, ((b.launched t).setPc a).setAct (.sst (.disarm _))⟩ : State))
    (add_sub_cancel_right t w.step)

end Run

/-- The block when such a `STEP` has returned: as before, but for `pc`, SST's registers and the result. -/
def Block.steppedTo (b : Block w) (t : Word w) : Block w :=
  (((b.setSst (b.sstArmed t)).setPc t).setAct .idle).answer (.word (ErrCode.break_.word w))

/-- The patch is gone once the saved word is stored over it. -/
theorem Block.patch_undone {b : Block w} (hm : b.mem.wf = true) (t : Word w) :
    (b.storeWord t (breakWord w)).storeWord t (b.word t) = b := by
  rw [b.storeWord_storeWord hm, b.storeWord_word hm]

/-- DISARM, FIXUP, REPLAY, which has nothing to replay, and DONE. -/
theorem run_fromBreak {b : Block w} (hm : b.mem.wf = true) {t : Word w} (hvt : b.valid t w.bytes = true) :
    Host.Core.run Sys2Proof.core 4
        (⟨w, ((b.launched t).setPc t).setAct (.sst (.disarm (ErrCode.break_.word w)))⟩ : State) =
      .next (⟨w, b.steppedTo t⟩ : State) := by
  have hdisarm := step_disarm (b := ((b.launched t).setPc t).setAct (.sst (.disarm (ErrCode.break_.word w)))) rfl
    (disarmPatch_some _ rfl hvt)
  rw [if_pos rfl] at hdisarm
  have hrestored : (((b.launched t).setPc t).setAct (.sst (.disarm (ErrCode.break_.word w)))).storeWord t (b.word t) =
      (((b.setSst (b.sstArmed t)).setHandlerSp 0).setPc t).setAct (.sst (.disarm (ErrCode.break_.word w))) :=
    congrArg (fun q : Block w => (((q.setSst (b.sstArmed t)).setHandlerSp 0).setPc t).setAct (.sst (.disarm _)))
      (Block.patch_undone hm t)
  have hfixup := step_fixup (b := (((b.setSst (b.sstArmed t)).setHandlerSp 0).setPc t).setAct
    (.sst (.fixup (ErrCode.break_.word w)))) rfl (fixFrame_restores rfl)
  have hreplay : step ⟨w, ((b.setSst (b.sstArmed t)).setPc t).setAct (.sst (.replay (ErrCode.break_.word w)))⟩ =
      .next ⟨w, ((b.setSst (b.sstArmed t)).setPc t).setAct (.sst (.done (ErrCode.break_.word w)))⟩ := by
    rw [step_replay (b := ((b.setSst (b.sstArmed t)).setPc t).setAct (.sst (.replay (ErrCode.break_.word w)))) rfl,
      sstReplay, if_pos rfl]
    exact if_neg (by simp [Block.sstArmed])
  have hdone := step_done (b := ((b.setSst (b.sstArmed t)).setPc t).setAct (.sst (.done (ErrCode.break_.word w)))) rfl
  rw [show (((b.launched t).setPc t).setAct (.sst (.disarm (ErrCode.break_.word w)))).sst.savedWord = b.word t from rfl,
    hrestored] at hdisarm
  exact (run_step 3 hdisarm).trans ((run_step 2 hfixup).trans ((run_step 1 hreplay).trans (run_step 0 hdone)))

/-- Settles O55: three steps to the start of the run, two in it, four after it. -/
theorem patchedStepOverJump : Obligations.PatchedStepOverJump := by
  unfold Obligations.PatchedStepOverJump
  intro w b n hm hact hpc hd hn hv hvt
  obtain ⟨t, ht⟩ : ∃ t, relTarget (b.pc + w.step) n = t := ⟨_, rfl⟩
  rw [← relTarget_eq, ← relTarget_following, ht] at hvt ⊢
  have ha : aligned b.pc w.bytes = true := (aligned_iff _ _).2 hpc
  have hta : aligned t w.bytes = true := by
    rw [← ht, relTarget_following]
    exact aligned_relTarget ha _
  have hne : t ≠ b.pc := by
    obtain ⟨hfit, -⟩ := decodeThenEncode w _ _ hd
    exact ht ▸ relTarget_following_ne hfit hn
  have hpredict : predict b = .ok (some t, false) b :=
    predict_ok (i := .jumpi n) ha hv hd (by rw [← ht]; rfl) hta
  refine ⟨b.steppedTo t, ?_, rfl, rfl, fun x hx => ?_, fun _ => rfl, rfl⟩
  · calc Host.Core.run Sys2Proof.core 9 (⟨w, b⟩ : State)
        = Host.Core.run Sys2Proof.core 6 (⟨w, b.launched t⟩ : State) :=
          run_append Sys2Proof.core 6 (run_toLaunch hact hpredict hvt)
      _ = Host.Core.run Sys2Proof.core 4
            (⟨w, ((b.launched t).setPc t).setAct (.sst (.disarm (ErrCode.break_.word w)))⟩ : State) :=
          (run_step 5 (step_launchedJump ha hv hd ht hne)).trans (run_step 4 (step_launchedBreak hm hta hvt))
      _ = .next (⟨w, b.steppedTo t⟩ : State) := run_fromBreak hm hvt
  · rw [Block.steppedTo, Block.answer_reg, Block.setAct_reg, Block.setPc_reg _ _ _ hx, Block.setSst_reg]

end Sys2Proof.Machine
end

section
/-! SUPPORT. The debug stub (55_debug_stub.md): the receiver byte by byte over a whole frame, what each command can write, and
the report of a stop. -/

namespace Sys2Proof.Machine

variable {w : WordSize}

@[simp] theorem Block.setDbg_reg (b : Block w) (d : DbgRegs) (x : Reg) : (b.setDbg d).reg x = b.reg x := by
  cases x <;> rfl

@[simp] theorem Block.emit_reg (b : Block w) (bs : List Byte) (x : Reg) : (b.emit bs).reg x = b.reg x := b.setIo_reg _ x

@[simp] theorem Block.reply_reg (b : Block w) (p : List Byte) (x : Reg) : (b.reply p).reg x = b.reg x :=
  ((b.setDbg _).setAct_reg _ x).trans (b.setDbg_reg _ x)

@[simp] theorem Block.leave_reg (b : Block w) (r : HostResult w) (x : Reg) : (b.leave r).reg x = b.reg x :=
  ((b.setAct .idle).answer_reg r x).trans (b.setAct_reg .idle x)

/-! ### A whole frame at the receiver (rules R191 to R195) -/

/-- The block in the middle of a packet: the receiver's registers, and the input still to come. -/
def Block.receiving (b : Block w) (rx : RxState) (buf : List Byte) (sum : Byte) (input : List Byte) : Block w :=
  (b.taken input).setDbg { b.dbg with buf := buf, sum := sum, rx := rx }

section Frame
variable {b : Block w} (ha : b.act = .dbg .recv) (x : Byte) (p buf xs : List Byte) (sum : Byte)
include ha

/-- A payload byte that fits is appended and summed (rule R193). -/
theorem step_payloadByte (hstart : x ≠ ascii '$') (hend : x ≠ ascii '#') (hfits : buf.length ≠ b.cfg.bufMax) :
    step ⟨w, b.receiving .data buf sum (x :: xs)⟩ = .next ⟨w, b.receiving .data (buf ++ [x]) (sum + x) xs⟩ := by
  rw [step_recv (b := b.receiving .data buf sum (x :: xs)) ha rfl,
    receive_data_byte (b := (b.receiving .data buf sum (x :: xs)).taken xs) rfl hstart hend hfits]
  rfl

/-- The payload, whatever was in the buffer before it. -/
theorem run_payload (hstart : ascii '$' ∉ p) (hend : ascii '#' ∉ p) (hfits : buf.length + p.length ≤ b.cfg.bufMax) :
    Host.Core.run Sys2Proof.core p.length (⟨w, b.receiving .data buf sum (p ++ xs)⟩ : State) =
      .next (⟨w, b.receiving .data (buf ++ p) (p.foldl (· + ·) sum) xs⟩ : State) := by
  induction p generalizing buf sum with
  | nil => rw [List.append_nil]; rfl
  | cons y p ih =>
    obtain ⟨hstart', hstart⟩ := List.ne_and_not_mem_of_not_mem_cons hstart
    obtain ⟨hend', hend⟩ := List.ne_and_not_mem_of_not_mem_cons hend
    rw [List.length_cons] at hfits ⊢
    have hbyte := step_payloadByte ha y buf (p ++ xs) sum hstart'.symm hend'.symm (by omega)
    have hrest := ih (buf ++ [y]) (sum + y) hstart hend (by rw [List.length_append, List.length_singleton]; omega)
    rw [List.append_assoc, List.singleton_append] at hrest
    exact (run_step _ hbyte).trans hrest

/-- `#` and two digits that name the sum: the packet is accepted (rules R193, R195). -/
theorem run_checksum :
    Host.Core.run Sys2Proof.core 3 (⟨w, b.receiving .data buf sum (ascii '#' :: hex2 sum.toNat ++ xs)⟩ : State) =
      .next (⟨w, ((b.receiving (.ck2 (some (sum.toNat / 16 % 16))) buf sum xs).emit [ascii '+']).setAct
        (.dbg .dispatch)⟩ : State) := by
  have hsum : sum.toNat < 256 := sum.isLt
  have hhigh : hexVal (hexDigit (sum.toNat / 16 % 16)) = some (sum.toNat / 16 % 16) := hexVal_hexDigit (by omega)
  have hlow : hexVal (hexDigit (sum.toNat % 16)) = some (sum.toNat % 16) := hexVal_hexDigit (by omega)
  have hend : step ⟨w, b.receiving .data buf sum (ascii '#' :: hex2 sum.toNat ++ xs)⟩ =
      .next ⟨w, b.receiving .ck1 buf sum (hex2 sum.toNat ++ xs)⟩ := by
    rw [step_recv (b := b.receiving .data buf sum (ascii '#' :: hex2 sum.toNat ++ xs)) ha rfl,
      receive_data_end (b := (b.receiving .data buf sum _).taken _) rfl]
    rfl
  have hfirst : step ⟨w, b.receiving .ck1 buf sum (hex2 sum.toNat ++ xs)⟩ =
      .next ⟨w, b.receiving (.ck2 (some (sum.toNat / 16 % 16))) buf sum (hexDigit (sum.toNat % 16) :: xs)⟩ := by
    rw [step_recv (b := b.receiving .ck1 buf sum (hex2 sum.toNat ++ xs)) ha rfl,
      receive_ck1 (b := (b.receiving .ck1 buf sum _).taken _) rfl, hhigh]
    rfl
  have hsecond : step ⟨w, b.receiving (.ck2 (some (sum.toNat / 16 % 16))) buf sum (hexDigit (sum.toNat % 16) :: xs)⟩ =
      .next ⟨w, ((b.receiving (.ck2 (some (sum.toNat / 16 % 16))) buf sum xs).emit [ascii '+']).setAct
        (.dbg .dispatch)⟩ := by
    have hmatch : 16 * (sum.toNat / 16 % 16) + sum.toNat % 16 = sum.toNat := by omega
    rw [step_recv (b := b.receiving (.ck2 (some (sum.toNat / 16 % 16))) buf sum (hexDigit (sum.toNat % 16) :: xs)) ha
        rfl,
      receive_ck2_match (b := (b.receiving _ buf sum _).taken _) rfl hlow hmatch]
    rfl
  exact (run_step 2 hend).trans ((run_step 1 hfirst).trans (run_step 0 hsecond))

end Frame

/-- Settles O56: the `$`, the payload by induction on it, then `#` and the two digits. -/
theorem receiverTakesFrame : Obligations.ReceiverTakesFrame := by
  unfold Obligations.ReceiverTakesFrame
  intro w b p rest hact hidle hstart hend hlen hinput
  have hdollar : step ⟨w, b⟩ =
      .next ⟨w, b.receiving .data [] 0 (p ++ (ascii '#' :: hex2 (checksum p).toNat ++ rest))⟩ := by
    have hinput' : b.io.rxBytes = ascii '$' :: (p ++ (ascii '#' :: hex2 (checksum p).toNat ++ rest)) := by
      rw [hinput]
      simp [frame]
    rw [step_recv hact hinput',
      receive_idle_start (b := b.taken (p ++ (ascii '#' :: hex2 (checksum p).toNat ++ rest))) hidle]
    rfl
  have hpayload := run_payload hact p [] (ascii '#' :: hex2 (checksum p).toNat ++ rest) 0 hstart hend
    (by rwa [List.length_nil, Nat.zero_add])
  have hrun := (run_step _ hdollar).trans ((run_append Sys2Proof.core 3 hpayload).trans
    (run_checksum hact p rest (checksum p)))
  refine ⟨_, hrun, rfl, rfl, rfl, rfl, rfl, rfl, fun x => ?_, rfl, rfl, rfl⟩
  rw [Block.setAct_reg, Block.emit_reg, Block.receiving, Block.setDbg_reg, Block.setIo_reg]

/-- Settles O57: whichever digit is at fault, the receiver answers `-` and begins again. -/
theorem badChecksumIsRejected : Obligations.BadChecksumIsRejected := by
  unfold Obligations.BadChecksumIsRejected
  intro w b x xs hi hact hrx hinput hbad
  have hstep := step_recv hact hinput
  rw [receive_ck2_reject (b := b.taken xs) hrx hbad] at hstep
  refine ⟨_, hstep, hact, rfl, rfl, fun y => ?_, rfl, rfl, rfl⟩
  rw [Block.emit_reg, Block.setDbg_reg, Block.setIo_reg]

/-! ### Registers read and written back (rules R197, R206, R207) -/

theorem unhex_hexText (bs : List Byte) : unhex (hexText bs) = some bs := by
  induction bs with
  | nil => rfl
  | cons x bs ih =>
    rw [hexText_cons, unhex_hex2, ih, Option.map_some, BitVec.ofNat_toNat, BitVec.setWidth_eq]

/-- `G` with as many digits as the registers have. -/
theorem cmdWriteRegs_ok {args bs : List Byte} (hbytes : unhex args = some bs) (hlen : args.length = 16 * w.bytes)
    (b : Block w) : cmdWriteRegs args b = .ok () ((b.setRegs regOrder bs).reply msgOk) := by
  unfold cmdWriteRegs
  rw [hbytes]
  simp only [if_pos hlen]
  rfl

/-- Settles O58: the register text reads back as the registers' bytes, and those write every register with its own value. -/
theorem readThenWriteRegistersIsIdentity : Obligations.ReadThenWriteRegistersIsIdentity := by
  unfold Obligations.ReadThenWriteRegistersIsIdentity
  refine ⟨unhex_hexText, fun w b => ⟨b.regBlock_length, ?_⟩⟩
  have hbytes : unhex b.regBlock = some (b.regBytes regOrder) := by rw [b.regBlock_eq, unhex_hexText]
  have hwrite := cmdWriteRegs_ok hbytes b.regBlock_length b
  rwa [b.setRegs_regBytes] at hwrite

/-! ### What a command can write (rules R200 to R213, R218) -/

/-- No register and no byte of memory has changed. -/
structure Untouched (b r : Block w) : Prop where
  reg : ∀ x : Reg, r.reg x = b.reg x
  mem : r.mem = b.mem

theorem Untouched.reply (b : Block w) (p : List Byte) : Untouched b (b.reply p) := ⟨b.reply_reg p, rfl⟩

/-- What a command that completes has done: nothing to the registers and to memory, or what its letter says it may. -/
inductive CommandEffect (b r : Block w) : List Byte → Prop where
  | none (payload : List Byte) (h : Untouched b r) : CommandEffect b r payload
  | writesRegisters (args : List Byte) (hmem : r.mem = b.mem) (hok : r.dbg.buf = msgOk) :
      CommandEffect b r (ascii 'G' :: args)
  | writesMemory (args : List Byte) (hreg : ∀ x : Reg, r.reg x = b.reg x) (hok : r.dbg.buf = msgOk) :
      CommandEffect b r (ascii 'M' :: args)
  | continues (args : List Byte) (hmem : r.mem = b.mem) (hreg : ∀ x : Reg, x ≠ .pc → r.reg x = b.reg x)
      (hrun : r.act = .run .debug) : CommandEffect b r (ascii 'c' :: args)

theorem Block.setRegs_mem (b : Block w) (rs : List Reg) (bs : List Byte) : (b.setRegs rs bs).mem = b.mem := by
  induction rs generalizing b bs with
  | nil => rfl
  | cons x rs ih =>
    obtain ⟨hmem, -⟩ := b.setReg_kept x (BitVec.ofNat w.xlen (assemble b.cfg.byteOrder (bs.take w.bytes)))
    exact (ih _ _).trans hmem

theorem memWrite_inv {a : Word w} {n v : Nat} {b r : Block w} (h : memWrite a n v b = .ok () r) : r = b.poke a n v := by
  unfold memWrite at h
  split at h <;> cases h
  rfl

theorem writeBytes_reg {addr : Word w} {bs : List Byte} {k : Nat} {b r : Block w}
    (h : writeBytes addr bs k b = .ok () r) (x : Reg) : r.reg x = b.reg x := by
  induction bs generalizing k b with
  | nil => cases h; rfl
  | cons y bs ih =>
    obtain ⟨_, b', hwrite, hrest⟩ := Op.bind_inv h
    rw [ih hrest, memWrite_inv hwrite, Block.poke_reg]

/-- An operation that completes has the effect that the letter of `payload` allows. -/
def Op.HasEffect (payload : List Byte) (op : Op w Unit) : Prop :=
  ∀ b r : Block w, op b = .ok () r → CommandEffect b r payload

section Effects
variable {payload : List Byte}

theorem Op.HasEffect.update {f : Block w → Block w} (h : ∀ b, CommandEffect b (f b) payload) :
    Op.HasEffect payload (update f) := by
  intro b r hr
  cases hr
  exact h b

/-- A command whose whole effect is a reply. -/
theorem Op.HasEffect.reply (p : Block w → List Byte) :
    Op.HasEffect payload (Machine.update fun b : Block w => b.reply (p b)) :=
  Op.HasEffect.update fun b => .none _ (.reply b _)

theorem Op.HasEffect.ite {c : Prop} [Decidable c] {x y : Op w Unit} (hx : c → Op.HasEffect payload x)
    (hy : Op.HasEffect payload y) : Op.HasEffect payload (if c then x else y) := by
  split
  next hc => exact hx hc
  next => exact hy

theorem cmdWriteRegs_effect (args : List Byte) : Op.HasEffect (ascii 'G' :: args) (cmdWriteRegs args : Op w Unit) := by
  unfold cmdWriteRegs
  split
  · exact .ite (fun _ => .update fun b => .writesRegisters args (b.setRegs_mem _ _) rfl) (.reply _)
  · exact .reply _

/-- Whether the bytes can be read or not, the registers and memory stay. -/
theorem cmdReadMem_effect (args : List Byte) : Op.HasEffect payload (cmdReadMem args : Op w Unit) := by
  intro b
  unfold cmdReadMem
  rw [Op.bind_ok (Op.get_run b)]
  rcases parseSpan w args with _ | ⟨addr, len, _ | ⟨c, rest⟩⟩
  case some.nil =>
    refine Op.HasEffect.ite (fun _ => .reply _) (fun b' r h => ?_) b
    obtain ⟨bs, b'', hread, hreply⟩ := Op.bind_inv h
    obtain rfl : b'' = b' := by
      rcases readBytes_run addr len.toNat 0 b' with ⟨bs', hbs, -⟩ | ⟨e, he⟩
      · rw [hbs] at hread; cases hread; rfl
      · rw [he] at hread; cases hread
    exact Op.HasEffect.reply _ b'' r hreply
  all_goals exact Op.HasEffect.reply _ b

/-- The text is checked whole before the first byte is written (rule R209). -/
theorem cmdWriteMem_effect (args : List Byte) : Op.HasEffect (ascii 'M' :: args) (cmdWriteMem args : Op w Unit) := by
  unfold cmdWriteMem
  split
  · exact .reply _
  split
  · exact .reply _
  split
  · exact .reply _
  refine .ite (fun _ b r h => ?_) (.reply _)
  obtain ⟨_, b', hwrite, hreply⟩ := Op.bind_inv h
  cases hreply
  exact .writesMemory args (fun x => (b'.reply_reg _ x).trans (writeBytes_reg hwrite x)) rfl

theorem cmdContinue_effect (args : List Byte) : Op.HasEffect (ascii 'c' :: args) (cmdContinue args : Op w Unit) := by
  unfold cmdContinue
  split
  · exact .update fun b => .continues _ rfl (fun x _ => b.setAct_reg _ x) rfl
  split
  next addr _ =>
    exact .update fun b => .continues _ rfl
      (fun x hx => ((b.setPc addr).setAct_reg _ x).trans (b.setPc_reg addr x hx)) rfl
  next => exact .reply _

theorem command_effect (payload : List Byte) : Op.HasEffect payload (command payload : Op w Unit) := by
  cases payload with
  | nil => exact .reply _
  | cons c args =>
    unfold command
    refine .ite (fun _ => .reply _) <| .ite (fun _ => ?logging) <| .ite (fun _ => .reply _) <|
      .ite (fun hc => hc ▸ cmdWriteRegs_effect args) <| .ite (fun _ => cmdReadMem_effect args) <|
      .ite (fun hc => hc ▸ cmdWriteMem_effect args) <| .ite (fun hc => hc ▸ cmdContinue_effect args) <|
      .ite (fun _ => ?kill) (.reply _)
    case logging => exact .update fun b => .none _ ⟨fun x => (Block.reply_reg _ _ x).trans (b.setDbg_reg _ x), rfl⟩
    case kill => exact .update fun b => .none _ ⟨b.leave_reg _, rfl⟩

end Effects

/-- Settles O59: each of the four effects, against each of the three changes. -/
theorem stubWritesOnlyOnCommand : Obligations.StubWritesOnlyOnCommand := by
  unfold Obligations.StubWritesOnlyOnCommand
  intro w b r payload h
  cases command_effect payload b r h with
  | none _ hsame =>
    exact ⟨fun hmem => absurd hsame.mem hmem, fun ⟨x, _, hx⟩ => absurd (hsame.reg x) hx,
      fun hpc => absurd (hsame.reg .pc) hpc⟩
  | writesRegisters args hmem hok =>
    exact ⟨fun hne => absurd hmem hne, fun _ => ⟨rfl, hok⟩, fun _ => .inl ⟨rfl, hok⟩⟩
  | writesMemory args hreg hok =>
    exact ⟨fun _ => ⟨rfl, hok⟩, fun ⟨x, _, hx⟩ => absurd (hreg x) hx, fun hpc => absurd (hreg .pc) hpc⟩
  | continues args hmem hreg hrun =>
    exact ⟨fun hne => absurd hmem hne, fun ⟨x, hx, hne⟩ => absurd (hreg x hx) hne, fun _ => .inr ⟨rfl, hrun⟩⟩

/-! ### The report of a stop (rules R211, R214, R215, R217) -/

/-- A code that the table does not list has no entry there. -/
theorem lookup_defaultSigMap_unlisted {n : Int} (h : n ∉ ([-256, -1, -2, -3, -4, -16, -17] : List Int)) :
    Config.defaultSigMap.lookup n = none := by
  rw [List.lookup_eq_none_iff]
  rintro ⟨k, sig⟩ hk
  have hkey : k ∈ ([-256, -1, -2, -3, -4, -16, -17] : List Int) := List.mem_map_of_mem (f := Prod.fst) hk
  exact bne_iff_ne.2 fun hn => h (hn ▸ hkey)

/-- The signal of a code by the table of rule R214. -/
theorem signalOf_default {cfg : Config w} (hmap : cfg.sigMap = Config.defaultSigMap) (hdefault : cfg.sigDefault = 6#8)
    (code : Word w) : signalOf cfg code = (Config.defaultSigMap.lookup code.toInt).getD 6#8 := by
  rw [signalOf, hmap, hdefault]

theorem step_stopped {b : Block w} {code : Word w} (h : b.act = .dbg (.stopped code)) :
    step ⟨w, b⟩ = .next ⟨w, dbgStopped code b⟩ := step_dbg h

/-- Settles O60: code 0 leaves the session; any other is looked up in the table, and the packet put in the buffer. -/
theorem stopIsReportedAsSignal : Obligations.StopIsReportedAsSignal := by
  unfold Obligations.StopIsReportedAsSignal
  intro w b code hact
  have hstep := step_stopped hact
  unfold dbgStopped at hstep
  refine ⟨fun hzero => ?_, fun hnonzero hmap hdefault => ?_⟩
  · rw [if_pos hzero] at hstep
    exact ⟨_, hstep, rfl, rfl, rfl, b.leave_reg _, rfl, rfl, rfl⟩
  · rw [if_neg hnonzero, signalOf_default hmap hdefault] at hstep
    refine ⟨_, _, hstep, rfl, rfl, rfl, fun x => ?_, rfl, rfl, rfl, fun h => ?_, fun h => ?_, fun h => ?_, fun h => ?_,
      fun h => ?_, fun h => ?_⟩
    · rw [Block.reply_reg, Block.setDbg_reg]
    · rw [h]; rfl
    · rw [h]; rfl
    · rcases h with h | h <;> rw [h] <;> rfl
    · rw [h]; rfl
    · rcases h with h | h <;> rw [h] <;> rfl
    · rw [lookup_defaultSigMap_unlisted h]; rfl

end Sys2Proof.Machine
end
